-- ==== Sys2Proof/Word.lean ====
section
/-! DEFINITION. The plain data the core moves: bytes, byte arrays of a fixed length, 16-bit words and colours
(00_scope.md R10, 10_state.md R44). -/

namespace Sys2Proof

/-- A byte is 8 bits (00_scope.md R10). -/
abbrev Byte := BitVec 8

/-- A 16-bit field of a datagram or a request; signed where a rule reads it as a sample. -/
abbrev Half := BitVec 16

/-- The bit pattern of an IEEE 754 binary64 number (10_state.md R42). -/
abbrev F64 := BitVec 64

/-- A byte array of exactly `n` bytes: a payload is 768 bytes in every rule that takes one, so no other length
can be written. -/
structure Bytes (n : Nat) where
  bytes : List Byte
  length_eq : bytes.length = n
  deriving DecidableEq, Repr

/-- An RGB colour of three 8-bit components (10_state.md R44). -/
structure Rgb where
  r : Byte
  g : Byte
  b : Byte
  deriving DecidableEq, Repr, Inhabited

end Sys2Proof
end

