-- ==== Sys2Proof/Config.lean ====
section
/-! DEFINITION. The implementation parameters of 00_scope.md R8 and R9: the constants the spec fixes, the four
parameters it leaves OPEN (opaque: nothing can be proved about their values beyond their stated ranges), and the
free values of IEEE 754 that no run meets. -/

namespace Sys2Proof.Config

/-- `ALPHA` as a binary64 pattern (43_audio.md R261). -/
def alpha : F64 := 0x3FEFD70A3D70A3D7#64

/-- `STD_A_HEIGHT`. -/
def stdAHeight : Nat := 272

/-- `MAX_PACKETS` at its default, which is exact (41_frame_assembler.md R183). The operations take the capacity as
an argument, so that the CAPACITY rule can be stated for every value of it. -/
def maxPackets : Nat := 8192

/-- `START_BASE`. -/
def startBase : Byte := 0x20#8

/-- `STOP_BASE`. -/
def stopBase : Byte := 0x30#8

/-- `CMD_MARKER`. -/
def cmdMarker : Byte := 0xFF#8

/-- `PALETTE`, OPEN (42_pixel_decoder.md R230): the 16 colours the core is built with. Log 7. -/
opaque palette : BitVec 4 → Rgb

/-- The choice behind `STD_B_HEIGHT`. Log 8. -/
opaque stdBHeightChoice : Nat

/-- `STD_B_HEIGHT`, OPEN: some height in 4..32771 other than 272 (41_frame_assembler.md R205). Every such height is
the value for some choice, and no choice gives another. Log 8. -/
def stdBHeight : Nat :=
  let k := stdBHeightChoice % 32767
  if k + 4 < stdAHeight then k + 4 else k + 5

/-- The choice behind `MAX_DGRAM_LEN`. Log 9. -/
opaque maxDgramLenExcess : Nat

/-- `MAX_DGRAM_LEN`, OPEN, at least 781 (30_encoding.md R102, D26). Log 9. -/
def maxDgramLen : Nat := 781 + maxDgramLenExcess

/-- `DURATION_UNIT`, OPEN; no operation reads it (44_control.md R296). Log 9. -/
opaque durationUnit : Nat

/-- The sign and payload of the NaN that an operation on a NaN, or an invalid operation, gives: IEEE 754 leaves them
open. No run meets a NaN (43_audio.md R265). Log 15. -/
opaque nanPayload : F64 → F64 → F64

/-- The output sample for a value that is not finite, to which no integer is nearest. No run meets one
(43_audio.md R265). Log 15. -/
opaque sampleOfNonFinite : F64 → Half

end Sys2Proof.Config
end

