-- ==== Sys2Proof/Machine/Float64.lean ====
section
/-! DEFINITION. IEEE 754 binary64 addition and multiplication, rounded to nearest with ties to even, and the integer
nearest to a value (00_scope.md R12, 43_audio.md R261 to R263). Every finite binary64 number is a whole multiple of
2^-1074, so values are exact integers in that unit. The format itself is that of IEEE 754 (log 14). -/

namespace Sys2Proof.Machine

/-- 2^k, written as a shift so that Lean evaluates it at any exponent of the format. -/
def pow2 (k : Nat) : Nat := 1 <<< k

/-- The number one, in units of 2^-1074. -/
def fOne : Nat := pow2 1074

/-- The sign bit. -/
def fSign (x : F64) : Bool := x.getLsbD 63

/-- The exponent field, bits 62..52. -/
def fExp (x : F64) : Nat := (x.extractLsb' 52 11).toNat

/-- The fraction field, bits 51..0. -/
def fFrac (x : F64) : Nat := (x.extractLsb' 0 52).toNat

/-- Neither an infinity nor a NaN. -/
def fFinite (x : F64) : Bool := fExp x ≠ 2047

/-- A NaN. -/
def fNan (x : F64) : Bool := fExp x = 2047 ∧ fFrac x ≠ 0

/-- An infinity. -/
def fInf (x : F64) : Bool := fExp x = 2047 ∧ fFrac x = 0

/-- The magnitude of a finite number, in units of 2^-1074. -/
def fMag (x : F64) : Nat := if fExp x = 0 then fFrac x else (pow2 52 + fFrac x) * pow2 (fExp x - 1)

/-- The value of a finite number, in units of 2^-1074. -/
def fValue (x : F64) : Int := if fSign x then -(fMag x : Int) else (fMag x : Int)

/-- `n / 2^q` rounded to the nearest integer, ties to even. -/
def roundShift (n q : Nat) : Nat :=
  let low := n % pow2 q
  let high := n / pow2 q
  if pow2 q < 2 * low ∨ (2 * low = pow2 q ∧ high % 2 = 1) then high + 1 else high

/-- The pattern of infinity without its sign. -/
def infMag : Nat := 2047 * pow2 52

/-- The pattern, without its sign, of the binary64 number nearest to the magnitude `n` in units of 2^-(1074 + k), ties to
even: the low `q` bits are rounded away, where `q` leaves 53 significant bits but never less than the unit 2^-1074. A
significand that rounds up to 2^53 carries into the exponent field, and one past the largest number is infinity. -/
def roundMag (n k : Nat) : Nat :=
  let q := max k (Nat.log2 n - 52)
  min infMag ((q - k) * pow2 52 + roundShift n q)

/-- A sign and a pattern without sign. -/
def fPack (neg : Bool) (mag : Nat) : F64 := BitVec.ofBool neg ++ BitVec.ofNat 63 mag

/-- A quiet NaN whose sign and payload IEEE 754 leaves open (log 15). -/
def fQuietNan (a b : F64) : F64 := 0x7FF8000000000000#64 ||| Config.nanPayload a b

/-- `a ⊕ b` (00_scope.md R12). A sum of exactly zero is +0.0, unless both operands are -0.0. -/
def fAdd (a b : F64) : F64 :=
  if fNan a ∨ fNan b then fQuietNan a b
  else if fInf a then (if fInf b ∧ fSign a ≠ fSign b then fQuietNan a b else a)
  else if fInf b then b
  else
    let sum := fValue a + fValue b
    if sum = 0 then fPack (fSign a && fSign b) 0 else fPack (decide (sum < 0)) (roundMag sum.natAbs 0)

/-- `a ⊗ b` (00_scope.md R12). -/
def fMul (a b : F64) : F64 :=
  let neg := fSign a != fSign b
  if fNan a ∨ fNan b then fQuietNan a b
  else if fInf a then (if fInf b ∨ fMag b ≠ 0 then fPack neg infMag else fQuietNan a b)
  else if fInf b then (if fMag a ≠ 0 then fPack neg infMag else fQuietNan a b)
  else fPack neg (roundMag (fMag a * fMag b) 1074)

/-- `f64(n)` (00_scope.md R12), exact for |n| < 2^53. -/
def fOfInt (n : Int) : F64 := fPack (decide (n < 0)) (roundMag (n.natAbs * fOne) 0)

/-- `rne_int(y)` of a finite value (00_scope.md R12): the nearest integer, ties to even. -/
def rneInt (y : F64) : Int :=
  let m : Int := (roundShift (fMag y) 1074 : Nat)
  if fSign y then -m else m

/-- `clamp(v, -32768, 32767)` as a 16-bit sample (00_scope.md R12, 43_audio.md R263). -/
def clampSample (v : Int) : Half :=
  BitVec.ofInt 16 (if v < -32768 then -32768 else if 32767 < v then 32767 else v)

/-- The output sample of a filtered value (43_audio.md R263); a free value where no integer is nearest (log 15). -/
def sampleOf (y : F64) : Half := if fFinite y then clampSample (rneInt y) else Config.sampleOfNonFinite y

end Sys2Proof.Machine
end

