-- ==== Sys2Proof/Syntax.lean ====
section
/-! DEFINITION. The syntax: transactions, the reasons a transaction is turned away, and `Instr`, one constructor per
row of spec/opcode_table.json. -/

namespace Sys2Proof

/-- The input ports (30_encoding.md R100). -/
inductive InPort where
  | vin
  | ain
  | cmd
  deriving DecidableEq, Repr

/-- One transaction: a byte array delivered whole on an input port (30_encoding.md R100, R102, R120). -/
structure Txn where
  port : InPort
  bytes : List Byte
  deriving DecidableEq, Repr

/-- Why a datagram is discarded (60_exceptions.md R322). -/
inductive DiscardReason where
  | len
  | ppl
  | lpp
  | bpp
  | capacity
  deriving DecidableEq, Repr

/-- Why a command request is refused (60_exceptions.md R325). -/
inductive CmdError where
  | op
  | length
  | stream
  deriving DecidableEq, Repr

/-- Why a byte string is no control command of the core's (30_encoding.md R112, R113). -/
inductive CtlReject where
  | short
  | marker
  | paramLength
  | commandByte
  deriving DecidableEq, Repr

/-- The fields DECODE_VIDEO_HEADER returns (40_packet_codec.md R150). -/
structure VideoHeader where
  seq : Half
  frame : Half
  startLine : BitVec 15
  isLast : Bool
  ppl : Half
  lpp : Byte
  bpp : Byte
  payload : Bytes 768
  deriving DecidableEq, Repr

/-- The IPv4 address a.b.c.d and the port number of a start command (44_control.md R291). -/
structure Endpoint where
  a : Byte
  b : Byte
  c : Byte
  d : Byte
  port : Half
  deriving DecidableEq, Repr

/-- The operations of the core, one constructor per row of the opcode table, in the table's order.
The rows that are later stages of a transaction (30_encoding.md R130) carry what the stage before hands them. -/
inductive Instr where
  /-- VIDEO_DATAGRAM: a VIN datagram of any length (R150). -/
  | videoDatagram (dg : List Byte)
  /-- ADD_PACKET: the decoded fields of an accepted video datagram (R185). -/
  | addPacket (frame : Half) (startLine : BitVec 15) (lpp : Byte) (payload : Bytes 768) (isLast : Bool)
  /-- AUDIO_DATAGRAM: an AIN datagram of any length (R160). -/
  | audioDatagram (dg : List Byte)
  /-- EXTRACT_PCM: the payload of an accepted audio datagram (R160, R250). -/
  | extractPcm (payload : Bytes 768)
  /-- DC_FILTER: one stereo sample pair (R260). -/
  | dcFilter (xL : Half) (xR : Half)
  /-- QUERY_STATUS, CMD op 0x01 (R195). -/
  | queryStatus
  /-- ASSEMBLE, CMD op 0x02 (R200). -/
  | assemble
  /-- ENCODE_START, CMD op 0x03 (R295). -/
  | encodeStart (streamId : Byte) (ep : Endpoint) (duration : Half)
  /-- ENCODE_STOP, CMD op 0x04 (R300). -/
  | encodeStop (streamId : Byte)
  /-- RESET_VIDEO, CMD op 0x05 (R210). -/
  | resetVideo
  /-- RESET_AUDIO, CMD op 0x06 (R270). -/
  | resetAudio
  /-- DECODE_BYTE, CMD op 0x07 (R232). -/
  | decodeByte (b : Byte)
  /-- CTL_START_VIDEO: a start command of stream 0 on COUT, with its parameter bytes (R112, R127). -/
  | ctlStartVideo (params : List Byte)
  /-- CTL_START_AUDIO: a start command of stream 1 on COUT. -/
  | ctlStartAudio (params : List Byte)
  /-- CTL_STOP_VIDEO: the stop command of stream 0 on COUT. -/
  | ctlStopVideo
  /-- CTL_STOP_AUDIO: the stop command of stream 1 on COUT. -/
  | ctlStopAudio
  deriving DecidableEq, Repr

/-- What an instruction is read from: a transaction of an input port, or, for the `CTL_*` rows, a byte string of
COUT (30_encoding.md R130). -/
inductive Wire where
  | txn (t : Txn)
  | command (bytes : List Byte)
  deriving DecidableEq, Repr

end Sys2Proof
end

