-- ==== Sys2Proof/Machine/Operands.lean ====
section
/-! DEFINITION. Operand forms: reading fields of byte arrays (00_scope.md R10, R11, R13, 20_memory.md R70 to R72),
the line field (30_encoding.md R106), nibbles, samples, the text of a start command (44_control.md R291) and the codes
of the reasons. -/

namespace Sys2Proof.Machine

/-- `B[i]` (00_scope.md R10). Every operation checks the length before it reads a field. -/
def byteAt (b : List Byte) (i : Nat) : Byte := b.getD i 0#8

/-- `u16le(B, i)` (00_scope.md R11): the byte at the lower offset is the less significant. -/
def u16le (b : List Byte) (i : Nat) : Half := byteAt b (i + 1) ++ byteAt b i

/-- `le16(v)` (00_scope.md R11). -/
def le16 (v : Half) : List Byte := [v.extractLsb' 0 8, v.extractLsb' 8 8]

/-- Bit 15 of the line field (30_encoding.md R106). -/
def lastFlag (line : Half) : Bool := line.getLsbD 15

/-- Bits 14..0 of the line field (30_encoding.md R106). -/
def startLineOf (line : Half) : BitVec 15 := line.setWidth 15

/-- The line field with the given last-packet flag and start line (30_encoding.md R135). -/
def lineField (isLast : Bool) (startLine : BitVec 15) : Half := BitVec.ofBool isLast ++ startLine

/-- Bits 3..0 of a pixel byte, the left pixel (20_memory.md R71). -/
def lowNibble (b : Byte) : BitVec 4 := b.extractLsb' 0 4

/-- Bits 7..4 of a pixel byte, the right pixel (20_memory.md R71). -/
def highNibble (b : Byte) : BitVec 4 := b.extractLsb' 4 4

/-- Consecutive 16-bit little-endian values: sample k is the value at offset 2k (43_audio.md R250). -/
def leWords : List Byte → List Half
  | lo :: hi :: rest => (hi ++ lo) :: leWords rest
  | _ => []

/-- Consecutive (left, right) pairs of interleaved samples (20_memory.md R72). -/
def stereoPairs : List Half → List (Half × Half)
  | l :: r :: rest => (l, r) :: stereoPairs rest
  | _ => []

/-- The ASCII digit of a number below 10. -/
def asciiDigit (n : Nat) : Byte := BitVec.ofNat 8 (0x30 + n)

/-- The last digits of `n`, at most `fuel` of them, most significant first, with no leading zeros. -/
def decDigits : Nat → Nat → List Byte
  | 0, _ => []
  | fuel + 1, n => if n < 10 then [asciiDigit n] else decDigits fuel (n / 10) ++ [asciiDigit (n % 10)]

/-- `dec(n)` (44_control.md R291). The numbers written are octets and 16-bit ports, so five digits hold every one. -/
def dec (n : Nat) : List Byte := decDigits 5 n

/-- ASCII '.' (44_control.md R291). -/
def asciiDot : Byte := 0x2E#8

/-- ASCII ':' (44_control.md R291). -/
def asciiColon : Byte := 0x3A#8

/-- The text "a.b.c.d:port" (44_control.md R291). -/
def endpointText (e : Endpoint) : List Byte :=
  dec e.a.toNat ++ [asciiDot] ++ dec e.b.toNat ++ [asciiDot] ++ dec e.c.toNat ++ [asciiDot] ++ dec e.d.toNat ++
    [asciiColon] ++ dec e.port.toNat

/-- The parameter bytes of a start command: the duration, then the text (30_encoding.md R112). -/
def startParams (e : Endpoint) (duration : Half) : List Byte := le16 duration ++ endpointText e

/-- A control command: command byte, marker, parameter length, parameters (30_encoding.md R112). -/
def ctlCommand (commandByte : Byte) (params : List Byte) : List Byte :=
  [commandByte, Config.cmdMarker] ++ le16 (BitVec.ofNat 16 params.length) ++ params

/-- Reads a decimal number off the front of a text. -/
def readNumber : Nat → List Byte → Nat × List Byte
  | acc, [] => (acc, [])
  | acc, ch :: rest =>
    if 0x30#8 ≤ ch ∧ ch ≤ 0x39#8 then readNumber (10 * acc + (ch.toNat - 0x30)) rest else (acc, ch :: rest)

/-- The endpoint whose text this is, if it is the text of one. -/
def parseEndpoint (text : List Byte) : Option Endpoint :=
  let ra := readNumber 0 text
  let rb := readNumber 0 (ra.2.drop 1)
  let rc := readNumber 0 (rb.2.drop 1)
  let rd := readNumber 0 (rc.2.drop 1)
  let rp := readNumber 0 (rd.2.drop 1)
  let e : Endpoint :=
    ⟨BitVec.ofNat 8 ra.1, BitVec.ofNat 8 rb.1, BitVec.ofNat 8 rc.1, BitVec.ofNat 8 rd.1, BitVec.ofNat 16 rp.1⟩
  if endpointText e = text then some e else none

/-- The endpoint and the duration of the parameter bytes of a start command, if they have its form
(30_encoding.md R112). -/
def parseStartParams (params : List Byte) : Option (Endpoint × Half) :=
  match parseEndpoint (params.drop 2) with
  | some e => if startParams e (u16le params 0) = params then some (e, u16le params 0) else none
  | none => none

/-- The discard reason codes (60_exceptions.md R322). -/
def discardCode : DiscardReason → Byte
  | .len => 1#8
  | .ppl => 2#8
  | .lpp => 3#8
  | .bpp => 4#8
  | .capacity => 5#8

/-- The command error codes (60_exceptions.md R325). -/
def cmdErrorCode : CmdError → Byte
  | .op => 0x80#8
  | .length => 0x81#8
  | .stream => 0x82#8

/-- The transactions the environment can deliver: a VIN or AIN datagram has at most `MAX_DGRAM_LEN` bytes
(30_encoding.md R102). -/
def deliverable (t : Txn) : Bool :=
  match t.port with
  | .vin => t.bytes.length ≤ Config.maxDgramLen
  | .ain => t.bytes.length ≤ Config.maxDgramLen
  | .cmd => true

end Sys2Proof.Machine
end

