-- ==== Sys2Proof/WellFormed.lean ====
section
/-! DEFINITION. Which instructions are well formed: the ones a row of the opcode table selects, with operands the
row's format admits (30_encoding.md R107, R110, R112, R120). -/

namespace Sys2Proof

open Sys2Proof.Machine

/-- A well-formed video datagram (30_encoding.md R107). -/
def videoWellFormed (dg : List Byte) : Bool :=
  dg.length == 780 && u16le dg 6 == 384#16 && byteAt dg 8 == 4#8 && byteAt dg 9 == 4#8

/-- A well-formed audio datagram (30_encoding.md R110). -/
def audioWellFormed (dg : List Byte) : Bool := dg.length == 770

/-- The well-formed instructions. -/
def Instr.wellFormed : Instr → Bool
  | .videoDatagram dg => videoWellFormed dg
  | .addPacket _ _ lpp _ _ => lpp == 4#8
  | .audioDatagram dg => audioWellFormed dg
  | .extractPcm _ => true
  | .dcFilter _ _ => true
  | .queryStatus => true
  | .assemble => true
  | .encodeStart streamId _ _ => streamId == 0#8 || streamId == 1#8
  | .encodeStop streamId => streamId == 0#8 || streamId == 1#8
  | .resetVideo => true
  | .resetAudio => true
  | .decodeByte _ => true
  | .ctlStartVideo params => (parseStartParams params).isSome
  | .ctlStartAudio params => (parseStartParams params).isSome
  | .ctlStopVideo => true
  | .ctlStopAudio => true

end Sys2Proof
end

