-- ==== Sys2Proof/Decode.lean ====
section
/-! DEFINITION. Decoding and encoding. The packet header codec (40_packet_codec.md), the selection of an operation by a
transaction (30_encoding.md R120, R121, R130), the reading of a control command (30_encoding.md R112, R114), the encoder
of every instruction, and the opcode table's words. -/

namespace Sys2Proof

open Sys2Proof.Machine

/-- DECODE_VIDEO_HEADER (40_packet_codec.md R150): the checks in the order LEN, PPL, LPP, BPP (R151), then the fields.
No field is read before the length check. -/
def decodeVideoHeader (dg : List Byte) : Except DiscardReason VideoHeader :=
  if h : dg.length = 780 then
    if u16le dg 6 ≠ 384#16 then .error .ppl
    else if byteAt dg 8 ≠ 4#8 then .error .lpp
    else if byteAt dg 9 ≠ 4#8 then .error .bpp
    else .ok
      { seq := u16le dg 0
        frame := u16le dg 2
        startLine := startLineOf (u16le dg 4)
        isLast := lastFlag (u16le dg 4)
        ppl := u16le dg 6
        lpp := byteAt dg 8
        bpp := byteAt dg 9
        payload := ⟨dg.drop 12, by simp [h]⟩ }
  else .error .len

/-- The bytes of a video datagram (30_encoding.md R105, R135). -/
def encodeVideoHeader (h : VideoHeader) (reserved : Half) : List Byte :=
  le16 h.seq ++ le16 h.frame ++ le16 (lineField h.isLast h.startLine) ++ le16 h.ppl ++ [h.lpp, h.bpp] ++
    le16 reserved ++ h.payload.bytes

/-- DECODE_AUDIO_HEADER (40_packet_codec.md R160): the payload after the two header bytes, which are not read. -/
def decodeAudioHeader (dg : List Byte) : Except DiscardReason (Bytes 768) :=
  if h : dg.length = 770 then .ok ⟨dg.drop 2, by simp [h]⟩ else .error .len

/-- The length check of R121: the request length is fixed per op code. -/
def ofLength (n : Nat) (b : List Byte) (i : Instr) : Except CmdError Instr :=
  if b.length = n then .ok i else .error .length

/-- A command request (30_encoding.md R120, R121): byte 0 selects the operation; an empty request and the reserved op
codes are refused with ERR_OP before the length is looked at. -/
def decodeCmd : List Byte → Except CmdError Instr
  | [] => .error .op
  | op :: rest =>
    let b := op :: rest
    match op.toNat with
    | 1 => ofLength 1 b .queryStatus
    | 2 => ofLength 1 b .assemble
    | 3 => ofLength 10 b (.encodeStart (byteAt b 1) ⟨byteAt b 2, byteAt b 3, byteAt b 4, byteAt b 5, u16le b 6⟩ (u16le b 8))
    | 4 => ofLength 2 b (.encodeStop (byteAt b 1))
    | 5 => ofLength 1 b .resetVideo
    | 6 => ofLength 1 b .resetAudio
    | 7 => ofLength 2 b (.decodeByte (byteAt b 1))
    | _ => .error .op

/-- The operation a transaction starts (30_encoding.md R130): the port selects it, and on CMD byte 0. -/
def decodeTxn (t : Txn) : Except CmdError Instr :=
  match t.port with
  | .vin => .ok (.videoDatagram t.bytes)
  | .ain => .ok (.audioDatagram t.bytes)
  | .cmd => decodeCmd t.bytes

/-- The control command a byte string of COUT holds (30_encoding.md R112, R114): the command is 4 + P bytes long, and
only the command bytes 0x20, 0x21, 0x30 and 0x31 are the core's (R113). -/
def decodeCtl (b : List Byte) : Except CtlReject Instr :=
  if b.length < 4 then .error .short
  else if byteAt b 1 ≠ Config.cmdMarker then .error .marker
  else if b.length ≠ 4 + (u16le b 2).toNat then .error .paramLength
  else match (byteAt b 0).toNat with
    | 0x20 => .ok (.ctlStartVideo (b.drop 4))
    | 0x21 => .ok (.ctlStartAudio (b.drop 4))
    | 0x30 => if u16le b 2 = 0#16 then .ok .ctlStopVideo else .error .paramLength
    | 0x31 => if u16le b 2 = 0#16 then .ok .ctlStopAudio else .error .paramLength
    | _ => .error .commandByte

/-- The instruction of a transaction or of a control command, none where the decoder refuses. -/
def decode : Wire → Option Instr
  | .txn t => (decodeTxn t).toOption
  | .command b => (decodeCtl b).toOption

/-- The bytes of an instruction. A stage of a transaction is encoded as the transaction it is a stage of, with the
ignored fields 0; DC_FILTER as the block whose first pair is its own (30_encoding.md R130). -/
def encode : Instr → Wire
  | .videoDatagram dg => .txn ⟨.vin, dg⟩
  | .addPacket frame startLine lpp payload isLast =>
    .txn ⟨.vin, encodeVideoHeader ⟨0#16, frame, startLine, isLast, 384#16, lpp, 4#8, payload⟩ 0#16⟩
  | .audioDatagram dg => .txn ⟨.ain, dg⟩
  | .extractPcm payload => .txn ⟨.ain, [0#8, 0#8] ++ payload.bytes⟩
  | .dcFilter xL xR => .txn ⟨.ain, [0#8, 0#8] ++ le16 xL ++ le16 xR ++ List.replicate 764 0#8⟩
  | .queryStatus => .txn ⟨.cmd, [1#8]⟩
  | .assemble => .txn ⟨.cmd, [2#8]⟩
  | .encodeStart streamId ep duration =>
    .txn ⟨.cmd, [3#8, streamId, ep.a, ep.b, ep.c, ep.d] ++ le16 ep.port ++ le16 duration⟩
  | .encodeStop streamId => .txn ⟨.cmd, [4#8, streamId]⟩
  | .resetVideo => .txn ⟨.cmd, [5#8]⟩
  | .resetAudio => .txn ⟨.cmd, [6#8]⟩
  | .decodeByte b => .txn ⟨.cmd, [7#8, b]⟩
  | .ctlStartVideo params => .command (ctlCommand 0x20#8 params)
  | .ctlStartAudio params => .command (ctlCommand 0x21#8 params)
  | .ctlStopVideo => .command (ctlCommand 0x30#8 [])
  | .ctlStopAudio => .command (ctlCommand 0x31#8 [])

/-- The first `n` bytes of a word, the least significant first. -/
def bytesOf : Nat → Nat → List Byte
  | 0, _ => []
  | n + 1, w => BitVec.ofNat 8 w :: bytesOf n (w / 256)

/-- The request length of an op code (30_encoding.md R120); 1 for a reserved one. -/
def requestLength (op : Nat) : Nat :=
  match op with
  | 3 => 10
  | 4 => 2
  | 7 => 2
  | _ => 1

/-- Where a word of the opcode table stands, every bit above `nbits` being 0. The table names a row's port, the word
does not: 10 bytes are a VIN datagram, 1 byte is a CMD request, 4 bytes and the two 16-bit words 0xFF20 and 0xFF21 are
a control command on COUT, the 16-bit words 0x0003 and 0x0403 an ENCODE_START request (the table gives that row a field at
bit 10), any other 2 bytes the header of an AIN datagram. Log 12. -/
def placeTableWord (nbits w : Nat) : Option Wire :=
  let v := w % 2 ^ nbits
  match nbits with
  | 8 => some (.txn ⟨.cmd, bytesOf (requestLength v) v⟩)
  | 16 =>
    if v = 0xFF20 ∨ v = 0xFF21 then some (.command (bytesOf 4 v))
    else if v = 0x0003 ∨ v = 0x0403 then some (.txn ⟨.cmd, bytesOf 10 v⟩)
    else some (.txn ⟨.ain, bytesOf 770 v⟩)
  | 32 => some (.command (bytesOf 4 v))
  | 80 => some (.txn ⟨.vin, bytesOf 780 v⟩)
  | _ => none

/-- The instruction the decoder reads from a word of the opcode table. -/
def decodeTableWord (nbits w : Nat) : Option Instr := (placeTableWord nbits w).bind decode

end Sys2Proof
end

