-- ==== Sys2Proof/Machine/State.lean ====
section
/-! DEFINITION. The state of the core as plain data, what a step can stop with, and the state after power-on reset
(10_state.md R32 to R48). -/

namespace Sys2Proof.Machine

/-- The faults of the core: there are none. "No condition halts the core, blocks it, or leaves it unable to take the
next transaction" (60_exceptions.md R328). Safe: no behaviour is cut off. -/
inductive Fault where
  deriving DecidableEq, Repr

/-- The refusals of the core. -/
inductive Refusal where
  /-- An instruction that has no meaning yet. Raised by an arm of `exec` only; no arm raises it. Safe. -/
  | notModelled (mnemonic : String)
  deriving DecidableEq, Repr

/-- The response channels of the three input ports, and the three output ports (30_encoding.md R100). -/
inductive OutPort where
  | vinResponse
  | ainResponse
  | cmdResponse
  | fout
  | aout
  | cout
  deriving DecidableEq, Repr

/-- One response, or one transfer on an output port. -/
structure Transfer where
  port : OutPort
  bytes : List Byte
  deriving DecidableEq, Repr

/-- The frame reassembler's state (10_state.md R32 to R36). -/
structure VideoState where
  /-- `trk_valid` (R32). -/
  trkValid : Bool
  /-- `trk_frame` (R33). -/
  trkFrame : Half
  /-- The indices i with `slot_valid[i]` = 1, rising (R34). -/
  slotValid : List Nat
  /-- `slot_line` (R34), by slot; a slot that is not listed holds 0. -/
  slotLine : List (Nat × BitVec 15)
  /-- `slot_data` (R34), the address space LB: byte `off` of slot `i` is at address 768 * i + off (20_memory.md R75, R78). -/
  slotData : List Host.Cell
  /-- `exp_count` (R35). -/
  expCount : Half
  /-- `height` (R36). -/
  height : Half
  deriving DecidableEq, Repr

/-- The filter state of one channel (10_state.md R41, R42). -/
structure DcChannel where
  /-- `dc_in[ch]`: the last raw input sample, signed (R41). -/
  dcIn : Half
  /-- `dc_out[ch]`: the last filtered output before rounding and clamping, binary64 (R42). -/
  dcOut : F64
  deriving DecidableEq, Repr

/-- The DC-blocking filter's state: channel 0 is left, channel 1 is right (10_state.md R41, R43). -/
structure AudioState where
  left : DcChannel
  right : DcChannel
  deriving DecidableEq, Repr

/-- The state of the core. `video` and `audio` are the spec's state; the other fields are the model's own. -/
structure State where
  video : VideoState
  audio : AudioState
  /-- The transactions that the environment delivers and the core has not taken yet, oldest first (20_memory.md R85).
  Log 2. -/
  arrivals : List Txn
  /-- The operations still to run in the transaction in progress; empty between steps. Log 4. -/
  stages : List Instr
  /-- The output samples of the audio block being filtered (40_packet_codec.md R161); empty between steps. Log 4. -/
  pcm : List Half
  /-- Every response and every output so far, in order (70_reset_and_hazards.md R372). Log 3. -/
  out : List Transfer
  deriving DecidableEq, Repr

/-- The reset values of the assembler (10_state.md R48). `slot_line` and `slot_data` are unspecified there and never
read; the model lets them hold 0 (log 5). -/
def VideoState.reset : VideoState :=
  { trkValid := false
    trkFrame := 0#16
    slotValid := []
    slotLine := []
    slotData := []
    expCount := 0#16
    height := 0#16 }

/-- The reset values of one filter channel: 0 and +0.0 (10_state.md R48). -/
def DcChannel.reset : DcChannel := { dcIn := 0#16, dcOut := 0#64 }

/-- The reset values of the filter (10_state.md R48). -/
def AudioState.reset : AudioState := { left := DcChannel.reset, right := DcChannel.reset }

/-- The state after power-on reset (10_state.md R48, 70_reset_and_hazards.md R361, R372): nothing delivered yet, no
transaction in progress, no output pending. -/
def State.reset : State :=
  { video := VideoState.reset
    audio := AudioState.reset
    arrivals := []
    stages := []
    pcm := []
    out := [] }

end Sys2Proof.Machine
end

