-- ==== Sys2Proof/Machine/Ops.lean ====
section
/-! DEFINITION. The named operations over the state: the sparse memories, the line buffer, the assembler's writes, the
responses and outputs, the hand-over between stages, and the two ways a transaction is turned away (00_scope.md R13,
60_exceptions.md R321, R325). -/

namespace Sys2Proof.Machine

section Sparse

variable {α : Type}

/-- A list of (address, value) pairs is canonical: addresses strictly rising, and no entry holds what an unlisted
address reads as. -/
abbrev Sparse.wf (unlisted : α) (m : List (Nat × α)) : Prop :=
  List.Pairwise (fun p q => p.1 < q.1) m ∧ ∀ p ∈ m, p.2 ≠ unlisted

/-- The value at an address. -/
def sparseRead (unlisted : α) : List (Nat × α) → Nat → α
  | [], _ => unlisted
  | (b, v) :: rest, a => if b = a then v else sparseRead unlisted rest a

/-- The entries that hold the values `vs` from address `a` on. -/
def sparseCells [DecidableEq α] (unlisted : α) : Nat → List α → List (Nat × α)
  | _, [] => []
  | a, v :: vs => if v = unlisted then sparseCells unlisted (a + 1) vs else (a, v) :: sparseCells unlisted (a + 1) vs

/-- Writes the values `vs` from address `a` on, and nothing else. -/
def sparseWrite [DecidableEq α] (unlisted : α) (m : List (Nat × α)) (a : Nat) (vs : List α) : List (Nat × α) :=
  m.filter (fun p => p.1 < a) ++ sparseCells unlisted a vs ++ m.filter (fun p => a + vs.length ≤ p.1)

/-- The `n` values from address `a` on, of a list whose addresses are `a` or more. -/
def sparseTake (unlisted : α) : List (Nat × α) → Nat → Nat → List α
  | _, _, 0 => []
  | [], a, n + 1 => unlisted :: sparseTake unlisted [] (a + 1) n
  | (b, v) :: rest, a, n + 1 =>
    if b = a then v :: sparseTake unlisted rest (a + 1) n
    else unlisted :: sparseTake unlisted ((b, v) :: rest) (a + 1) n

/-- The `n` values from address `a` on. -/
def sparseReadBlock (unlisted : α) (m : List (Nat × α)) (a n : Nat) : List α :=
  sparseTake unlisted (m.dropWhile (fun p => p.1 < a)) a n

end Sparse

/-- What a byte of the line buffer that nothing has written reads as. No operation reads one (70_reset_and_hazards.md
R362). Log 5. -/
def Memory.unlisted : Byte := 0#8

/-- The canonical form of the line buffer's memory. -/
abbrev Memory.wf (m : List Host.Cell) : Prop := Sparse.wf Memory.unlisted m

/-- One byte of the line buffer's memory. -/
def Memory.read (m : List Host.Cell) (a : Nat) : Byte := sparseRead Memory.unlisted m a

/-- Writes consecutive bytes. -/
def Memory.writeBlock (m : List Host.Cell) (a : Nat) (bytes : List Byte) : List Host.Cell :=
  sparseWrite Memory.unlisted m a bytes

/-- Reads consecutive bytes. -/
def Memory.readBlock (m : List Host.Cell) (a n : Nat) : List Byte := sparseReadBlock Memory.unlisted m a n

/-- The address of byte `off` of `slot_data[i]` (20_memory.md R75, R78). -/
def slotAddr (i off : Nat) : Nat := 768 * i + off

/-- `slot_valid[i]` (10_state.md R34). -/
def slotValidAt (v : VideoState) (i : Nat) : Bool := decide (i ∈ v.slotValid)

/-- `slot_line[i]` (10_state.md R34). -/
def slotLineAt (v : VideoState) (i : Nat) : BitVec 15 := sparseRead 0#15 v.slotLine i

/-- `MemRead(LB:(i, off), 1)` (20_memory.md R78). -/
def slotByte (v : VideoState) (i off : Nat) : Byte := Memory.read v.slotData (slotAddr i off)

/-- Sub-line `j` of slot `i` (20_memory.md R78). -/
def subLine (v : VideoState) (i j : Nat) : List Byte := Memory.readBlock v.slotData (slotAddr i (192 * j)) 192

/-- Sets `slot_valid[i]`. -/
def markValid (valid : List Nat) (i : Nat) : List Nat :=
  valid.filter (fun k => k < i) ++ [i] ++ valid.filter (fun k => i < k)

/-- Clears every `slot_valid`, `exp_count` and `height` (41_frame_assembler.md R185, R210). The other bits of the slots
keep what they hold (log 6). -/
def VideoState.clearFrame (v : VideoState) : VideoState :=
  { v with slotValid := [], expCount := 0#16, height := 0#16 }

/-- Tracks a frame number (41_frame_assembler.md R185). -/
def VideoState.track (v : VideoState) (frame : Half) : VideoState :=
  { v with trkFrame := frame, trkValid := true }

/-- Stores a packet in slot `i`: the whole slot, last write wins (41_frame_assembler.md R185, R186). -/
def VideoState.storeSlot (v : VideoState) (i : Nat) (line : BitVec 15) (payload : Bytes 768) : VideoState :=
  { v with
    slotValid := markValid v.slotValid i
    slotLine := sparseWrite 0#15 v.slotLine i [line]
    slotData := Memory.writeBlock v.slotData (slotAddr i 0) payload.bytes }

/-- Sets the expected packet count and the height (41_frame_assembler.md R185, R187). -/
def VideoState.setGeometry (v : VideoState) (expCount height : Nat) : VideoState :=
  { v with expCount := BitVec.ofNat 16 expCount, height := BitVec.ofNat 16 height }

/-- A frame switch (41_frame_assembler.md R182): equality on 16 bits, no order between frame numbers. -/
def isFrameSwitch (v : VideoState) (frame : Half) : Bool := !v.trkValid || frame != v.trkFrame

/-- The packet index (41_frame_assembler.md R181): floor division. -/
def packetIndex (startLine : BitVec 15) (lpp : Byte) : Nat := startLine.toNat / lpp.toNat

/-- What a frame switch does before the store (41_frame_assembler.md R185). -/
def switchFrame (v : VideoState) (frame : Half) : VideoState :=
  if isFrameSwitch v frame then v.clearFrame.track frame else v

/-- ADD_PACKET on the assembler's state, with `capacity` packet slots (41_frame_assembler.md R183, R185). -/
def addPacketTo (capacity : Nat) (v : VideoState) (frame : Half) (startLine : BitVec 15) (lpp : Byte)
    (payload : Bytes 768) (isLast : Bool) : Except DiscardReason VideoState :=
  let idx := packetIndex startLine lpp
  if capacity ≤ idx then .error .capacity
  else
    let stored := (switchFrame v frame).storeSlot idx startLine payload
    .ok (if isLast then stored.setGeometry (idx + 1) (startLine.toNat + lpp.toNat) else stored)

/-- RESET_VIDEO on the assembler's state (41_frame_assembler.md R210). -/
def VideoState.toReset (v : VideoState) : VideoState :=
  { v.clearFrame with trkFrame := 0#16, trkValid := false }

/-- One step of the DC-blocking filter on one channel (43_audio.md R260 to R262): the exact integer difference, one
binary64 product, one binary64 sum. -/
def dcStep (ch : DcChannel) (x : Half) : DcChannel :=
  { dcIn := x
    dcOut := fAdd (fOfInt (x.toInt - ch.dcIn.toInt)) (fMul Config.alpha ch.dcOut) }

/-- Sends one response, or one transfer on an output port. -/
def State.emit (s : State) (port : OutPort) (bytes : List Byte) : State :=
  { s with out := s.out ++ [⟨port, bytes⟩] }

/-- Hands the transaction in progress to further operations. -/
def State.schedule (s : State) (next : List Instr) : State := { s with stages := next ++ s.stages }

/-- Takes the operation that runs next. -/
def State.withStages (s : State) (stages : List Instr) : State := { s with stages := stages }

/-- Takes the transaction that has waited longest. -/
def State.withArrivals (s : State) (arrivals : List Txn) : State := { s with arrivals := arrivals }

/-- Writes the assembler's state. -/
def State.withVideo (s : State) (video : VideoState) : State := { s with video := video }

/-- Writes the filter's state. -/
def State.withAudio (s : State) (audio : AudioState) : State := { s with audio := audio }

/-- Sets the output samples of the block being filtered. -/
def State.withPcm (s : State) (pcm : List Half) : State := { s with pcm := pcm }

/-- The environment delivers a transaction (60_exceptions.md R340). -/
def State.deliver (s : State) (t : Txn) : State := { s with arrivals := s.arrivals ++ [t] }

end Sys2Proof.Machine
end

