-- ==== Sys2Proof/Machine/Flags.lean ====
section
/-! DEFINITION. What is computed from the registers: `count`, `asm_state`, `complete`, the format tag and the status
record (10_state.md R37 to R39, R45, 41_frame_assembler.md R196, R205), and the responses that report them. -/

namespace Sys2Proof.Machine

/-- The states of the assembler (10_state.md R38). -/
inductive AsmState where
  | empty
  | accumulating
  | complete
  deriving DecidableEq, Repr

/-- `count` (10_state.md R37). -/
def packetCount (v : VideoState) : Nat := v.slotValid.length

/-- The completion predicate (41_frame_assembler.md R196). -/
def isComplete (v : VideoState) : Bool :=
  v.trkValid && decide (0 < v.expCount.toNat) && decide (v.expCount.toNat ≤ packetCount v)

/-- `asm_state` (10_state.md R38). -/
def asmState (v : VideoState) : AsmState :=
  if v.trkValid = false then .empty else if isComplete v then .complete else .accumulating

/-- How a response reports `asm_state` (10_state.md R38). -/
def asmCode : AsmState → Byte
  | .empty => 0#8
  | .accumulating => 1#8
  | .complete => 2#8

/-- `fmt_tag(h)` (41_frame_assembler.md R205). -/
def fmtTag (h : Nat) : Byte :=
  if h = Config.stdAHeight then 0#8 else if h = Config.stdBHeight then 1#8 else 2#8

/-- The FORMAT field of the status record (10_state.md R45). -/
def formatField (v : VideoState) : Byte := if 0 < v.height.toNat then fmtTag v.height.toNat else 3#8

/-- The flags byte of the status record: bit 0 `TRK_VALID`, bit 1 `COMPLETE`, bits 7..2 hardwired 0 (10_state.md R45). -/
def flagsByte (v : VideoState) : Byte := 0#6 ++ BitVec.ofBool (isComplete v) ++ BitVec.ofBool v.trkValid

/-- The 11-byte status record (10_state.md R45). -/
def statusRecord (v : VideoState) : List Byte :=
  [asmCode (asmState v), flagsByte v] ++ le16 v.trkFrame ++ le16 v.expCount ++ le16 v.height ++
    le16 (BitVec.ofNat 16 (packetCount v)) ++ [formatField v]

/-- The VIN response, read after the transaction's writes (30_encoding.md R122, 40_packet_codec.md R153). -/
def vinResponse (discarded : Option DiscardReason) (v : VideoState) : List Byte :=
  match discarded with
  | none => [0#8, 0#8, asmCode (asmState v)]
  | some r => [1#8, discardCode r, asmCode (asmState v)]

/-- The AIN response (30_encoding.md R123). -/
def ainResponse (discarded : Option DiscardReason) : List Byte :=
  match discarded with
  | none => [0#8, 0#8]
  | some r => [1#8, discardCode r]

/-- Ends a VIN transaction that is accepted. -/
def acceptVideo (s : State) : State := s.emit .vinResponse (vinResponse none s.video)

/-- `raise Discard(reason)` on VIN: no state write, no output but the response (60_exceptions.md R321). -/
def discardVideo (r : DiscardReason) (s : State) : State := s.emit .vinResponse (vinResponse (some r) s.video)

/-- `raise Discard(reason)` on AIN (60_exceptions.md R321). -/
def discardAudio (r : DiscardReason) (s : State) : State := s.emit .ainResponse (ainResponse (some r))

/-- `raise CmdError(code)`: no state write, no data bytes, no output (60_exceptions.md R325). -/
def cmdError (e : CmdError) (s : State) : State := s.emit .cmdResponse [cmdErrorCode e]

/-- A CMD response with status OK and its data bytes (30_encoding.md R124). -/
def cmdOk (data : List Byte) (s : State) : State := s.emit .cmdResponse (0#8 :: data)

/-- The CMD response NONE (30_encoding.md R124, 60_exceptions.md R324). -/
def cmdNone (s : State) : State := s.emit .cmdResponse [1#8]

end Sys2Proof.Machine
end

