-- ==== Sys2Proof/Machine/Pixel.lean ====
section
/-! DEFINITION. The palette lookup decoder: DECODE_BYTE (42_pixel_decoder.md). -/

namespace Sys2Proof.Machine

/-- DECODE_BYTE(b) (R232): the left pixel's colour, then the right pixel's. -/
def decodePixels (b : Byte) : Rgb × Rgb := (Config.palette (lowNibble b), Config.palette (highNibble b))

/-- The three bytes of a colour, in the order R, G, B (20_memory.md R79). -/
def rgbBytes (c : Rgb) : List Byte := [c.r, c.g, c.b]

/-- The pixels of a row: byte k gives columns 2k and 2k + 1 (41_frame_assembler.md R201, R234). -/
def decodeRow (bytes : List Byte) : List Rgb := bytes.flatMap fun b => [(decodePixels b).1, (decodePixels b).2]

/-- DECODE_BYTE on CMD (R232): the low-nibble colour, then the high-nibble colour (30_encoding.md R124). -/
def execDecodeByte (b : Byte) (s : State) : Host.Outcome State Fault Refusal :=
  .next (cmdOk (rgbBytes (decodePixels b).1 ++ rgbBytes (decodePixels b).2) s)

end Sys2Proof.Machine
end

