-- ==== Sys2Proof/Machine/Assembler.lean ====
section
/-! DEFINITION. The frame reassembler: ADD_PACKET, QUERY_STATUS, ASSEMBLE and RESET_VIDEO (41_frame_assembler.md). -/

namespace Sys2Proof.Machine

/-- ADD_PACKET (R185), the second stage of a VIN transaction, then the VIN response (40_packet_codec.md R153). -/
def execAddPacket (frame : Half) (startLine : BitVec 15) (lpp : Byte) (payload : Bytes 768) (isLast : Bool) (s : State) :
    Host.Outcome State Fault Refusal :=
  match addPacketTo Config.maxPackets s.video frame startLine lpp payload isLast with
  | .error r => .next (discardVideo r s)
  | .ok v => .next (acceptVideo (s.withVideo v))

/-- QUERY_STATUS (R195). -/
def execQueryStatus (s : State) : Host.Outcome State Fault Refusal :=
  .next (cmdOk (statusRecord s.video) s)

/-- The default pixel (R202). -/
def blankPixel : Rgb := ⟨0#8, 0#8, 0#8⟩

/-- A row no packet has drawn on. -/
def blankRow : List Rgb := List.replicate 384 blankPixel

/-- Draws sub-line `j` of slot `i` on row `slot_line[i]` + j; a row at or beyond the height is clipped (R200, R201). -/
def drawSubLine (v : VideoState) (i : Nat) (rows : List (List Rgb)) (j : Nat) : List (List Rgb) :=
  rows.set ((slotLineAt v i).toNat + j) (decodeRow (subLine v i j))

/-- Draws the four sub-lines of slot `i`. -/
def drawSlot (v : VideoState) (rows : List (List Rgb)) (i : Nat) : List (List Rgb) :=
  (List.range 4).foldl (drawSubLine v i) rows

/-- The frame buffer ASSEMBLE builds: `height` rows, the valid slots drawn in ascending order (R200, R203). -/
def frameRows (v : VideoState) : List (List Rgb) :=
  v.slotValid.foldl (drawSlot v) (List.replicate v.height.toNat blankRow)

/-- The pixels of a frame as bytes, row-major (20_memory.md R79). -/
def pixelBytes (rows : List (List Rgb)) : List Byte := rows.flatMap fun row => row.flatMap rgbBytes

/-- The header of a frame: the height and the format tag (30_encoding.md R125). -/
def frameHeader (v : VideoState) : List Byte := le16 v.height ++ [fmtTag v.height.toNat]

/-- ASSEMBLE (R200): NONE when no frame is complete (60_exceptions.md R324); else the response and the frame on FOUT. No
core state changes (R204). -/
def execAssemble (s : State) : Host.Outcome State Fault Refusal :=
  if isComplete s.video then
    .next ((cmdOk (frameHeader s.video) s).emit .fout (frameHeader s.video ++ pixelBytes (frameRows s.video)))
  else .next (cmdNone s)

/-- RESET_VIDEO (R210). -/
def execResetVideo (s : State) : Host.Outcome State Fault Refusal :=
  .next (cmdOk [] (s.withVideo s.video.toReset))

end Sys2Proof.Machine
end

