-- ==== Sys2Proof/Machine/Audio.lean ====
section
/-! DEFINITION. The audio deframer and the DC-blocking filter: EXTRACT_PCM, DC_FILTER and RESET_AUDIO (43_audio.md). -/

namespace Sys2Proof.Machine

/-- The DC_FILTER operations of a block, one for each sample pair in order (40_packet_codec.md R161). -/
def filterStages (payload : Bytes 768) : List Instr :=
  (stereoPairs (leWords payload.bytes)).map fun p => .dcFilter p.1 p.2

/-- EXTRACT_PCM (R250), the second stage of an AIN transaction: the 384 samples, as the 192 pairs DC_FILTER takes. -/
def execExtractPcm (payload : Bytes 768) (s : State) : Host.Outcome State Fault Refusal :=
  .next ((s.withPcm []).schedule (filterStages payload))

/-- The bytes of an audio block, each sample little-endian (30_encoding.md R126). -/
def pcmBytes (samples : List Half) : List Byte := samples.flatMap le16

/-- Ends an accepted AIN transaction once the block has its 384 samples: the AIN response, then the one AOUT block
(30_encoding.md R123, 40_packet_codec.md R161). -/
def finishBlock (s : State) : State :=
  if s.pcm.length = 384 then
    ((s.emit .ainResponse (ainResponse none)).emit .aout (pcmBytes s.pcm)).withPcm []
  else s

/-- DC_FILTER (R260) on one sample pair, the third stage of an AIN transaction. Each channel uses its own state (R267). -/
def execDcFilter (xL xR : Half) (s : State) : Host.Outcome State Fault Refusal :=
  let left := dcStep s.audio.left xL
  let right := dcStep s.audio.right xR
  .next (finishBlock ((s.withAudio ⟨left, right⟩).withPcm (s.pcm ++ [sampleOf left.dcOut, sampleOf right.dcOut])))

/-- RESET_AUDIO (R270). -/
def execResetAudio (s : State) : Host.Outcome State Fault Refusal :=
  .next (cmdOk [] (s.withAudio AudioState.reset))

end Sys2Proof.Machine
end

