-- ==== Sys2Proof/Machine/Control.lean ====
section
/-! DEFINITION. The control protocol encoder (44_control.md): ENCODE_START and ENCODE_STOP, and the four control commands
they send on COUT (30_encoding.md R112, R127). The command itself is the last stage of its transaction (log 11). -/

namespace Sys2Proof.Machine

/-- The start command of a stream (R295): stream 0 is video, 1 is audio, no other is accepted (R292). -/
def startCommand (streamId : Byte) (params : List Byte) : Option Instr :=
  if streamId = 0#8 then some (.ctlStartVideo params) else if streamId = 1#8 then some (.ctlStartAudio params) else none

/-- The stop command of a stream (R300). -/
def stopCommand (streamId : Byte) : Option Instr :=
  if streamId = 0#8 then some .ctlStopVideo else if streamId = 1#8 then some .ctlStopAudio else none

/-- Answers an encoder request whose command has `length` bytes and sends the command next; ERR_STREAM where the stream
id selects no command (R292). -/
def answerEncoder (command : Option Instr) (length : Nat) (s : State) : State :=
  match command with
  | some i => (cmdOk (le16 (BitVec.ofNat 16 length)) s).schedule [i]
  | none => cmdError .stream s

/-- ENCODE_START (R295): the command is 4 + P bytes long. -/
def execEncodeStart (streamId : Byte) (ep : Endpoint) (duration : Half) (s : State) : Host.Outcome State Fault Refusal :=
  let params := startParams ep duration
  .next (answerEncoder (startCommand streamId params) (4 + params.length) s)

/-- ENCODE_STOP (R300): the command is 4 bytes long. -/
def execEncodeStop (streamId : Byte) (s : State) : Host.Outcome State Fault Refusal :=
  .next (answerEncoder (stopCommand streamId) 4 s)

/-- CTL_START_VIDEO: the command's exact bytes leave on COUT (30_encoding.md R127). -/
def execCtlStartVideo (params : List Byte) (s : State) : Host.Outcome State Fault Refusal :=
  .next (s.emit .cout (ctlCommand (Config.startBase + 0#8) params))

/-- CTL_START_AUDIO. -/
def execCtlStartAudio (params : List Byte) (s : State) : Host.Outcome State Fault Refusal :=
  .next (s.emit .cout (ctlCommand (Config.startBase + 1#8) params))

/-- CTL_STOP_VIDEO. -/
def execCtlStopVideo (s : State) : Host.Outcome State Fault Refusal :=
  .next (s.emit .cout (ctlCommand (Config.stopBase + 0#8) []))

/-- CTL_STOP_AUDIO. -/
def execCtlStopAudio (s : State) : Host.Outcome State Fault Refusal :=
  .next (s.emit .cout (ctlCommand (Config.stopBase + 1#8) []))

end Sys2Proof.Machine
end

