-- ==== Sys2Proof/Machine/Packet.lean ====
section
/-! DEFINITION. The packet header parser: VIDEO_DATAGRAM and AUDIO_DATAGRAM (40_packet_codec.md). -/

namespace Sys2Proof.Machine

/-- VIDEO_DATAGRAM: DECODE_VIDEO_HEADER (R150), the first stage of a VIN transaction (R153). A malformed datagram is
discarded with the first failing check as the reason (R151); the fields of an accepted one go to ADD_PACKET, the
header's own lines-per-packet among them (R152). -/
def execVideoDatagram (dg : List Byte) (s : State) : Host.Outcome State Fault Refusal :=
  match decodeVideoHeader dg with
  | .error r => .next (discardVideo r s)
  | .ok h => .next (s.schedule [.addPacket h.frame h.startLine h.lpp h.payload h.isLast])

/-- AUDIO_DATAGRAM: DECODE_AUDIO_HEADER (R160), the first stage of an AIN transaction (R161). -/
def execAudioDatagram (dg : List Byte) (s : State) : Host.Outcome State Fault Refusal :=
  match decodeAudioHeader dg with
  | .error r => .next (discardAudio r s)
  | .ok payload => .next (s.schedule [.extractPcm payload])

end Sys2Proof.Machine
end

