-- ==== Sys2Proof/Machine/Dispatch.lean ====
section
/-! DEFINITION. The meaning of every instruction, one arm per row of the opcode table. -/

namespace Sys2Proof.Machine

def exec (i : Instr) (s : State) : Host.Outcome State Fault Refusal :=
  match i with
  -- Packet header parser
  | .videoDatagram dg => Sys2Proof.Machine.execVideoDatagram dg s
  | .addPacket frame startLine lpp payload isLast => Sys2Proof.Machine.execAddPacket frame startLine lpp payload isLast s
  | .audioDatagram dg => Sys2Proof.Machine.execAudioDatagram dg s
  | .extractPcm payload => Sys2Proof.Machine.execExtractPcm payload s
  | .dcFilter xL xR => Sys2Proof.Machine.execDcFilter xL xR s
  -- Command requests
  | .queryStatus => Sys2Proof.Machine.execQueryStatus s
  | .assemble => Sys2Proof.Machine.execAssemble s
  | .encodeStart streamId ep duration => Sys2Proof.Machine.execEncodeStart streamId ep duration s
  | .encodeStop streamId => Sys2Proof.Machine.execEncodeStop streamId s
  | .resetVideo => Sys2Proof.Machine.execResetVideo s
  | .resetAudio => Sys2Proof.Machine.execResetAudio s
  | .decodeByte b => Sys2Proof.Machine.execDecodeByte b s
  -- Control commands on COUT
  | .ctlStartVideo params => Sys2Proof.Machine.execCtlStartVideo params s
  | .ctlStartAudio params => Sys2Proof.Machine.execCtlStartAudio params s
  | .ctlStopVideo => Sys2Proof.Machine.execCtlStopVideo s
  | .ctlStopAudio => Sys2Proof.Machine.execCtlStopAudio s

end Sys2Proof.Machine
end

