-- ==== Sys2Proof/Machine/Sequence.lean ====
section
/-! DEFINITION. Running a transaction from its start to its end: the operation it starts, then the stages that operation
hands it to, each by `exec` (30_encoding.md R130, 40_packet_codec.md R153, R161). No other transaction is taken in
between (20_memory.md R81). Log 1. -/

namespace Sys2Proof.Machine

/-- How many operations an instruction leads to, itself among them. -/
def work : Instr → Nat
  | .videoDatagram _ => 2
  | .addPacket _ _ _ _ _ => 1
  | .audioDatagram _ => 194
  | .extractPcm _ => 193
  | .dcFilter _ _ => 1
  | .queryStatus => 1
  | .assemble => 1
  | .encodeStart _ _ _ => 2
  | .encodeStop _ => 2
  | .resetVideo => 1
  | .resetAudio => 1
  | .decodeByte _ => 1
  | .ctlStartVideo _ => 1
  | .ctlStartAudio _ => 1
  | .ctlStopVideo => 1
  | .ctlStopAudio => 1

/-- How many operations a list of stages leads to. -/
def workload (stages : List Instr) : Nat := (stages.map work).sum

/-- Goes on with a next state; a fault or a refusal stands. -/
def andThen (o : Host.Outcome State Fault Refusal) (f : State → Host.Outcome State Fault Refusal) :
    Host.Outcome State Fault Refusal :=
  match o with
  | .next s => f s
  | .fault r => .fault r
  | .refused r => .refused r

/-- Runs stages, the first first, until none is left or `fuel` operations have run. -/
def runStages : Nat → State → Host.Outcome State Fault Refusal
  | 0, s => .next s
  | fuel + 1, s =>
    match s.stages with
    | [] => .next s
    | i :: rest => andThen (exec i (s.withStages rest)) (runStages fuel)

/-- Runs every stage the state holds. -/
def finishStages (s : State) : Host.Outcome State Fault Refusal := runStages (workload s.stages) s

/-- Runs an instruction and every stage it leads to. -/
def perform (i : Instr) (s : State) : Host.Outcome State Fault Refusal := andThen (exec i s) finishStages

/-- Performs one transaction (20_memory.md R81). A command request that the decoder refuses gets its error response
(30_encoding.md R121). -/
def transact (t : Txn) (s : State) : Host.Outcome State Fault Refusal :=
  match decodeTxn t with
  | .ok i => perform i s
  | .error e => .next (cmdError e s)

/-- Takes the transaction that has waited longest and performs it. With none waiting the core does nothing
(70_reset_and_hazards.md R372, log 13). Stages that are still to run go first (log 4). -/
def stepCore (s : State) : Host.Outcome State Fault Refusal :=
  match s.stages with
  | _ :: _ => finishStages s
  | [] =>
    match s.arrivals with
    | [] => .next s
    | t :: rest => transact t (s.withArrivals rest)

/-- The state with an instruction's bytes placed where `stepCore` takes its next instruction: a transaction in front of
the queue, a control command as the stage that sends it. -/
def placeWire (s : State) (w : Wire) : State :=
  match w with
  | .txn t => (s.withStages []).withArrivals (t :: s.arrivals)
  | .command b =>
    match decode (.command b) with
    | some i => s.withStages [i]
    | none => s

end Sys2Proof.Machine
end

