-- ==== Sys2Proof/Machine/Step.lean ====
section
/-! DEFINITION. One step: one whole transaction (20_memory.md R81, R85). -/

namespace Sys2Proof.Machine

/-- One step of the core. -/
def step (s : State) : Host.Outcome State Fault Refusal := stepCore s

/-- The state with the instruction of an opcode-table word placed where `step` takes its next instruction (logs 12
and 13). -/
def State.withFetchWord (s : State) (nbits w : Nat) : State :=
  match placeTableWord nbits w with
  | some wire => placeWire s wire
  | none => s

end Sys2Proof.Machine
end

