-- ==== Sys2Proof/Safety.lean ====
section
/-! DEFINITION. What claims are stated in terms of: the invariants of the core, what two states share that differ only
where nothing may look, and the paths a transaction belongs to. -/

namespace Sys2Proof.Machine

/-- Between transactions: no operation is still to run, and no audio block is being filtered (logs 1 and 4). -/
def Quiescent (s : State) : Prop := s.stages = [] ∧ s.pcm = []

/-- The line buffer's data are in their canonical form, and only slots that exist are valid (10_state.md R34). -/
def LineBufferCanonical (v : VideoState) : Prop :=
  v.slotValid.Pairwise (· < ·) ∧ (∀ i ∈ v.slotValid, i < Config.maxPackets) ∧ Sparse.wf 0#15 v.slotLine ∧
    Memory.wf v.slotData

/-- The ranges of the assembler's registers and the four relations between them (10_state.md R35 to R37, R40). -/
def AssemblerConsistent (v : VideoState) : Prop :=
  packetCount v ≤ Config.maxPackets ∧ v.expCount.toNat ≤ 8192 ∧ v.height.toNat ≤ 32771 ∧
  (v.trkValid = false → packetCount v = 0 ∧ v.expCount = 0#16 ∧ v.height = 0#16) ∧
  (v.trkValid = true → 1 ≤ packetCount v) ∧
  (v.expCount = 0#16 ↔ v.height = 0#16) ∧
  (0 < v.expCount.toNat →
    4 * (v.expCount.toNat - 1) + 4 ≤ v.height.toNat ∧ v.height.toNat ≤ 4 * (v.expCount.toNat - 1) + 7)

/-- A packet stands in the slot of its start line (10_state.md R34, 41_frame_assembler.md R181). -/
def SlotLinesInPlace (v : VideoState) : Prop := ∀ i ∈ v.slotValid, (slotLineAt v i).toNat / 4 = i

/-- The filter state of a channel is finite and not -0.0, and the last output is within 32768.5 of the last input, in
units of 2^-1074. It gives the bound of 43_audio.md R265, |y| < 65537, and unlike that bound one step keeps it. -/
def ChannelBounded (ch : DcChannel) : Prop :=
  fFinite ch.dcOut = true ∧ ch.dcOut ≠ 0x8000000000000000#64 ∧
    2 * (fValue ch.dcOut - ch.dcIn.toInt * fOne).natAbs ≤ 65537 * fOne

/-- Both channels of the filter are bounded. -/
def FilterBounded (a : AudioState) : Prop := ChannelBounded a.left ∧ ChannelBounded a.right

/-- The invariant of the core between transactions. -/
def CoreInv (s : State) : Prop :=
  Quiescent s ∧ LineBufferCanonical s.video ∧ AssemblerConsistent s.video ∧ SlotLinesInPlace s.video ∧
    FilterBounded s.audio

/-- Two assembler states that differ at most in what an invalid slot holds (70_reset_and_hazards.md R362). -/
def SameValidSlots (v w : VideoState) : Prop :=
  v.trkValid = w.trkValid ∧ v.trkFrame = w.trkFrame ∧ v.slotValid = w.slotValid ∧ v.expCount = w.expCount ∧
    v.height = w.height ∧
    ∀ i ∈ v.slotValid, slotLineAt v i = slotLineAt w i ∧ ∀ off < 768, slotByte v i off = slotByte w i off

/-- The path whose state a transaction uses (10_state.md R47): neither for the encoders, the palette lookup and a request
that is refused. -/
inductive Path where
  | video
  | audio
  | neither
  deriving DecidableEq, Repr

/-- The path of an instruction (10_state.md R46, R47). -/
def pathOf : Instr → Path
  | .videoDatagram _ => .video
  | .addPacket _ _ _ _ _ => .video
  | .audioDatagram _ => .audio
  | .extractPcm _ => .audio
  | .dcFilter _ _ => .audio
  | .queryStatus => .video
  | .assemble => .video
  | .encodeStart _ _ _ => .neither
  | .encodeStop _ => .neither
  | .resetVideo => .video
  | .resetAudio => .audio
  | .decodeByte _ => .neither
  | .ctlStartVideo _ => .neither
  | .ctlStartAudio _ => .neither
  | .ctlStopVideo => .neither
  | .ctlStopAudio => .neither

/-- The path of a transaction. -/
def pathOfTxn (t : Txn) : Path :=
  match decodeTxn t with
  | .ok i => pathOf i
  | .error _ => .neither

/-- Two transactions that may be swapped (20_memory.md R87). -/
def Independent (t u : Txn) : Prop := pathOfTxn t ≠ pathOfTxn u ∨ pathOfTxn t = .neither

/-- The response channel of an input port (30_encoding.md R100). -/
def responsePort : InPort → OutPort
  | .vin => .vinResponse
  | .ain => .ainResponse
  | .cmd => .cmdResponse

/-- The transfer is a response, not an output. -/
def isResponse (x : Transfer) : Bool :=
  match x.port with
  | .vinResponse => true
  | .ainResponse => true
  | .cmdResponse => true
  | .fout => false
  | .aout => false
  | .cout => false

/-- The filter run over sample pairs in order: the state it leaves and the interleaved output samples (43_audio.md R260,
R264). -/
def filterPairs (a : AudioState) : List (Half × Half) → AudioState × List Half
  | [] => (a, [])
  | (xL, xR) :: rest =>
    let left := dcStep a.left xL
    let right := dcStep a.right xR
    let later := filterPairs ⟨left, right⟩ rest
    (later.1, sampleOf left.dcOut :: sampleOf right.dcOut :: later.2)

/-- Slot `i` covers row `r` of the frame (41_frame_assembler.md R201). -/
def covers (v : VideoState) (i r : Nat) : Bool :=
  decide ((slotLineAt v i).toNat ≤ r) && decide (r < (slotLineAt v i).toNat + 4)

/-- The colour slot `i` gives the pixel in row `r` and column `c` (41_frame_assembler.md R201, R234). -/
def slotPixel (v : VideoState) (i r c : Nat) : Rgb :=
  let b := slotByte v i (192 * (r - (slotLineAt v i).toNat) + c / 2)
  Config.palette (if c % 2 = 0 then lowNibble b else highNibble b)

/-- The operations that write neither the assembler's nor the filter's state (10_state.md R43, R46, 41_frame_assembler.md
R180, R204, 44_control.md R301). -/
def writesNoState : Instr → Bool
  | .videoDatagram _ => true
  | .addPacket _ _ _ _ _ => false
  | .audioDatagram _ => true
  | .extractPcm _ => true
  | .dcFilter _ _ => false
  | .queryStatus => true
  | .assemble => true
  | .encodeStart _ _ _ => true
  | .encodeStop _ => true
  | .resetVideo => false
  | .resetAudio => false
  | .decodeByte _ => true
  | .ctlStartVideo _ => true
  | .ctlStartAudio _ => true
  | .ctlStopVideo => true
  | .ctlStopAudio => true

/-- The largest finite magnitude of binary64, in units of 2^-1074. -/
def fLargest : Nat := fMag 0x7FEFFFFFFFFFFFFF#64

/-- The value of decimal digits in ASCII, most significant first (44_control.md R291). -/
def digitsValue (digits : List Byte) : Nat := digits.foldl (fun acc d => 10 * acc + (d.toNat - 0x30)) 0

/-- The instruction's encoding is read back with every operand: by the decoder itself where the instruction starts a
transaction or is a control command; by the first operations of its transaction where it is a later stage of one
(30_encoding.md R130). -/
def ReadBack (i : Instr) : Prop :=
  match i with
  | .addPacket _ _ _ _ _ => ∃ dg, decode (encode i) = some (.videoDatagram dg) ∧
      ∀ s, exec (.videoDatagram dg) s = .next { s with stages := i :: s.stages }
  | .extractPcm _ => ∃ dg, decode (encode i) = some (.audioDatagram dg) ∧
      ∀ s, exec (.audioDatagram dg) s = .next { s with stages := i :: s.stages }
  | .dcFilter _ _ => ∃ dg payload rest, decode (encode i) = some (.audioDatagram dg) ∧
      (∀ s, exec (.audioDatagram dg) s = .next { s with stages := .extractPcm payload :: s.stages }) ∧
      ∀ s, exec (.extractPcm payload) s = .next { s with stages := i :: rest ++ s.stages, pcm := [] }
  | .videoDatagram _ => decode (encode i) = some i
  | .audioDatagram _ => decode (encode i) = some i
  | .queryStatus => decode (encode i) = some i
  | .assemble => decode (encode i) = some i
  | .encodeStart _ _ _ => decode (encode i) = some i
  | .encodeStop _ => decode (encode i) = some i
  | .resetVideo => decode (encode i) = some i
  | .resetAudio => decode (encode i) = some i
  | .decodeByte _ => decode (encode i) = some i
  | .ctlStartVideo _ => decode (encode i) = some i
  | .ctlStartAudio _ => decode (encode i) = some i
  | .ctlStopVideo => decode (encode i) = some i
  | .ctlStopAudio => decode (encode i) = some i

end Sys2Proof.Machine
end

