-- ==== Sys2Proof/Certificates/Slice0/Obligations.lean ====
section
/-! DEFINITION. The statements about the core that are to be proved, each with the rules of spec/ it formalises. -/

section

open Sys2Proof Sys2Proof.Machine

/-! ### Reset and steps -/

/-- Power-on reset (10_state.md section 5, 70_reset_and_hazards.md section 1): the spec's values. That no transaction is
waiting or in progress is the model's own (logs 2 and 4). -/
def Obligations.ResetHoldsThePowerOnValues : Prop :=
  State.reset.video.trkValid = false ∧ State.reset.video.trkFrame = 0#16 ∧
  (∀ i, slotValidAt State.reset.video i = false) ∧ State.reset.video.expCount = 0#16 ∧
  State.reset.video.height = 0#16 ∧
  State.reset.audio.left.dcIn = 0#16 ∧ State.reset.audio.right.dcIn = 0#16 ∧
  State.reset.audio.left.dcOut = 0#64 ∧ State.reset.audio.right.dcOut = 0#64 ∧
  packetCount State.reset.video = 0 ∧ asmState State.reset.video = .empty ∧ isComplete State.reset.video = false ∧
  State.reset.out = [] ∧ State.reset.arrivals = [] ∧ State.reset.stages = [] ∧ State.reset.pcm = []

/-- The invariant of the core holds at power-on reset. -/
def Obligations.ResetMeetsTheInvariant : Prop := CoreInv State.reset

/-- Every step keeps the invariant (10_state.md R34 to R40, 43_audio.md R265), whatever the environment delivers. -/
def Obligations.EveryStepKeepsTheInvariant : Prop :=
  ∀ s t, CoreInv s → step s = .next t → CoreInv t

/-- A step takes the oldest transaction, runs the instruction it decodes to, and then the stages that instruction hands on,
each in turn and each by `exec`. A request the decoder refuses is answered with its error; with nothing delivered nothing
happens. One step for a whole transaction is the model's choice (log 1). -/
def Obligations.StepRunsTheDecodedInstruction : Prop :=
  (∀ s txn rest i u, s.stages = [] → s.arrivals = txn :: rest → decode (.txn txn) = some i →
    exec i (s.withArrivals rest) = .next u →
    step s = finishStages u ∧ (u.stages = [] → step s = .next u)) ∧
  (∀ s txn rest e, s.stages = [] → s.arrivals = txn :: rest → decodeTxn txn = .error e →
    step s = .next ((s.withArrivals rest).emit .cmdResponse [cmdErrorCode e])) ∧
  (∀ s, s.stages = [] → s.arrivals = [] → step s = .next s) ∧
  (∀ s, s.stages ≠ [] → step s = finishStages s) ∧
  (∀ s i rest u v, s.stages = i :: rest → exec i (s.withStages rest) = .next u → finishStages u = .next v →
    finishStages s = .next v)

/-- Words written out from the encodings of the spec decode to the instructions they stand for. -/
def Obligations.EncodedWordsDecode : Prop :=
  decode (.txn ⟨.cmd, [0x01#8]⟩) = some .queryStatus ∧
  decode (.txn ⟨.cmd, [0x03#8, 0x00#8, 0x0A#8, 0x00#8, 0x00#8, 0x05#8, 0xF8#8, 0x2A#8, 0x00#8, 0x00#8]⟩) =
    some (.encodeStart 0#8 ⟨10#8, 0#8, 0#8, 5#8, 11000#16⟩ 0#16) ∧
  decode (.txn ⟨.cmd, [0x07#8, 0x1A#8]⟩) = some (.decodeByte 0x1A#8) ∧
  decode (.command [0x31#8, 0xFF#8, 0x00#8, 0x00#8]) = some .ctlStopAudio ∧
  ((decodeVideoHeader ([0x00#8, 0x00#8, 0x07#8, 0x00#8, 0x04#8, 0x80#8, 0x80#8, 0x01#8, 0x04#8, 0x04#8, 0x00#8, 0x00#8] ++
      List.replicate 768 0#8)).toOption.map fun h => (h.frame, h.startLine, h.isLast)) = some (7#16, 4#15, true)

/-! ### The packet header parser -/

/-- DECODE_VIDEO_HEADER (40_packet_codec.md R150): the checks in their order, a discard with no state change, and every
field of an accepted datagram. -/
def Obligations.VideoHeaderIsDecoded : Prop :=
  ∀ (dg : List Byte) (s : State),
    (dg.length ≠ 780 → decodeVideoHeader dg = .error .len) ∧
    (dg.length = 780 → u16le dg 6 ≠ 384#16 → decodeVideoHeader dg = .error .ppl) ∧
    (dg.length = 780 → u16le dg 6 = 384#16 → byteAt dg 8 ≠ 4#8 → decodeVideoHeader dg = .error .lpp) ∧
    (dg.length = 780 → u16le dg 6 = 384#16 → byteAt dg 8 = 4#8 → byteAt dg 9 ≠ 4#8 → decodeVideoHeader dg = .error .bpp) ∧
    (∀ r, decodeVideoHeader dg = .error r →
      ∃ response, exec (.videoDatagram dg) s = .next { s with out := s.out ++ [⟨.vinResponse, response⟩] }) ∧
    (dg.length = 780 → u16le dg 6 = 384#16 → byteAt dg 8 = 4#8 → byteAt dg 9 = 4#8 →
      ∃ h, decodeVideoHeader dg = .ok h ∧ h.seq = u16le dg 0 ∧ h.frame = u16le dg 2 ∧
        h.isLast = (u16le dg 4).getLsbD 15 ∧ h.startLine.toNat = (u16le dg 4 &&& 0x7FFF#16).toNat ∧
        h.ppl = 384#16 ∧ h.lpp = 4#8 ∧ h.bpp = 4#8 ∧ h.payload.bytes = dg.drop 12 ∧
        exec (.videoDatagram dg) s =
          .next { s with stages := .addPacket h.frame h.startLine h.lpp h.payload h.isLast :: s.stages })

/-- What a discarded video datagram is answered with: DISCARDED, the code of the first failing check, and the assembler's
state (30_encoding.md section 4, 40_packet_codec.md). -/
def Obligations.VideoDatagramDiscardsAreReported : Prop :=
  ∀ (dg : List Byte) (s : State),
    (dg.length ≠ 780 → exec (.videoDatagram dg) s =
      .next { s with out := s.out ++ [⟨.vinResponse, [1#8, 1#8, asmCode (asmState s.video)]⟩] }) ∧
    (dg.length = 780 → u16le dg 6 ≠ 384#16 → exec (.videoDatagram dg) s =
      .next { s with out := s.out ++ [⟨.vinResponse, [1#8, 2#8, asmCode (asmState s.video)]⟩] }) ∧
    (dg.length = 780 → u16le dg 6 = 384#16 → byteAt dg 8 ≠ 4#8 → exec (.videoDatagram dg) s =
      .next { s with out := s.out ++ [⟨.vinResponse, [1#8, 3#8, asmCode (asmState s.video)]⟩] }) ∧
    (dg.length = 780 → u16le dg 6 = 384#16 → byteAt dg 8 = 4#8 → byteAt dg 9 ≠ 4#8 → exec (.videoDatagram dg) s =
      .next { s with out := s.out ++ [⟨.vinResponse, [1#8, 4#8, asmCode (asmState s.video)]⟩] })

/-- A datagram of 780 bytes is accepted exactly when bytes 6 to 9 are the word 0x04040180 (30_encoding.md section 2). -/
def Obligations.AcceptedExactlyByTheRowsWord : Prop :=
  ∀ dg : List Byte, (∃ h, decodeVideoHeader dg = .ok h) ↔
    dg.length = 780 ∧ byteAt dg 9 ++ byteAt dg 8 ++ byteAt dg 7 ++ byteAt dg 6 = 0x04040180#32

/-- The sequence number, the reserved bytes and the audio header affect no state and no response (30_encoding.md
section 2). -/
def Obligations.IgnoredFieldsHaveNoEffect : Prop :=
  (∀ (a b : List Byte) (s : State), a.length = b.length → (∀ i, 2 ≤ i → i < 10 → byteAt a i = byteAt b i) →
    a.drop 12 = b.drop 12 → transact ⟨.vin, a⟩ s = transact ⟨.vin, b⟩ s) ∧
  (∀ (a b : List Byte) (s : State), a.length = b.length → a.drop 2 = b.drop 2 →
    transact ⟨.ain, a⟩ s = transact ⟨.ain, b⟩ s)

/-- An accepted datagram is the encoding of its own fields, and the encoding of fields that pass the checks gives them
back (40_packet_codec.md, 30_encoding.md sections 2 and 6). -/
def Obligations.VideoHeaderRoundTrip : Prop :=
  (∀ dg h, decodeVideoHeader dg = .ok h → encodeVideoHeader h (u16le dg 10) = dg) ∧
  (∀ h reserved, h.ppl = 384#16 → h.lpp = 4#8 → h.bpp = 4#8 →
    decodeVideoHeader (encodeVideoHeader h reserved) = .ok h ∧ (encodeVideoHeader h reserved).length = 780)

/-- DECODE_AUDIO_HEADER (40_packet_codec.md R160). -/
def Obligations.AudioHeaderIsDecoded : Prop :=
  ∀ (dg : List Byte) (s : State),
    (dg.length ≠ 770 → decodeAudioHeader dg = .error .len ∧
      ∃ response, exec (.audioDatagram dg) s = .next { s with out := s.out ++ [⟨.ainResponse, response⟩] }) ∧
    (dg.length = 770 → ∃ payload, decodeAudioHeader dg = .ok payload ∧ payload.bytes = dg.drop 2 ∧
      exec (.audioDatagram dg) s = .next { s with stages := .extractPcm payload :: s.stages })

/-- 16-bit fields are little-endian, read and written, and the last-packet flag is bit 7 of byte 5 (20_memory.md
section 1). -/
def Obligations.FieldsAreLittleEndian : Prop :=
  (∀ (b : List Byte) (i : Nat), (u16le b i).toNat = (byteAt b i).toNat + 256 * (byteAt b (i + 1)).toNat) ∧
  (∀ v : Half, le16 v = [BitVec.ofNat 8 (v.toNat % 256), BitVec.ofNat 8 (v.toNat / 256)]) ∧
  (∀ dg h, decodeVideoHeader dg = .ok h → h.isLast = (byteAt dg 5).getLsbD 7)

/-! ### The frame reassembler -/

/-- ADD_PACKET (41_frame_assembler.md R185), for every number of packet slots: a packet beyond them changes nothing; any
other is stored whole in its slot, after a frame switch has cleared every other slot, the expected count and the height; a
last packet sets those two. The clauses on lines and bytes also say that the slots a frame switch invalidates keep their
contents, which is the model's reading and no rule's (log 6, DEDUCED). -/
def Obligations.AddPacketStoresThePacket : Prop :=
  ∀ (capacity : Nat) (v : VideoState) (frame : Half) (line : BitVec 15) (payload : Bytes 768) (isLast : Bool),
    (capacity ≤ line.toNat / 4 → addPacketTo capacity v frame line 4#8 payload isLast = .error .capacity) ∧
    (line.toNat / 4 < capacity → ∃ w, addPacketTo capacity v frame line 4#8 payload isLast = .ok w ∧
      w.trkValid = true ∧ w.trkFrame = frame ∧
      (∀ i, slotValidAt w i = true ↔
        i = line.toNat / 4 ∨ (v.trkValid = true ∧ frame = v.trkFrame ∧ slotValidAt v i = true)) ∧
      (∀ i, slotLineAt w i = if i = line.toNat / 4 then line else slotLineAt v i) ∧
      (∀ i off, off < 768 →
        slotByte w i off = if i = line.toNat / 4 then byteAt payload.bytes off else slotByte v i off) ∧
      w.expCount.toNat = (if isLast then line.toNat / 4 + 1
        else if v.trkValid = true ∧ frame = v.trkFrame then v.expCount.toNat else 0) ∧
      w.height.toNat = (if isLast then line.toNat + 4
        else if v.trkValid = true ∧ frame = v.trkFrame then v.height.toNat else 0))

/-- With the default capacity no packet of an accepted datagram is turned away: ADD_PACKET writes the assembler's state and
answers ACCEPTED with the assembler's state after the write (41_frame_assembler.md sections 1 and 2, 40_packet_codec.md). -/
def Obligations.AddPacketCompletes : Prop :=
  ∀ (s : State) (frame : Half) (line : BitVec 15) (payload : Bytes 768) (isLast : Bool),
    ∃ w, addPacketTo 8192 s.video frame line 4#8 payload isLast = .ok w ∧
      exec (.addPacket frame line 4#8 payload isLast) s =
        .next { s with video := w, out := s.out ++ [⟨.vinResponse, [0#8, 0#8, asmCode (asmState w)]⟩] }

/-- ADD_PACKET changes no byte of the line buffer outside the 768 bytes of its slot, no other slot's line, and nothing
outside the assembler but its own response. That this holds across a frame switch too is the model's reading (log 6). -/
def Obligations.AddPacketFrame : Prop :=
  ∀ (s t : State) (frame : Half) (line : BitVec 15) (lpp : Byte) (payload : Bytes 768) (isLast : Bool),
    exec (.addPacket frame line lpp payload isLast) s = .next t →
      (∀ a, a < slotAddr (packetIndex line lpp) 0 ∨ slotAddr (packetIndex line lpp) 0 + 768 ≤ a →
        Memory.read t.video.slotData a = Memory.read s.video.slotData a) ∧
      (∀ i, i ≠ packetIndex line lpp → slotLineAt t.video i = slotLineAt s.video i) ∧
      (isLast = false → isFrameSwitch s.video frame = false →
        t.video.expCount = s.video.expCount ∧ t.video.height = s.video.height) ∧
      t.audio = s.audio ∧ t.arrivals = s.arrivals ∧ t.stages = s.stages ∧ t.pcm = s.pcm ∧
      ∃ response, t.out = s.out ++ [⟨.vinResponse, response⟩]

/-- Duplicates are last-write-wins (41_frame_assembler.md R186): a second packet with a stored index replaces the slot's
line and data and leaves the count; one that is identical to the packet just added changes nothing. -/
def Obligations.DuplicatesAreLastWriteWins : Prop :=
  (∀ (capacity : Nat) (v w : VideoState) (line : BitVec 15) (payload : Bytes 768) (isLast : Bool),
    v.slotValid.Pairwise (· < ·) → v.trkValid = true → slotValidAt v (packetIndex line 4#8) = true →
    addPacketTo capacity v v.trkFrame line 4#8 payload isLast = .ok w →
      packetCount w = packetCount v ∧ slotLineAt w (packetIndex line 4#8) = line ∧
      (∀ off < 768, slotByte w (packetIndex line 4#8) off = byteAt payload.bytes off)) ∧
  (∀ (capacity : Nat) (v w : VideoState) (frame : Half) (line : BitVec 15) (lpp : Byte) (payload : Bytes 768) (isLast : Bool),
    addPacketTo capacity v frame line lpp payload isLast = .ok w →
      addPacketTo capacity w frame line lpp payload isLast = .ok w)

/-- A datagram delivered twice in a row leaves the video state it leaves once (41_frame_assembler.md section 2). -/
def Obligations.DeliveredTwiceIsDeliveredOnce : Prop :=
  ∀ (s t u : State) (dg : List Byte), s.stages = [] → transact ⟨.vin, dg⟩ s = .next t → transact ⟨.vin, dg⟩ t = .next u →
    u.video = t.video ∧ u.audio = t.audio ∧ u.stages = []

/-- A packet with another frame number, or the first packet, discards everything stored: only its own slot is valid after
it (41_frame_assembler.md section 2). -/
def Obligations.FrameSwitchDiscardsTheOldFrame : Prop :=
  ∀ (capacity : Nat) (v w : VideoState) (frame : Half) (line : BitVec 15) (payload : Bytes 768) (isLast : Bool),
    v.trkValid = false ∨ frame ≠ v.trkFrame → addPacketTo capacity v frame line 4#8 payload isLast = .ok w →
      packetCount w = 1 ∧ (∀ i, slotValidAt w i = true ↔ i = line.toNat / 4) ∧ w.trkFrame = frame ∧
      (isLast = false → w.expCount = 0#16 ∧ w.height = 0#16 ∧ asmState w = .accumulating) ∧
      (isLast = true → (asmState w = .complete ↔ line.toNat / 4 = 0))

/-- The tracked frame stays, with every packet stored, unless a packet of another frame number or RESET_VIDEO is taken
(41_frame_assembler.md R190); no step without a transaction changes anything. -/
def Obligations.TrackedFrameStaysUntilASwitchOrReset : Prop :=
  (∀ s t, s.stages = [] → s.video.trkValid = true → step s = .next t →
    (t.video.trkValid = true ∧ t.video.trkFrame = s.video.trkFrame ∧
      ∀ i, slotValidAt s.video i = true → slotValidAt t.video i = true) ∨
    (∃ rest, s.arrivals = ⟨.cmd, [5#8]⟩ :: rest) ∨
    (∃ dg rest h, s.arrivals = ⟨.vin, dg⟩ :: rest ∧ decodeVideoHeader dg = .ok h ∧ h.frame ≠ s.video.trkFrame)) ∧
  (∀ s, s.stages = [] → s.arrivals = [] → step s = .next s)

/-- The count is the number of valid slots (10_state.md R37), whichever they are; the completion predicate compares it with
the expected count (41_frame_assembler.md section 3), so that a frame can be complete while its first slot is empty. -/
def Obligations.CountAndCompletion : Prop :=
  (∀ v : VideoState, v.slotValid.Pairwise (· < ·) → (∀ i ∈ v.slotValid, i < Config.maxPackets) →
    packetCount v = ((List.range Config.maxPackets).countP fun i => slotValidAt v i) ∧
    packetCount v ≤ Config.maxPackets ∧
    (isComplete v = true ↔ v.trkValid = true ∧ 0 < v.expCount.toNat ∧
      v.expCount.toNat ≤ (List.range Config.maxPackets).countP fun i => slotValidAt v i)) ∧
  (∃ v : VideoState, LineBufferCanonical v ∧ AssemblerConsistent v ∧ SlotLinesInPlace v ∧ isComplete v = true ∧
    v.expCount = 1#16 ∧ slotValidAt v 0 = false)

/-- The assembler's state as the registers give it, and the reported code, never 3 (10_state.md section 2). -/
def Obligations.AssemblerStateIsDerived : Prop :=
  ∀ v : VideoState,
    (asmState v = .empty ↔ v.trkValid = false) ∧ (asmState v = .complete ↔ isComplete v = true) ∧
    (asmState v = .accumulating ↔ v.trkValid = true ∧ isComplete v = false) ∧
    asmCode .empty = 0#8 ∧ asmCode .accumulating = 1#8 ∧ asmCode .complete = 2#8

/-- Complete is not absorbing: a last packet of the same frame, with an index above the number of packets stored, takes the
frame back to Accumulating (10_state.md section 2, 70_reset_and_hazards.md section 3). -/
def Obligations.CompleteCanRevert : Prop :=
  ∀ (capacity : Nat) (v w : VideoState) (line : BitVec 15) (payload : Bytes 768),
    v.trkValid = true → packetCount v < line.toNat / 4 →
    addPacketTo capacity v v.trkFrame line 4#8 payload true = .ok w → asmState w = .accumulating

/-- QUERY_STATUS answers with the status record and changes nothing (41_frame_assembler.md section 3, 10_state.md
section 4). -/
def Obligations.QueryStatusReportsTheRecord : Prop :=
  ∀ s : State, exec .queryStatus s = .next { s with out := s.out ++ [⟨.cmdResponse,
    [0#8, asmCode (asmState s.video),
      BitVec.ofNat 8 ((if s.video.trkValid then 1 else 0) + (if isComplete s.video then 2 else 0))] ++
    le16 s.video.trkFrame ++ le16 s.video.expCount ++ le16 s.video.height ++
    le16 (BitVec.ofNat 16 s.video.slotValid.length) ++
    [if s.video.height = 0#16 then 3#8 else fmtTag s.video.height.toNat]⟩] }

/-- ASSEMBLE with no complete frame (60_exceptions.md R324). -/
def Obligations.AssembleAnswersNone : Prop :=
  ∀ s : State, isComplete s.video = false →
    exec .assemble s = .next { s with out := s.out ++ [⟨.cmdResponse, [1#8]⟩] }

/-- ASSEMBLE of a complete frame (41_frame_assembler.md section 4, 30_encoding.md section 4): the response, then a frame of
384 columns and `height` rows whose every pixel comes from the highest valid slot that covers its row, and is (0, 0, 0)
where none does. The state does not change. That the response stands before the frame in the one ordered list is the model's
reading (log 3). -/
def Obligations.AssembleDrawsEveryPixel : Prop :=
  ∀ s : State, isComplete s.video = true → LineBufferCanonical s.video →
    ∃ pixels, exec .assemble s = .next { s with out := s.out ++
        [⟨.cmdResponse, [0#8] ++ le16 s.video.height ++ [fmtTag s.video.height.toNat]⟩,
         ⟨.fout, le16 s.video.height ++ [fmtTag s.video.height.toNat] ++ pixels⟩] } ∧
      pixels.length = 3 * 384 * s.video.height.toNat ∧
      ∀ r < s.video.height.toNat, ∀ c < 384,
        ((∀ i, slotValidAt s.video i = true → covers s.video i r = false) →
          ∀ k < 3, byteAt pixels (3 * (384 * r + c) + k) = 0#8) ∧
        (∀ i, slotValidAt s.video i = true → covers s.video i r = true →
          (∀ j, slotValidAt s.video j = true → i < j → covers s.video j r = false) →
          byteAt pixels (3 * (384 * r + c)) = (slotPixel s.video i r c).r ∧
          byteAt pixels (3 * (384 * r + c) + 1) = (slotPixel s.video i r c).g ∧
          byteAt pixels (3 * (384 * r + c) + 2) = (slotPixel s.video i r c).b)

/-- RESET_VIDEO (41_frame_assembler.md section 5): the power-on values, the audio state as it was. That the slots keep their
bytes is the model's reading (log 6). -/
def Obligations.ResetVideoRestoresThePowerOnValues : Prop :=
  ∀ s : State, ∃ v : VideoState,
    exec .resetVideo s = .next { s with video := v, out := s.out ++ [⟨.cmdResponse, [0#8]⟩] } ∧
    v.trkValid = false ∧ v.trkFrame = 0#16 ∧ v.expCount = 0#16 ∧ v.height = 0#16 ∧ (∀ i, slotValidAt v i = false) ∧
    (∀ a, Memory.read v.slotData a = Memory.read s.video.slotData a) ∧ asmState v = .empty ∧
    (∀ frame, isFrameSwitch v frame = true)

/-- The format tag names the two standard heights, whatever the second one is (41_frame_assembler.md section 4); the status
record says 3 exactly when there is no height. -/
def Obligations.FormatTagNamesTheHeights : Prop :=
  4 ≤ Config.stdBHeight ∧ Config.stdBHeight ≤ 32771 ∧ Config.stdBHeight ≠ 272 ∧
  fmtTag 272 = 0#8 ∧ fmtTag Config.stdBHeight = 1#8 ∧
  (∀ h, h ≠ 272 → h ≠ Config.stdBHeight → fmtTag h = 2#8) ∧
  (∀ v : VideoState, formatField v = 3#8 ↔ v.height = 0#16)

/-! ### The palette lookup decoder -/

/-- DECODE_BYTE (42_pixel_decoder.md R232), in its CMD form too, with the error for a wrong length. -/
def Obligations.DecodeByteLooksUpBothNibbles : Prop :=
  (∀ (b : Byte) (s : State), ∃ lo hi : BitVec 4, lo.toNat = b.toNat % 16 ∧ hi.toNat = b.toNat / 16 ∧
    decodePixels b = (Config.palette lo, Config.palette hi) ∧
    exec (.decodeByte b) s = .next { s with out := s.out ++ [⟨.cmdResponse,
      [0#8, (Config.palette lo).r, (Config.palette lo).g, (Config.palette lo).b,
        (Config.palette hi).r, (Config.palette hi).g, (Config.palette hi).b]⟩] }) ∧
  (∀ (rest : List Byte) (s : State), rest.length ≠ 1 →
    transact ⟨.cmd, 7#8 :: rest⟩ s = .next { s with out := s.out ++ [⟨.cmdResponse, [0x81#8]⟩] })

/-! ### The audio path -/

/-- EXTRACT_PCM (43_audio.md R250): sample k is the signed 16-bit little-endian value at offset 2 + 2k of the datagram, left
and right in turn; the 192 pairs go to DC_FILTER in order (40_packet_codec.md R161). The fields `stages` and `pcm`, and that a
block begins with an empty `pcm`, are the model's own (log 4, DESIGN CHOICE). -/
def Obligations.ExtractedSamples : Prop :=
  ∀ (dg : List Byte) (payload : Bytes 768) (s : State), decodeAudioHeader dg = .ok payload →
    ∃ stages : List Instr, exec (.extractPcm payload) s = .next { s with stages := stages ++ s.stages, pcm := [] } ∧
      stages.length = 192 ∧
      ∀ p < 192, ∃ xL xR : Half, stages[p]? = some (.dcFilter xL xR) ∧
        xL.toInt = ((byteAt dg (2 + 4 * p)).toNat + 256 * (byteAt dg (3 + 4 * p)).toNat : Int) -
          (if 128 ≤ (byteAt dg (3 + 4 * p)).toNat then 65536 else 0) ∧
        xR.toInt = ((byteAt dg (4 + 4 * p)).toNat + 256 * (byteAt dg (5 + 4 * p)).toNat : Int) -
          (if 128 ≤ (byteAt dg (5 + 4 * p)).toNat then 65536 else 0)

/-- DC_FILTER on one pair (43_audio.md R260): the difference exact, one product, one sum; the raw input and the unrounded
output kept; the output sample the nearest integer, clamped. Under the bound that every run keeps, both outputs are finite.
The output samples join the block, which leaves on AOUT when it is full (the field `pcm` is the model's own, log 4, DESIGN
CHOICE). Binary64, ALPHA's bits, the order of evaluation and ties to even are the spec's own decisions (R261 to R263,
92_eei_decisions.md D13 to D15); the format is IEEE 754's (log 14); the bound is the model's inference (log 17, DEDUCED), and so
is the place of the response before the AOUT block in the one ordered list (log 3, DEDUCED). -/
def Obligations.DcFilterStep : Prop :=
  ∀ (s : State) (xL xR : Half), ∃ (t : State) (yL yR : F64),
    exec (.dcFilter xL xR) s = .next t ∧
    yL = fAdd (fOfInt (xL.toInt - s.audio.left.dcIn.toInt)) (fMul 0x3FEFD70A3D70A3D7#64 s.audio.left.dcOut) ∧
    yR = fAdd (fOfInt (xR.toInt - s.audio.right.dcIn.toInt)) (fMul 0x3FEFD70A3D70A3D7#64 s.audio.right.dcOut) ∧
    t.audio.left.dcIn = xL ∧ t.audio.left.dcOut = yL ∧ t.audio.right.dcIn = xR ∧ t.audio.right.dcOut = yR ∧
    (xL.toInt - s.audio.left.dcIn.toInt).natAbs ≤ 65535 ∧ (xR.toInt - s.audio.right.dcIn.toInt).natAbs ≤ 65535 ∧
    (s.pcm.length ≠ 382 → t.pcm = s.pcm ++ [sampleOf yL, sampleOf yR]) ∧
    (s.pcm.length = 382 → ∃ response,
      t.out = s.out ++ [response, ⟨.aout, (s.pcm ++ [sampleOf yL, sampleOf yR]).flatMap le16⟩]) ∧
    (FilterBounded s.audio → fFinite yL = true ∧ fFinite yR = true ∧
      (sampleOf yL).toInt = max (-32768) (min 32767 (rneInt yL)) ∧
      (sampleOf yR).toInt = max (-32768) (min 32767 (rneInt yR)))

/-- What DC_FILTER leaves, whole: it adds two samples to the block, and after the last pair the AIN response and the AOUT
block leave (40_packet_codec.md, 30_encoding.md section 4; the field `pcm` is the model's own, log 4; the response before the
block in the one ordered list is its reading, log 3). -/
def Obligations.DcFilterCompletes : Prop :=
  ∀ (s : State) (xL xR : Half),
    (s.pcm.length ≠ 382 → exec (.dcFilter xL xR) s = .next { s with
      audio := ⟨dcStep s.audio.left xL, dcStep s.audio.right xR⟩
      pcm := s.pcm ++ [sampleOf (dcStep s.audio.left xL).dcOut, sampleOf (dcStep s.audio.right xR).dcOut] }) ∧
    (s.pcm.length = 382 → exec (.dcFilter xL xR) s = .next { s with
      audio := ⟨dcStep s.audio.left xL, dcStep s.audio.right xR⟩
      pcm := []
      out := s.out ++ [⟨.ainResponse, [0#8, 0#8]⟩, ⟨.aout,
        (s.pcm ++ [sampleOf (dcStep s.audio.left xL).dcOut, sampleOf (dcStep s.audio.right xR).dcOut]).flatMap le16⟩] })

/-- The first sample after a reset of the filter passes through unchanged (43_audio.md section 2). -/
def Obligations.FirstSamplePassesThrough : Prop :=
  ∀ x : Half, fFinite (dcStep DcChannel.reset x).dcOut = true ∧
    fValue (dcStep DcChannel.reset x).dcOut = x.toInt * fOne ∧ sampleOf (dcStep DcChannel.reset x).dcOut = x

/-- Binary64 addition is correctly rounded (00_scope.md section 5; the format is IEEE 754's, log 14): where the exact sum is
within the format's range, no finite number is nearer to it, and of two that are as near the one with an even significand is
taken; the sign is the exact sum's. -/
def Obligations.AdditionRoundsToNearest : Prop :=
  ∀ a b : F64, fFinite a = true → fFinite b = true → (fValue a + fValue b).natAbs ≤ fLargest →
    fFinite (fAdd a b) = true ∧
    (∀ z : F64, fFinite z = true →
      (fValue (fAdd a b) - (fValue a + fValue b)).natAbs ≤ (fValue z - (fValue a + fValue b)).natAbs ∧
      ((fValue (fAdd a b) - (fValue a + fValue b)).natAbs = (fValue z - (fValue a + fValue b)).natAbs →
        fValue z ≠ fValue (fAdd a b) → (fAdd a b).getLsbD 0 = false)) ∧
    (fValue a + fValue b ≠ 0 → fSign (fAdd a b) = decide (fValue a + fValue b < 0)) ∧
    (fValue a + fValue b = 0 → fSign (fAdd a b) = (fSign a && fSign b))

/-- Binary64 multiplication is correctly rounded, in the same sense (00_scope.md section 5; log 14). -/
def Obligations.MultiplicationRoundsToNearest : Prop :=
  ∀ a b : F64, fFinite a = true → fFinite b = true → fMag a * fMag b ≤ fLargest * fOne →
    fFinite (fMul a b) = true ∧
    (∀ z : F64, fFinite z = true →
      (fValue (fMul a b) * fOne - fValue a * fValue b).natAbs ≤ (fValue z * fOne - fValue a * fValue b).natAbs ∧
      ((fValue (fMul a b) * fOne - fValue a * fValue b).natAbs = (fValue z * fOne - fValue a * fValue b).natAbs →
        fValue z ≠ fValue (fMul a b) → (fMul a b).getLsbD 0 = false)) ∧
    fSign (fMul a b) = (fSign a != fSign b)

/-- The output sample is the integer nearest to the filtered value, the even one of two as near, clamped to 16 bits
(00_scope.md section 5, 43_audio.md section 2). -/
def Obligations.OutputSampleIsTheNearestInteger : Prop :=
  ∀ y : F64, fFinite y = true → ∃ n : Int,
    (∀ m : Int, (n * fOne - fValue y).natAbs ≤ (m * fOne - fValue y).natAbs ∧
      ((n * fOne - fValue y).natAbs = (m * fOne - fValue y).natAbs → m ≠ n → n % 2 = 0)) ∧
    (sampleOf y).toInt = (if n < -32768 then -32768 else if 32767 < n then 32767 else n)

/-- Every step keeps the filter bounded, so |y| < 65537 and y is finite and never -0.0 (43_audio.md section 2). The bound that
one step keeps, within 32768.5 of the last input, is the model's own inference (log 17). -/
def Obligations.FilterStaysBounded : Prop :=
  ∀ s t, FilterBounded s.audio → step s = .next t → FilterBounded t.audio ∧
    fFinite t.audio.left.dcOut = true ∧ fMag t.audio.left.dcOut < 65537 * fOne ∧
    t.audio.left.dcOut ≠ 0x8000000000000000#64 ∧
    fFinite t.audio.right.dcOut = true ∧ fMag t.audio.right.dcOut < 65537 * fOne ∧
    t.audio.right.dcOut ≠ 0x8000000000000000#64

/-- Under an input that stays equal to the last one the output only shrinks, keeps its sign, and from 99 units of 2^-1074 on
never falls below 99 units; there it stays (43_audio.md section 2). -/
def Obligations.SilentInputNeverReachesZero : Prop :=
  (∀ (x : Half) (y : F64), fFinite y = true → 99 ≤ fMag y →
    99 ≤ fMag (dcStep ⟨x, y⟩ x).dcOut ∧ fMag (dcStep ⟨x, y⟩ x).dcOut ≤ fMag y ∧
    fSign (dcStep ⟨x, y⟩ x).dcOut = fSign y ∧ fFinite (dcStep ⟨x, y⟩ x).dcOut = true) ∧
  (∀ x : Half, dcStep ⟨x, 99#64⟩ x = ⟨x, 99#64⟩ ∧
    dcStep ⟨x, 0x8000000000000063#64⟩ x = ⟨x, 0x8000000000000063#64⟩)

/-- The channels are independent (43_audio.md R267): what a pair, or a block of pairs in order, does to one channel depends
on that channel's state and samples alone. -/
def Obligations.ChannelsAreIndependent : Prop :=
  (∀ (s u t w : State) (xL xR yL yR : Half), exec (.dcFilter xL xR) s = .next t → exec (.dcFilter yL yR) u = .next w →
    (s.audio.left = u.audio.left → xL = yL → t.audio.left = w.audio.left) ∧
    (s.audio.right = u.audio.right → xR = yR → t.audio.right = w.audio.right)) ∧
  (∀ (a b : AudioState) (p q : List (Half × Half)),
    (a.left = b.left → p.map (·.1) = q.map (·.1) →
      (filterPairs a p).1.left = (filterPairs b q).1.left ∧
      ∀ k, (filterPairs a p).2[2 * k]? = (filterPairs b q).2[2 * k]?) ∧
    (a.right = b.right → p.map (·.2) = q.map (·.2) →
      (filterPairs a p).1.right = (filterPairs b q).1.right ∧
      ∀ k, (filterPairs a p).2[2 * k + 1]? = (filterPairs b q).2[2 * k + 1]?))

/-- An AIN transaction filters the 192 pairs of its datagram in order, each from the state the one before it left, and sends
the response and one AOUT block of the same 384 samples, filtered, little-endian (40_packet_codec.md, 30_encoding.md
section 4, 43_audio.md). That the response stands before the block in the one ordered list is the model's reading (log 3). -/
def Obligations.AudioTransactionFiltersTheBlock : Prop :=
  ∀ (s : State) (dg : List Byte), s.stages = [] → dg.length = 770 →
    ∃ (a : Nat → AudioState) (block : List Byte),
      transact ⟨.ain, dg⟩ s = .next { s with
        audio := a 192
        pcm := []
        out := s.out ++ [⟨.ainResponse, [0#8, 0#8]⟩, ⟨.aout, block⟩] } ∧
      a 0 = s.audio ∧
      (∀ p < 192, a (p + 1) =
        ⟨dcStep (a p).left (u16le dg (2 + 4 * p)), dcStep (a p).right (u16le dg (4 + 4 * p))⟩) ∧
      block.length = 768 ∧
      (∀ p < 192, u16le block (4 * p) = sampleOf (a (p + 1)).left.dcOut ∧
        u16le block (4 * p + 2) = sampleOf (a (p + 1)).right.dcOut)

/-- The filter state persists across packet boundaries (43_audio.md R264): two accepted blocks in a row are filtered as one
sequence of pairs, with 384 outputs each; a discarded datagram neither reads nor writes the state. The response bytes are those
of 30_encoding.md R123, and their place before AOUT in the one ordered list is the model's reading (log 3). -/
def Obligations.FilterStateCrossesBlocks : Prop :=
  (∀ (s t u : State) (d e : List Byte), s.stages = [] → d.length = 770 → e.length = 770 →
    transact ⟨.ain, d⟩ s = .next t → transact ⟨.ain, e⟩ t = .next u →
    ∃ first second : List Half, first.length = 384 ∧ second.length = 384 ∧
      filterPairs s.audio (stereoPairs (leWords (d.drop 2)) ++ stereoPairs (leWords (e.drop 2))) =
        (u.audio, first ++ second) ∧
      u.out = s.out ++ [⟨.ainResponse, [0#8, 0#8]⟩, ⟨.aout, first.flatMap le16⟩,
        ⟨.ainResponse, [0#8, 0#8]⟩, ⟨.aout, second.flatMap le16⟩]) ∧
  (∀ (s : State) (dg : List Byte), s.stages = [] → dg.length ≠ 770 →
    ∃ t : State, ∀ a, transact ⟨.ain, dg⟩ (s.withAudio a) = .next (t.withAudio a))

/-- RESET_AUDIO (43_audio.md section 3): the power-on values of both channels, the video state as it was. -/
def Obligations.ResetAudioRestoresThePowerOnValues : Prop :=
  ∀ s : State, exec .resetAudio s = .next { s with
    audio := ⟨⟨0#16, 0#64⟩, ⟨0#16, 0#64⟩⟩
    out := s.out ++ [⟨.cmdResponse, [0#8]⟩] }

/-! ### Command requests and the control protocol encoder -/

/-- A refused request changes no state, sends no data and is reported with the first error that applies (30_encoding.md
section 3, 60_exceptions.md section 1). -/
def Obligations.RefusedRequestsChangeNothing : Prop :=
  ∀ (s : State) (b : List Byte), s.stages = [] →
    (b = [] ∨ (byteAt b 0).toNat = 0 ∨ 7 < (byteAt b 0).toNat →
      transact ⟨.cmd, b⟩ s = .next { s with out := s.out ++ [⟨.cmdResponse, [0x80#8]⟩] }) ∧
    (b ≠ [] → (byteAt b 0).toNat ∈ [1, 2, 5, 6] → b.length ≠ 1 →
      transact ⟨.cmd, b⟩ s = .next { s with out := s.out ++ [⟨.cmdResponse, [0x81#8]⟩] }) ∧
    (b ≠ [] → (byteAt b 0).toNat = 3 → b.length ≠ 10 →
      transact ⟨.cmd, b⟩ s = .next { s with out := s.out ++ [⟨.cmdResponse, [0x81#8]⟩] }) ∧
    (b ≠ [] → (byteAt b 0).toNat ∈ [4, 7] → b.length ≠ 2 →
      transact ⟨.cmd, b⟩ s = .next { s with out := s.out ++ [⟨.cmdResponse, [0x81#8]⟩] }) ∧
    ((byteAt b 0).toNat = 3 → b.length = 10 → 1 < (byteAt b 1).toNat →
      transact ⟨.cmd, b⟩ s = .next { s with out := s.out ++ [⟨.cmdResponse, [0x82#8]⟩] }) ∧
    ((byteAt b 0).toNat = 4 → b.length = 2 → 1 < (byteAt b 1).toNat →
      transact ⟨.cmd, b⟩ s = .next { s with out := s.out ++ [⟨.cmdResponse, [0x82#8]⟩] })

/-- What ENCODE_START and ENCODE_STOP do as instructions: the response with the command's length, and the command handed to
the stage that sends it; a stream id other than 0 and 1 is refused (44_control.md; the stage is the model's reading, log 11). -/
def Obligations.EncodersComplete : Prop :=
  ∀ (s : State) (ep : Endpoint) (duration : Half),
    exec (.encodeStart 0#8 ep duration) s = .next { s with
      stages := .ctlStartVideo (le16 duration ++ endpointText ep) :: s.stages
      out := s.out ++ [⟨.cmdResponse, 0#8 :: le16 (BitVec.ofNat 16 (6 + (endpointText ep).length))⟩] } ∧
    exec (.encodeStart 1#8 ep duration) s = .next { s with
      stages := .ctlStartAudio (le16 duration ++ endpointText ep) :: s.stages
      out := s.out ++ [⟨.cmdResponse, 0#8 :: le16 (BitVec.ofNat 16 (6 + (endpointText ep).length))⟩] } ∧
    exec (.encodeStop 0#8) s = .next { s with
      stages := .ctlStopVideo :: s.stages
      out := s.out ++ [⟨.cmdResponse, [0#8, 4#8, 0#8]⟩] } ∧
    exec (.encodeStop 1#8) s = .next { s with
      stages := .ctlStopAudio :: s.stages
      out := s.out ++ [⟨.cmdResponse, [0#8, 4#8, 0#8]⟩] } ∧
    (∀ id : Byte, 1 < id.toNat →
      exec (.encodeStart id ep duration) s = .next { s with out := s.out ++ [⟨.cmdResponse, [0x82#8]⟩] } ∧
      exec (.encodeStop id) s = .next { s with out := s.out ++ [⟨.cmdResponse, [0x82#8]⟩] })

/-- The four control commands leave on COUT with their exact bytes and change nothing else (30_encoding.md sections 2 and
4). -/
def Obligations.ControlCommandsLeaveOnCout : Prop :=
  ∀ (s : State) (params : List Byte),
    exec (.ctlStartVideo params) s = .next { s with out := s.out ++
      [⟨.cout, [0x20#8, 0xFF#8] ++ le16 (BitVec.ofNat 16 params.length) ++ params⟩] } ∧
    exec (.ctlStartAudio params) s = .next { s with out := s.out ++
      [⟨.cout, [0x21#8, 0xFF#8] ++ le16 (BitVec.ofNat 16 params.length) ++ params⟩] } ∧
    exec .ctlStopVideo s = .next { s with out := s.out ++ [⟨.cout, [0x30#8, 0xFF#8, 0x00#8, 0x00#8]⟩] } ∧
    exec .ctlStopAudio s = .next { s with out := s.out ++ [⟨.cout, [0x31#8, 0xFF#8, 0x00#8, 0x00#8]⟩] }

/-- ENCODE_START from the request's bytes to the command's (44_control.md R295). -/
def Obligations.StartRequestSendsTheStartCommand : Prop :=
  ∀ (s : State) (id a b c d portLo portHi durLo durHi : Byte), s.stages = [] →
    (id.toNat ≤ 1 →
      11 ≤ 2 + (endpointText ⟨a, b, c, d, portHi ++ portLo⟩).length ∧
      2 + (endpointText ⟨a, b, c, d, portHi ++ portLo⟩).length ≤ 23 ∧
      transact ⟨.cmd, [3#8, id, a, b, c, d, portLo, portHi, durLo, durHi]⟩ s = .next { s with out := s.out ++
        [⟨.cmdResponse, [0#8] ++ le16 (BitVec.ofNat 16 (6 + (endpointText ⟨a, b, c, d, portHi ++ portLo⟩).length))⟩,
         ⟨.cout, [0x20#8 + id, 0xFF#8] ++
            le16 (BitVec.ofNat 16 (2 + (endpointText ⟨a, b, c, d, portHi ++ portLo⟩).length)) ++
            [durLo, durHi] ++ endpointText ⟨a, b, c, d, portHi ++ portLo⟩⟩] }) ∧
    (1 < id.toNat → transact ⟨.cmd, [3#8, id, a, b, c, d, portLo, portHi, durLo, durHi]⟩ s =
      .next { s with out := s.out ++ [⟨.cmdResponse, [0x82#8]⟩] }) ∧
    (∀ rest : List Byte, rest.length ≠ 9 → transact ⟨.cmd, 3#8 :: rest⟩ s =
      .next { s with out := s.out ++ [⟨.cmdResponse, [0x81#8]⟩] })

/-- ENCODE_STOP from the request's bytes to the command's (44_control.md R300). -/
def Obligations.StopRequestSendsTheStopCommand : Prop :=
  ∀ (s : State) (id : Byte), s.stages = [] →
    (id.toNat ≤ 1 → transact ⟨.cmd, [4#8, id]⟩ s = .next { s with out := s.out ++
      [⟨.cmdResponse, [0#8, 4#8, 0#8]⟩, ⟨.cout, [0x30#8 + id, 0xFF#8, 0x00#8, 0x00#8]⟩] }) ∧
    (1 < id.toNat → transact ⟨.cmd, [4#8, id]⟩ s =
      .next { s with out := s.out ++ [⟨.cmdResponse, [0x82#8]⟩] }) ∧
    (∀ rest : List Byte, rest.length ≠ 1 → transact ⟨.cmd, 4#8 :: rest⟩ s =
      .next { s with out := s.out ++ [⟨.cmdResponse, [0x81#8]⟩] })

/-- The numbers in a start command's text are decimal: digits only, no leading zero, the number's value (44_control.md,
rule on the text). -/
def Obligations.NumbersAreWrittenInDecimal : Prop :=
  dec 0 = [0x30#8] ∧
  ∀ n : Nat, n < 65536 → digitsValue (dec n) = n ∧ (∀ d ∈ dec n, 0x30 ≤ d.toNat ∧ d.toNat ≤ 0x39) ∧
    (0 < n → (dec n).head? ≠ some 0x30#8) ∧ dec n ≠ [] ∧ (dec n).length ≤ 5

/-- Different endpoints have different texts, of 9 to 21 bytes (44_control.md). -/
def Obligations.EndpointTextsDiffer : Prop :=
  ∀ e f : Endpoint, (endpointText e = endpointText f → e = f) ∧
    9 ≤ (endpointText e).length ∧ (endpointText e).length ≤ 21

/-- The encoder is pure (44_control.md R290): for each encoder request there is one response, and at most one COUT transfer,
and they are all it writes, whatever the state. That the response stands before the COUT transfer in the one ordered list is
the model's reading and no rule's (log 3, DEDUCED). -/
def Obligations.EncoderIsPure : Prop :=
  ∀ (b : List Byte), (byteAt b 0 = 3#8 ∨ byteAt b 0 = 4#8) →
    ∃ (response : List Byte) (command : List Transfer),
      (command = [] ∨ ∃ bytes, command = [⟨.cout, bytes⟩]) ∧
      ∀ s : State, s.stages = [] →
        transact ⟨.cmd, b⟩ s = .next { s with out := s.out ++ [⟨.cmdResponse, response⟩] ++ command }

/-- Whatever leaves on COUT is a control command whose first byte is 0x20, 0x21, 0x30 or 0x31 and whose length is 4 plus its
parameter length; it decodes to a well-formed instruction (30_encoding.md section 2). -/
def Obligations.OnlyControlCommandsLeaveOnCout : Prop :=
  ∀ s t, s.stages = [] → step s = .next t → ∃ sent, t.out = s.out ++ sent ∧
    ∀ x ∈ sent, x.port = .cout →
      (byteAt x.bytes 0).toNat ∈ [0x20, 0x21, 0x30, 0x31] ∧ byteAt x.bytes 1 = 0xFF#8 ∧
      x.bytes.length = 4 + (u16le x.bytes 2).toNat ∧
      ∃ i, decode (.command x.bytes) = some i ∧ i.wellFormed = true

/-! ### The whole core -/

/-- Every transaction ends with a response, and the core can always take the next one (60_exceptions.md R328). -/
def Obligations.EveryTransactionEndsWithAResponse : Prop :=
  (∀ s, ∃ t, step s = .next t ∧ t.stages = []) ∧
  (∀ s txn rest, s.stages = [] → s.arrivals = txn :: rest →
    ∃ t sent x, step s = .next t ∧ t.stages = [] ∧ t.arrivals = rest ∧ t.out = s.out ++ sent ∧
      x ∈ sent ∧ isResponse x = true)

/-- Every transaction has exactly one response, on its own port's channel and before its outputs; FOUT, AOUT and COUT carry
at most one transfer of it in all (30_encoding.md section 1; the order is the model's reading, log 3). -/
def Obligations.ExactlyOneResponse : Prop :=
  ∀ s txn rest t, s.stages = [] → s.arrivals = txn :: rest → step s = .next t →
    ∃ response outputs, t.out = s.out ++ ⟨responsePort txn.port, response⟩ :: outputs ∧ response ≠ [] ∧
      outputs.length ≤ 1 ∧ ∀ x ∈ outputs, isResponse x = false

/-- A discarded datagram writes no core state, sends no FOUT and no AOUT, and gets the response DISCARDED with its reason
(60_exceptions.md R321), whichever check discards it. With the default capacity the third clause is met only by ill-formed
terms of 1 to 3 lines per packet, whose meaning is the model's choice (log 18, DESIGN CHOICE); no accepted datagram meets it
(41_frame_assembler.md R183). -/
def Obligations.DiscardedDatagramsLeaveNoTrace : Prop :=
  (∀ (s : State) (dg : List Byte) (r : DiscardReason), s.stages = [] → decodeVideoHeader dg = .error r →
    transact ⟨.vin, dg⟩ s = .next { s with out := s.out ++
      [⟨.vinResponse, [1#8, discardCode r, asmCode (asmState s.video)]⟩] }) ∧
  (∀ (s : State) (dg : List Byte) (r : DiscardReason), s.stages = [] → decodeAudioHeader dg = .error r →
    transact ⟨.ain, dg⟩ s = .next { s with out := s.out ++ [⟨.ainResponse, [1#8, discardCode r]⟩] }) ∧
  (∀ (s : State) (frame : Half) (line : BitVec 15) (lpp : Byte) (payload : Bytes 768) (isLast : Bool) (r : DiscardReason),
    addPacketTo Config.maxPackets s.video frame line lpp payload isLast = .error r →
    exec (.addPacket frame line lpp payload isLast) s = .next { s with out := s.out ++
      [⟨.vinResponse, [1#8, discardCode r, asmCode (asmState s.video)]⟩] })

/-- The operations that write no core state leave all of it: every register, every byte of the line buffer, the filter
(10_state.md section 4, 41_frame_assembler.md section 1). -/
def Obligations.OtherOperationsWriteNoState : Prop :=
  ∀ (i : Instr) (s t : State), writesNoState i = true → exec i s = .next t →
    t.video = s.video ∧ t.audio = s.audio ∧ t.arrivals = s.arrivals ∧
    (∀ a, Memory.read t.video.slotData a = Memory.read s.video.slotData a) ∧
    ((∀ payload, i ≠ .extractPcm payload) → t.pcm = s.pcm) ∧
    ∃ sent, t.out = s.out ++ sent

/-- DC_FILTER and RESET_AUDIO leave the video state, every byte of the line buffer among it, and what waits
(10_state.md section 4). -/
def Obligations.AudioOperationsLeaveTheVideoState : Prop :=
  ∀ (i : Instr) (s t : State), (i = .resetAudio ∨ ∃ xL xR, i = .dcFilter xL xR) → exec i s = .next t →
    t.video = s.video ∧ t.arrivals = s.arrivals ∧ t.stages = s.stages ∧
    (∀ a, Memory.read t.video.slotData a = Memory.read s.video.slotData a) ∧
    (i = .resetAudio → t.pcm = s.pcm) ∧ ∃ sent, t.out = s.out ++ sent

/-- A transaction of one path neither reads nor writes the state of the other (10_state.md section 4): on a transaction that
is not of the audio path the filter state passes through unread, and on one that is not of the video path the assembler's
does. -/
def Obligations.PathsAreDisjoint : Prop :=
  (∀ (s : State) (txn : Txn), s.stages = [] → pathOfTxn txn ≠ .audio →
    ∃ t : State, ∀ a, transact txn (s.withAudio a) = .next (t.withAudio a)) ∧
  (∀ (s : State) (txn : Txn), s.stages = [] → pathOfTxn txn ≠ .video →
    ∃ t : State, ∀ v, transact txn (s.withVideo v) = .next (t.withVideo v))

/-- Two adjacent transactions of different paths commute, and an encoder's, a palette lookup's or a refused request's commutes
with every other: the same final state, and the same responses and outputs of each (20_memory.md section 6). The palette lookup
and the refused request share no state with any other because they have none (10_state.md section 4, R46). -/
def Obligations.IndependentTransactionsCommute : Prop :=
  ∀ (s s₁ s₂ u₁ u₂ : State) (x y : Txn), s.stages = [] → Independent x y →
    transact x s = .next s₁ → transact y s₁ = .next s₂ → transact y s = .next u₁ → transact x u₁ = .next u₂ →
    s₂.video = u₂.video ∧ s₂.audio = u₂.audio ∧ s₂.arrivals = u₂.arrivals ∧ s₂.stages = u₂.stages ∧ s₂.pcm = u₂.pcm ∧
    ∃ ofX ofY, s₁.out = s.out ++ ofX ∧ s₂.out = s.out ++ ofX ++ ofY ∧ u₁.out = s.out ++ ofY ∧
      u₂.out = s.out ++ ofY ++ ofX

/-- What an invalid slot holds is never observed (70_reset_and_hazards.md section 1): two states that differ in nothing else
answer every transaction alike, and differ in nothing else after it. -/
def Obligations.InvalidSlotsAreNeverObserved : Prop :=
  ∀ (s t u : State) (w : VideoState), s.stages = [] → LineBufferCanonical s.video → LineBufferCanonical w →
    SameValidSlots s.video w → step s = .next t → step (s.withVideo w) = .next u →
    u.out = t.out ∧ u.audio = t.audio ∧ u.arrivals = t.arrivals ∧ u.stages = t.stages ∧ u.pcm = t.pcm ∧
    SameValidSlots t.video u.video

/-- The encoding of every well-formed instruction is read back by the decoder with every operand: an operation that starts a
transaction, and a control command, directly; a later stage as what the transaction's first operations hand on
(30_encoding.md section 5). -/
def Obligations.EncodedInstructionsAreReadBack : Prop :=
  ∀ i : Instr, i.wellFormed = true → ReadBack i

end
end

