-- ==== Sys2Proof/Laws/State.lean ====
section
/-! SUPPORT. What each named update of the state does to each field. -/

namespace Sys2Proof.Machine

/-! ### `State.emit` -/

@[simp] theorem State.emit_video (s : State) (port : OutPort) (bytes : List Byte) : (s.emit port bytes).video = s.video := rfl

@[simp] theorem State.emit_audio (s : State) (port : OutPort) (bytes : List Byte) : (s.emit port bytes).audio = s.audio := rfl

@[simp] theorem State.emit_arrivals (s : State) (port : OutPort) (bytes : List Byte) : (s.emit port bytes).arrivals = s.arrivals := rfl

@[simp] theorem State.emit_stages (s : State) (port : OutPort) (bytes : List Byte) : (s.emit port bytes).stages = s.stages := rfl

@[simp] theorem State.emit_pcm (s : State) (port : OutPort) (bytes : List Byte) : (s.emit port bytes).pcm = s.pcm := rfl

@[simp] theorem State.emit_out (s : State) (port : OutPort) (bytes : List Byte) : (s.emit port bytes).out = s.out ++ [⟨port, bytes⟩] := rfl

/-! ### `State.schedule` -/

@[simp] theorem State.schedule_video (s : State) (next : List Instr) : (s.schedule next).video = s.video := rfl

@[simp] theorem State.schedule_audio (s : State) (next : List Instr) : (s.schedule next).audio = s.audio := rfl

@[simp] theorem State.schedule_arrivals (s : State) (next : List Instr) : (s.schedule next).arrivals = s.arrivals := rfl

@[simp] theorem State.schedule_stages (s : State) (next : List Instr) : (s.schedule next).stages = next ++ s.stages := rfl

@[simp] theorem State.schedule_pcm (s : State) (next : List Instr) : (s.schedule next).pcm = s.pcm := rfl

@[simp] theorem State.schedule_out (s : State) (next : List Instr) : (s.schedule next).out = s.out := rfl

/-! ### `State.withStages` -/

@[simp] theorem State.withStages_video (s : State) (stages : List Instr) : (s.withStages stages).video = s.video := rfl

@[simp] theorem State.withStages_audio (s : State) (stages : List Instr) : (s.withStages stages).audio = s.audio := rfl

@[simp] theorem State.withStages_arrivals (s : State) (stages : List Instr) : (s.withStages stages).arrivals = s.arrivals := rfl

@[simp] theorem State.withStages_stages (s : State) (stages : List Instr) : (s.withStages stages).stages = stages := rfl

@[simp] theorem State.withStages_pcm (s : State) (stages : List Instr) : (s.withStages stages).pcm = s.pcm := rfl

@[simp] theorem State.withStages_out (s : State) (stages : List Instr) : (s.withStages stages).out = s.out := rfl

/-! ### `State.withArrivals` -/

@[simp] theorem State.withArrivals_video (s : State) (arrivals : List Txn) : (s.withArrivals arrivals).video = s.video := rfl

@[simp] theorem State.withArrivals_audio (s : State) (arrivals : List Txn) : (s.withArrivals arrivals).audio = s.audio := rfl

@[simp] theorem State.withArrivals_arrivals (s : State) (arrivals : List Txn) : (s.withArrivals arrivals).arrivals = arrivals := rfl

@[simp] theorem State.withArrivals_stages (s : State) (arrivals : List Txn) : (s.withArrivals arrivals).stages = s.stages := rfl

@[simp] theorem State.withArrivals_pcm (s : State) (arrivals : List Txn) : (s.withArrivals arrivals).pcm = s.pcm := rfl

@[simp] theorem State.withArrivals_out (s : State) (arrivals : List Txn) : (s.withArrivals arrivals).out = s.out := rfl

/-! ### `State.withVideo` -/

@[simp] theorem State.withVideo_video (s : State) (video : VideoState) : (s.withVideo video).video = video := rfl

@[simp] theorem State.withVideo_audio (s : State) (video : VideoState) : (s.withVideo video).audio = s.audio := rfl

@[simp] theorem State.withVideo_arrivals (s : State) (video : VideoState) : (s.withVideo video).arrivals = s.arrivals := rfl

@[simp] theorem State.withVideo_stages (s : State) (video : VideoState) : (s.withVideo video).stages = s.stages := rfl

@[simp] theorem State.withVideo_pcm (s : State) (video : VideoState) : (s.withVideo video).pcm = s.pcm := rfl

@[simp] theorem State.withVideo_out (s : State) (video : VideoState) : (s.withVideo video).out = s.out := rfl

/-! ### `State.withAudio` -/

@[simp] theorem State.withAudio_video (s : State) (audio : AudioState) : (s.withAudio audio).video = s.video := rfl

@[simp] theorem State.withAudio_audio (s : State) (audio : AudioState) : (s.withAudio audio).audio = audio := rfl

@[simp] theorem State.withAudio_arrivals (s : State) (audio : AudioState) : (s.withAudio audio).arrivals = s.arrivals := rfl

@[simp] theorem State.withAudio_stages (s : State) (audio : AudioState) : (s.withAudio audio).stages = s.stages := rfl

@[simp] theorem State.withAudio_pcm (s : State) (audio : AudioState) : (s.withAudio audio).pcm = s.pcm := rfl

@[simp] theorem State.withAudio_out (s : State) (audio : AudioState) : (s.withAudio audio).out = s.out := rfl

/-! ### `State.withPcm` -/

@[simp] theorem State.withPcm_video (s : State) (pcm : List Half) : (s.withPcm pcm).video = s.video := rfl

@[simp] theorem State.withPcm_audio (s : State) (pcm : List Half) : (s.withPcm pcm).audio = s.audio := rfl

@[simp] theorem State.withPcm_arrivals (s : State) (pcm : List Half) : (s.withPcm pcm).arrivals = s.arrivals := rfl

@[simp] theorem State.withPcm_stages (s : State) (pcm : List Half) : (s.withPcm pcm).stages = s.stages := rfl

@[simp] theorem State.withPcm_pcm (s : State) (pcm : List Half) : (s.withPcm pcm).pcm = pcm := rfl

@[simp] theorem State.withPcm_out (s : State) (pcm : List Half) : (s.withPcm pcm).out = s.out := rfl

/-! ### `State.deliver` -/

@[simp] theorem State.deliver_video (s : State) (t : Txn) : (s.deliver t).video = s.video := rfl

@[simp] theorem State.deliver_audio (s : State) (t : Txn) : (s.deliver t).audio = s.audio := rfl

@[simp] theorem State.deliver_arrivals (s : State) (t : Txn) : (s.deliver t).arrivals = s.arrivals ++ [t] := rfl

@[simp] theorem State.deliver_stages (s : State) (t : Txn) : (s.deliver t).stages = s.stages := rfl

@[simp] theorem State.deliver_pcm (s : State) (t : Txn) : (s.deliver t).pcm = s.pcm := rfl

@[simp] theorem State.deliver_out (s : State) (t : Txn) : (s.deliver t).out = s.out := rfl

/-! ### `VideoState.clearFrame` -/

@[simp] theorem VideoState.clearFrame_trkValid (v : VideoState) : (v.clearFrame).trkValid = v.trkValid := rfl

@[simp] theorem VideoState.clearFrame_trkFrame (v : VideoState) : (v.clearFrame).trkFrame = v.trkFrame := rfl

@[simp] theorem VideoState.clearFrame_slotValid (v : VideoState) : (v.clearFrame).slotValid = [] := rfl

@[simp] theorem VideoState.clearFrame_slotLine (v : VideoState) : (v.clearFrame).slotLine = v.slotLine := rfl

@[simp] theorem VideoState.clearFrame_slotData (v : VideoState) : (v.clearFrame).slotData = v.slotData := rfl

@[simp] theorem VideoState.clearFrame_expCount (v : VideoState) : (v.clearFrame).expCount = 0#16 := rfl

@[simp] theorem VideoState.clearFrame_height (v : VideoState) : (v.clearFrame).height = 0#16 := rfl

/-! ### `VideoState.track` -/

@[simp] theorem VideoState.track_trkValid (v : VideoState) (frame : Half) : (v.track frame).trkValid = true := rfl

@[simp] theorem VideoState.track_trkFrame (v : VideoState) (frame : Half) : (v.track frame).trkFrame = frame := rfl

@[simp] theorem VideoState.track_slotValid (v : VideoState) (frame : Half) : (v.track frame).slotValid = v.slotValid := rfl

@[simp] theorem VideoState.track_slotLine (v : VideoState) (frame : Half) : (v.track frame).slotLine = v.slotLine := rfl

@[simp] theorem VideoState.track_slotData (v : VideoState) (frame : Half) : (v.track frame).slotData = v.slotData := rfl

@[simp] theorem VideoState.track_expCount (v : VideoState) (frame : Half) : (v.track frame).expCount = v.expCount := rfl

@[simp] theorem VideoState.track_height (v : VideoState) (frame : Half) : (v.track frame).height = v.height := rfl

/-! ### `VideoState.storeSlot` -/

@[simp] theorem VideoState.storeSlot_trkValid (v : VideoState) (i : Nat) (line : BitVec 15) (payload : Bytes 768) : (v.storeSlot i line payload).trkValid = v.trkValid := rfl

@[simp] theorem VideoState.storeSlot_trkFrame (v : VideoState) (i : Nat) (line : BitVec 15) (payload : Bytes 768) : (v.storeSlot i line payload).trkFrame = v.trkFrame := rfl

@[simp] theorem VideoState.storeSlot_slotValid (v : VideoState) (i : Nat) (line : BitVec 15) (payload : Bytes 768) : (v.storeSlot i line payload).slotValid = markValid v.slotValid i := rfl

@[simp] theorem VideoState.storeSlot_slotLine (v : VideoState) (i : Nat) (line : BitVec 15) (payload : Bytes 768) : (v.storeSlot i line payload).slotLine = sparseWrite 0#15 v.slotLine i [line] := rfl

@[simp] theorem VideoState.storeSlot_slotData (v : VideoState) (i : Nat) (line : BitVec 15) (payload : Bytes 768) : (v.storeSlot i line payload).slotData = Memory.writeBlock v.slotData (slotAddr i 0) payload.bytes := rfl

@[simp] theorem VideoState.storeSlot_expCount (v : VideoState) (i : Nat) (line : BitVec 15) (payload : Bytes 768) : (v.storeSlot i line payload).expCount = v.expCount := rfl

@[simp] theorem VideoState.storeSlot_height (v : VideoState) (i : Nat) (line : BitVec 15) (payload : Bytes 768) : (v.storeSlot i line payload).height = v.height := rfl

/-! ### `VideoState.setGeometry` -/

@[simp] theorem VideoState.setGeometry_trkValid (v : VideoState) (expCount height : Nat) : (v.setGeometry expCount height).trkValid = v.trkValid := rfl

@[simp] theorem VideoState.setGeometry_trkFrame (v : VideoState) (expCount height : Nat) : (v.setGeometry expCount height).trkFrame = v.trkFrame := rfl

@[simp] theorem VideoState.setGeometry_slotValid (v : VideoState) (expCount height : Nat) : (v.setGeometry expCount height).slotValid = v.slotValid := rfl

@[simp] theorem VideoState.setGeometry_slotLine (v : VideoState) (expCount height : Nat) : (v.setGeometry expCount height).slotLine = v.slotLine := rfl

@[simp] theorem VideoState.setGeometry_slotData (v : VideoState) (expCount height : Nat) : (v.setGeometry expCount height).slotData = v.slotData := rfl

@[simp] theorem VideoState.setGeometry_expCount (v : VideoState) (expCount height : Nat) : (v.setGeometry expCount height).expCount = BitVec.ofNat 16 expCount := rfl

@[simp] theorem VideoState.setGeometry_height (v : VideoState) (expCount height : Nat) : (v.setGeometry expCount height).height = BitVec.ofNat 16 height := rfl

/-! ### `VideoState.toReset` -/

@[simp] theorem VideoState.toReset_trkValid (v : VideoState) : (v.toReset).trkValid = false := rfl

@[simp] theorem VideoState.toReset_trkFrame (v : VideoState) : (v.toReset).trkFrame = 0#16 := rfl

@[simp] theorem VideoState.toReset_slotValid (v : VideoState) : (v.toReset).slotValid = [] := rfl

@[simp] theorem VideoState.toReset_slotLine (v : VideoState) : (v.toReset).slotLine = v.slotLine := rfl

@[simp] theorem VideoState.toReset_slotData (v : VideoState) : (v.toReset).slotData = v.slotData := rfl

@[simp] theorem VideoState.toReset_expCount (v : VideoState) : (v.toReset).expCount = 0#16 := rfl

@[simp] theorem VideoState.toReset_height (v : VideoState) : (v.toReset).height = 0#16 := rfl

end Sys2Proof.Machine
end

