-- ==== Sys2Proof/Laws/Sparse.lean ====
section
/-! SUPPORT. The sparse memories: reading after writing, the canonical form, and block reads. -/

namespace Sys2Proof.Machine

section

variable {α : Type} {unlisted : α}

@[simp] theorem sparseRead_nil (a : Nat) : sparseRead unlisted ([] : List (Nat × α)) a = unlisted := rfl

theorem sparseRead_cons (p : Nat × α) (m : List (Nat × α)) (a : Nat) :
    sparseRead unlisted (p :: m) a = if p.1 = a then p.2 else sparseRead unlisted m a := rfl

/-- An address that no entry has reads as unlisted. -/
theorem sparseRead_of_not_mem (m : List (Nat × α)) (a : Nat) (h : ∀ p ∈ m, p.1 ≠ a) :
    sparseRead unlisted m a = unlisted := by
  induction m with
  | nil => rfl
  | cons p m ih =>
    rw [sparseRead_cons, if_neg (h p (by simp)), ih fun q hq => h q (by simp [hq])]

/-- Entries that a read skips do not matter. -/
theorem sparseRead_append (m₁ m₂ : List (Nat × α)) (a : Nat) (h : ∀ p ∈ m₁, p.1 ≠ a) :
    sparseRead unlisted (m₁ ++ m₂) a = sparseRead unlisted m₂ a := by
  induction m₁ with
  | nil => rfl
  | cons p m ih =>
    rw [List.cons_append, sparseRead_cons, if_neg (h p (by simp)), ih fun q hq => h q (by simp [hq])]

/-- Entries behind the one a read looks for do not matter. -/
theorem sparseRead_append_left (m₁ m₂ : List (Nat × α)) (a : Nat) (h : ∀ p ∈ m₂, p.1 ≠ a) :
    sparseRead unlisted (m₁ ++ m₂) a = sparseRead unlisted m₁ a := by
  induction m₁ with
  | nil => simpa using sparseRead_of_not_mem m₂ a h
  | cons p m ih => rw [List.cons_append, sparseRead_cons, sparseRead_cons, ih]

/-- A read looks only at the entries that a filter on addresses keeps, if it keeps the address. -/
theorem sparseRead_filter (keep : Nat → Bool) (m : List (Nat × α)) (a : Nat) (h : keep a = true) :
    sparseRead unlisted (m.filter fun p => keep p.1) a = sparseRead unlisted m a := by
  induction m with
  | nil => rfl
  | cons p m ih =>
    rw [List.filter_cons]
    split
    · rw [sparseRead_cons, sparseRead_cons, ih]
    · next hp =>
      rw [ih, sparseRead_cons, if_neg]
      rintro rfl
      exact hp h

variable [DecidableEq α]

/-- The cells of a block lie inside it. -/
theorem sparseCells_bounds (a : Nat) (vs : List α) (p : Nat × α) (hp : p ∈ sparseCells unlisted a vs) :
    a ≤ p.1 ∧ p.1 < a + vs.length ∧ p.2 ≠ unlisted := by
  induction vs generalizing a with
  | nil => simp [sparseCells] at hp
  | cons v vs ih =>
    simp only [sparseCells] at hp
    rw [List.length_cons]
    split at hp
    · obtain ⟨h1, h2, h3⟩ := ih _ hp
      exact ⟨by omega, by omega, h3⟩
    · rcases List.mem_cons.1 hp with rfl | hp
      · exact ⟨Nat.le_refl _, by omega, by assumption⟩
      · obtain ⟨h1, h2, h3⟩ := ih _ hp
        exact ⟨by omega, by omega, h3⟩

/-- The cells of a block hold its values. -/
theorem sparseRead_sparseCells (a : Nat) (vs : List α) (k : Nat) (hk : k < vs.length) :
    sparseRead unlisted (sparseCells unlisted a vs) (a + k) = vs[k] := by
  induction vs generalizing a k with
  | nil => simp at hk
  | cons v vs ih =>
    have skip : ∀ p ∈ sparseCells unlisted (a + 1) vs, p.1 ≠ a := fun p hp => by
      have := sparseCells_bounds _ _ _ hp; omega
    cases k with
    | zero =>
      simp only [sparseCells, Nat.add_zero, List.getElem_cons_zero]
      split
      · next h => rw [sparseRead_of_not_mem _ _ skip, h]
      · simp [sparseRead]
    | succ k =>
      have h := ih (a + 1) k (by simpa using hk)
      rw [show a + 1 + k = a + (k + 1) by omega] at h
      simp only [sparseCells, List.getElem_cons_succ]
      split
      · exact h
      · rw [sparseRead_cons, if_neg (by simp)]
        exact h

/-- The cells of a block are in order. -/
theorem sparseCells_pairwise (a : Nat) (vs : List α) :
    (sparseCells unlisted a vs).Pairwise fun p q => p.1 < q.1 := by
  induction vs generalizing a with
  | nil => exact List.Pairwise.nil
  | cons v vs ih =>
    simp only [sparseCells]
    split
    · exact ih _
    · exact List.pairwise_cons.2 ⟨fun p hp => by have := sparseCells_bounds _ _ _ hp; simp; omega, ih _⟩

/-- Reading inside a written block gives what was written. -/
theorem sparseRead_sparseWrite_inside (m : List (Nat × α)) (a : Nat) (vs : List α) (k : Nat) (hk : k < vs.length) :
    sparseRead unlisted (sparseWrite unlisted m a vs) (a + k) = vs[k] := by
  rw [sparseWrite, List.append_assoc, sparseRead_append, sparseRead_append_left, sparseRead_sparseCells a vs k hk]
  · intro p hp
    have := (List.mem_filter.1 hp).2
    simp only [decide_eq_true_eq] at this
    omega
  · intro p hp
    have := (List.mem_filter.1 hp).2
    simp only [decide_eq_true_eq] at this
    omega

/-- A write leaves every address outside its block alone. -/
theorem sparseRead_sparseWrite_outside (m : List (Nat × α)) (a : Nat) (vs : List α) (b : Nat)
    (hb : b < a ∨ a + vs.length ≤ b) : sparseRead unlisted (sparseWrite unlisted m a vs) b = sparseRead unlisted m b := by
  have cells : ∀ p ∈ sparseCells unlisted a vs, p.1 ≠ b := fun p hp => by
    have := sparseCells_bounds _ _ _ hp; omega
  rcases hb with hb | hb
  · rw [sparseWrite, List.append_assoc, sparseRead_append_left,
      sparseRead_filter (fun k => decide (k < a)) m b (by simpa using hb)]
    intro p hp
    rcases List.mem_append.1 hp with hp | hp
    · exact cells p hp
    · have := (List.mem_filter.1 hp).2
      simp only [decide_eq_true_eq] at this
      omega
  · rw [sparseWrite, sparseRead_append, sparseRead_filter (fun k => decide (a + vs.length ≤ k)) m b (by simpa using hb)]
    intro p hp
    rcases List.mem_append.1 hp with hp | hp
    · have := (List.mem_filter.1 hp).2
      simp only [decide_eq_true_eq] at this
      omega
    · exact cells p hp

/-- A write keeps the canonical form. -/
theorem sparseWrite_wf (m : List (Nat × α)) (a : Nat) (vs : List α) (h : Sparse.wf unlisted m) :
    Sparse.wf unlisted (sparseWrite unlisted m a vs) := by
  obtain ⟨hs, hv⟩ := h
  refine ⟨?_, ?_⟩
  · rw [sparseWrite, List.pairwise_append, List.pairwise_append]
    refine ⟨⟨hs.filter _, sparseCells_pairwise a vs, ?_⟩, hs.filter _, ?_⟩
    · intro p hp q hq
      have h1 := (List.mem_filter.1 hp).2
      have h2 := sparseCells_bounds _ _ _ hq
      simp only [decide_eq_true_eq] at h1
      omega
    · intro p hp q hq
      have h2 := (List.mem_filter.1 hq).2
      simp only [decide_eq_true_eq] at h2
      rcases List.mem_append.1 hp with hp | hp
      · have h1 := (List.mem_filter.1 hp).2
        simp only [decide_eq_true_eq] at h1
        omega
      · have h1 := sparseCells_bounds _ _ _ hp
        omega
  · intro p hp
    rw [sparseWrite, List.mem_append, List.mem_append] at hp
    rcases hp with (hp | hp) | hp
    · exact hv p (List.mem_filter.1 hp).1
    · exact (sparseCells_bounds _ _ _ hp).2.2
    · exact hv p (List.mem_filter.1 hp).1

/-- Writing the same values again changes nothing. -/
theorem sparseWrite_idem (m : List (Nat × α)) (a : Nat) (vs : List α) :
    sparseWrite unlisted (sparseWrite unlisted m a vs) a vs = sparseWrite unlisted m a vs := by
  have below : (sparseCells unlisted a vs).filter (fun p => decide (p.1 < a)) = [] :=
    List.filter_eq_nil_iff.2 fun p hp => by have := sparseCells_bounds _ _ _ hp; simp; omega
  have above : (sparseCells unlisted a vs).filter (fun p => decide (a + vs.length ≤ p.1)) = [] :=
    List.filter_eq_nil_iff.2 fun p hp => by have := sparseCells_bounds _ _ _ hp; simp; omega
  have disjoint₁ : (m.filter fun p => decide (a + vs.length ≤ p.1)).filter (fun p => decide (p.1 < a)) = [] :=
    List.filter_eq_nil_iff.2 fun p hp => by
      have := (List.mem_filter.1 hp).2; simp only [decide_eq_true_eq] at this; simp; omega
  have disjoint₂ : (m.filter fun p => decide (p.1 < a)).filter (fun p => decide (a + vs.length ≤ p.1)) = [] :=
    List.filter_eq_nil_iff.2 fun p hp => by
      have := (List.mem_filter.1 hp).2; simp only [decide_eq_true_eq] at this; simp; omega
  have twice : ∀ keep : Nat × α → Bool, (m.filter keep).filter keep = m.filter keep := fun keep => by
    simp [List.filter_filter]
  rw [sparseWrite, sparseWrite, List.filter_append, List.filter_append, List.filter_append, List.filter_append, below,
    above, disjoint₁, disjoint₂, twice, twice]
  simp

omit [DecidableEq α] in
/-- A block read of a list whose addresses start at the block's gives the values one by one. -/
theorem sparseTake_eq_map (m : List (Nat × α)) (a n : Nat) (sorted : m.Pairwise fun p q => p.1 < q.1)
    (low : ∀ p ∈ m, a ≤ p.1) :
    sparseTake unlisted m a n = (List.range n).map fun k => sparseRead unlisted m (a + k) := by
  induction n generalizing m a with
  | zero => cases m <;> rfl
  | succ n ih =>
    rw [List.range_succ_eq_map, List.map_cons, List.map_map]
    cases m with
    | nil =>
      simp only [sparseTake, Nat.add_zero, sparseRead_nil]
      rw [ih [] (a + 1) List.Pairwise.nil (by simp)]
      rfl
    | cons p m =>
      obtain ⟨b, v⟩ := p
      have hb : a ≤ b := low (b, v) (by simp)
      have later : ∀ q ∈ m, b < q.1 := fun q hq => (List.pairwise_cons.1 sorted).1 q hq
      simp only [sparseTake, Nat.add_zero]
      split
      · next h =>
        subst h
        rw [sparseRead_cons, if_pos rfl, ih m (b + 1) (List.pairwise_cons.1 sorted).2 (fun q hq => later q hq)]
        congr 1
        apply List.map_congr_left
        intro k _
        simp only [Function.comp_apply, sparseRead_cons]
        rw [if_neg (by omega), show b + 1 + k = b + k.succ by omega]
      · next h =>
        rw [sparseRead_of_not_mem _ a, ih ((b, v) :: m) (a + 1) sorted]
        · congr 1
          apply List.map_congr_left
          intro k _
          simp only [Function.comp_apply]
          rw [show a + 1 + k = a + k.succ by omega]
        · intro q hq
          rcases List.mem_cons.1 hq with rfl | hq
          · simp only; omega
          · have := later q hq; omega
        · intro q hq
          rcases List.mem_cons.1 hq with rfl | hq
          · simpa using h
          · have := later q hq; omega

omit [DecidableEq α] in
/-- Every entry that `dropWhile` keeps of a rising list lies at or above the bound. -/
theorem dropWhile_low (m : List (Nat × α)) (a : Nat) (sorted : m.Pairwise fun p q => p.1 < q.1) :
    ∀ p ∈ m.dropWhile (fun p => decide (p.1 < a)), a ≤ p.1 := by
  induction m with
  | nil => simp
  | cons p m ih =>
    intro q hq
    rw [List.dropWhile_cons] at hq
    split at hq
    · exact ih (List.pairwise_cons.1 sorted).2 q hq
    · next h =>
      simp only [decide_eq_true_eq, Nat.not_lt] at h
      rcases List.mem_cons.1 hq with rfl | hq
      · exact h
      · have := (List.pairwise_cons.1 sorted).1 q hq; omega

omit [DecidableEq α] in
/-- The entries `dropWhile` drops lie below the bound, so a read at or above it does not see them. -/
theorem sparseRead_dropWhile (m : List (Nat × α)) (a b : Nat) (hb : a ≤ b) :
    sparseRead unlisted (m.dropWhile fun p => decide (p.1 < a)) b = sparseRead unlisted m b := by
  induction m with
  | nil => rfl
  | cons p m ih =>
    rw [List.dropWhile_cons]
    split
    · next h =>
      simp only [decide_eq_true_eq] at h
      rw [ih, sparseRead_cons, if_neg (by omega)]
    · rfl

omit [DecidableEq α] in
/-- A block read of a canonical list gives the values one by one. -/
theorem sparseReadBlock_eq_map (m : List (Nat × α)) (a n : Nat) (h : Sparse.wf unlisted m) :
    sparseReadBlock unlisted m a n = (List.range n).map fun k => sparseRead unlisted m (a + k) := by
  rw [sparseReadBlock, sparseTake_eq_map]
  · apply List.map_congr_left
    intro k _
    exact sparseRead_dropWhile m a (a + k) (by omega)
  · exact h.1.sublist (List.dropWhile_sublist _)
  · exact dropWhile_low m a h.1

omit [DecidableEq α] in
@[simp] theorem sparseTake_length (m : List (Nat × α)) (a n : Nat) : (sparseTake unlisted m a n).length = n := by
  induction n generalizing m a with
  | zero => cases m <;> rfl
  | succ n ih =>
    cases m with
    | nil => simp [sparseTake, ih]
    | cons p m =>
      obtain ⟨b, v⟩ := p
      simp only [sparseTake]
      split <;> simp [ih]

end

/-- Every write of the line buffer keeps its canonical form. -/
theorem Memory.writeBlock_wf (m : List Host.Cell) (a : Nat) (bytes : List Byte) (h : Memory.wf m) :
    Memory.wf (Memory.writeBlock m a bytes) := sparseWrite_wf m a bytes h

theorem Memory.read_writeBlock_inside (m : List Host.Cell) (a : Nat) (bytes : List Byte) (k : Nat)
    (hk : k < bytes.length) : Memory.read (Memory.writeBlock m a bytes) (a + k) = bytes[k] :=
  sparseRead_sparseWrite_inside m a bytes k hk

theorem Memory.read_writeBlock_outside (m : List Host.Cell) (a : Nat) (bytes : List Byte) (b : Nat)
    (hb : b < a ∨ a + bytes.length ≤ b) : Memory.read (Memory.writeBlock m a bytes) b = Memory.read m b :=
  sparseRead_sparseWrite_outside m a bytes b hb

theorem Memory.readBlock_eq_map (m : List Host.Cell) (a n : Nat) (h : Memory.wf m) :
    Memory.readBlock m a n = (List.range n).map fun k => Memory.read m (a + k) := sparseReadBlock_eq_map m a n h

theorem Memory.reset_wf : Memory.wf State.reset.video.slotData := by decide

@[simp] theorem Memory.readBlock_length (m : List Host.Cell) (a n : Nat) : (Memory.readBlock m a n).length = n :=
  sparseTake_length _ _ _

/-! ### The set of valid slots -/

@[simp] theorem mem_markValid (valid : List Nat) (i k : Nat) : k ∈ markValid valid i ↔ k = i ∨ k ∈ valid := by
  simp only [markValid, List.mem_append, List.mem_filter, List.mem_singleton, decide_eq_true_eq]
  constructor
  · rintro ((⟨h, -⟩ | h) | ⟨h, -⟩) <;> simp [h]
  · rintro (h | h)
    · exact .inl (.inr h)
    · rcases Nat.lt_trichotomy k i with hk | hk | hk
      · exact .inl (.inl ⟨h, hk⟩)
      · exact .inl (.inr hk)
      · exact .inr ⟨h, hk⟩

theorem markValid_pairwise (valid : List Nat) (i : Nat) (h : valid.Pairwise (· < ·)) :
    (markValid valid i).Pairwise (· < ·) := by
  rw [markValid, List.pairwise_append, List.pairwise_append]
  refine ⟨⟨h.filter _, List.pairwise_singleton _ _, ?_⟩, h.filter _, ?_⟩
  · intro a ha b hb
    have := (List.mem_filter.1 ha).2
    simp only [List.mem_singleton, decide_eq_true_eq] at *
    omega
  · intro a ha b hb
    have h2 := (List.mem_filter.1 hb).2
    simp only [decide_eq_true_eq] at h2
    rcases List.mem_append.1 ha with ha | ha
    · have := (List.mem_filter.1 ha).2
      simp only [decide_eq_true_eq] at this
      omega
    · simp only [List.mem_singleton] at ha
      omega

/-- Marking a slot that is valid already changes nothing in a rising list. -/
theorem markValid_of_mem (valid : List Nat) (i : Nat) (h : valid.Pairwise (· < ·)) (hi : i ∈ valid) :
    markValid valid i = valid := by
  refine List.Pairwise.eq_of_mem_iff (r := (· < ·)) (markValid_pairwise valid i h) h fun k => ?_
  rw [mem_markValid]
  constructor
  · rintro (rfl | hk) <;> assumption
  · exact Or.inr

theorem markValid_idem (valid : List Nat) (i : Nat) : markValid (markValid valid i) i = markValid valid i := by
  have twice : ∀ keep : Nat → Bool, (valid.filter keep).filter keep = valid.filter keep := fun keep => by
    simp [List.filter_filter]
  have gone₁ : (valid.filter fun k => decide (i < k)).filter (fun k => decide (k < i)) = [] :=
    List.filter_eq_nil_iff.2 fun k hk => by
      have := (List.mem_filter.1 hk).2; simp only [decide_eq_true_eq] at this; simp; omega
  have gone₂ : (valid.filter fun k => decide (k < i)).filter (fun k => decide (i < k)) = [] :=
    List.filter_eq_nil_iff.2 fun k hk => by
      have := (List.mem_filter.1 hk).2; simp only [decide_eq_true_eq] at this; simp; omega
  rw [markValid, markValid, List.filter_append, List.filter_append, List.filter_append, List.filter_append, twice, twice,
    gone₁, gone₂]
  simp

/-- Marking a slot that is not valid adds one to the count. -/
theorem markValid_length_of_not_mem (valid : List Nat) (i : Nat) (hi : i ∉ valid) :
    (markValid valid i).length = valid.length + 1 := by
  have key : ∀ l : List Nat, i ∉ l →
      (l.filter fun k => decide (k < i)).length + (l.filter fun k => decide (i < k)).length = l.length := by
    intro l hl
    induction l with
    | nil => rfl
    | cons k l ih =>
      have := ih fun h => hl (by simp [h])
      have hk : k ≠ i := fun h => hl (by simp [h])
      rcases Nat.lt_or_gt_of_ne hk with h | h
      · rw [List.filter_cons_of_pos (by simpa using h), List.filter_cons_of_neg (by simp; omega)]
        simp only [List.length_cons]; omega
      · rw [List.filter_cons_of_neg (by simp; omega), List.filter_cons_of_pos (by simpa using h)]
        simp only [List.length_cons]; omega
  have := key valid hi
  simp only [markValid, List.length_append, List.length_singleton]
  omega

end Sys2Proof.Machine
end

