-- ==== Sys2Proof/Laws/Packet.lean ====
section
/-! SUPPORT. The header codec: when a datagram is accepted, what the fields are, and that the encoder's bytes read back. -/

namespace Sys2Proof

open Sys2Proof.Machine

/-! ### Bytes of 16-bit values -/

@[simp] theorem le16_length (v : Half) : (le16 v).length = 2 := rfl

theorem append_halves (v : Half) : (v.extractLsb' 8 8 ++ v.extractLsb' 0 8 : BitVec (8 + 8)) = v := by
  apply BitVec.eq_of_getLsbD_eq
  intro i hi
  simp only [BitVec.getLsbD_append, BitVec.getLsbD_extractLsb']
  by_cases h : i < 8
  · simp [h]
  · have : i - 8 < 8 := by omega
    simp [h, this, show 8 + (i - 8) = i by omega]

/-- A 16-bit value written at the front of a list and read back. -/
theorem u16le_le16_append (v : Half) (rest : List Byte) : u16le (le16 v ++ rest) 0 = v := append_halves v

theorem byteAt_append_right (pre rest : List Byte) (n i : Nat) (h : pre.length = n) :
    byteAt (pre ++ rest) (n + i) = byteAt rest i := by
  simp only [byteAt, List.getD_eq_getElem?_getD]
  rw [List.getElem?_append_right (by omega)]
  congr 2
  omega

theorem byteAt_append_left (pre rest : List Byte) (i : Nat) (h : i < pre.length) :
    byteAt (pre ++ rest) i = byteAt pre i := by
  simp only [byteAt, List.getD_eq_getElem?_getD]
  rw [List.getElem?_append_left h]

theorem u16le_append_right (pre rest : List Byte) (n i : Nat) (h : pre.length = n) :
    u16le (pre ++ rest) (n + i) = u16le rest i := by
  simp only [u16le]
  rw [show n + i + 1 = n + (i + 1) by omega, byteAt_append_right pre rest n _ h, byteAt_append_right pre rest n _ h]

theorem byteAt_drop (b : List Byte) (n i : Nat) : byteAt (b.drop n) i = byteAt b (n + i) := by
  simp [byteAt, List.getD_eq_getElem?_getD]

theorem u16le_drop (b : List Byte) (n i : Nat) : u16le (b.drop n) i = u16le b (n + i) := by
  simp only [u16le, byteAt_drop]
  rfl

theorem u16le_toNat (b : List Byte) (i : Nat) :
    (u16le b i).toNat = (byteAt b i).toNat + 256 * (byteAt b (i + 1)).toNat := by
  have h : (u16le b i).toNat = (byteAt b (i + 1) ++ byteAt b i : BitVec (8 + 8)).toNat := rfl
  have hb := (byteAt b i).isLt
  rw [h, BitVec.toNat_append, ← Nat.shiftLeft_add_eq_or_of_lt (by simpa using hb), Nat.shiftLeft_eq]
  omega

/-! ### The line field -/

@[simp] theorem lastFlag_lineField (isLast : Bool) (startLine : BitVec 15) :
    lastFlag (lineField isLast startLine) = isLast := by
  have h : lastFlag (lineField isLast startLine) = (BitVec.ofBool isLast ++ startLine : BitVec (1 + 15)).getLsbD 15 := rfl
  rw [h, BitVec.getLsbD_append]
  simp

@[simp] theorem startLineOf_lineField (isLast : Bool) (startLine : BitVec 15) :
    startLineOf (lineField isLast startLine) = startLine := by
  have h : startLineOf (lineField isLast startLine) = (BitVec.ofBool isLast ++ startLine : BitVec (1 + 15)).setWidth 15 := rfl
  rw [h]
  apply BitVec.eq_of_getLsbD_eq
  intro i hi
  rw [BitVec.getLsbD_setWidth, BitVec.getLsbD_append]
  simp [hi]

theorem startLineOf_toNat (line : Half) : (startLineOf line).toNat = line.toNat % 32768 := by
  simp [startLineOf]

theorem lastFlag_iff (line : Half) : lastFlag line = true ↔ 32768 ≤ line.toNat := by
  have := line.isLt
  simp only [lastFlag, BitVec.getLsbD, Nat.testBit_eq_decide_div_mod_eq, decide_eq_true_eq]
  omega

/-! ### Acceptance -/

/-- The fields of an accepted datagram (40_packet_codec.md R150). -/
def headerFields (dg : List Byte) (payload : Bytes 768) : VideoHeader :=
  { seq := u16le dg 0
    frame := u16le dg 2
    startLine := startLineOf (u16le dg 4)
    isLast := lastFlag (u16le dg 4)
    ppl := u16le dg 6
    lpp := byteAt dg 8
    bpp := byteAt dg 9
    payload := payload }

/-- A datagram is accepted exactly when it is well formed, and then its fields are these. -/
theorem decodeVideoHeader_ok_iff (dg : List Byte) (h : VideoHeader) :
    decodeVideoHeader dg = .ok h ↔
      videoWellFormed dg = true ∧ h.payload.bytes = dg.drop 12 ∧ h = headerFields dg h.payload := by
  simp only [decodeVideoHeader, videoWellFormed, headerFields]
  split
  · next hl =>
    split
    · next h1 => simp [h1]
    · next h1 =>
      split
      · next h2 => simp [h2]
      · next h2 =>
        split
        · next h3 => simp [h3]
        · next h3 =>
          simp only [ne_eq, not_not] at h1 h2 h3
          simp only [hl, h1, h2, h3]
          constructor
          · intro e
            cases e
            simp
          · rintro ⟨-, hp, he⟩
            rw [he]
            congr 2
            obtain ⟨_, _, _, _, _, _, _, ⟨_, _⟩⟩ := h
            simp only at hp
            subst hp
            rfl
  · next hl => simp [hl]

/-- An accepted header passed every check. -/
theorem header_of_ok {dg : List Byte} {h : VideoHeader} (e : decodeVideoHeader dg = .ok h) :
    h.ppl = 384#16 ∧ h.lpp = 4#8 ∧ h.bpp = 4#8 := by
  obtain ⟨hw, -, he⟩ := (decodeVideoHeader_ok_iff dg h).1 e
  simp only [videoWellFormed, Bool.and_eq_true, beq_iff_eq] at hw
  rw [he]
  exact ⟨hw.1.1.2, hw.1.2, hw.2⟩

theorem encodeVideoHeader_length (h : VideoHeader) (reserved : Half) : (encodeVideoHeader h reserved).length = 780 := by
  simp [encodeVideoHeader, le16, h.payload.length_eq]

theorem encodeVideoHeader_fields (h : VideoHeader) (reserved : Half) :
    u16le (encodeVideoHeader h reserved) 0 = h.seq ∧ u16le (encodeVideoHeader h reserved) 2 = h.frame ∧
    u16le (encodeVideoHeader h reserved) 4 = lineField h.isLast h.startLine ∧
    u16le (encodeVideoHeader h reserved) 6 = h.ppl ∧ byteAt (encodeVideoHeader h reserved) 8 = h.lpp ∧
    byteAt (encodeVideoHeader h reserved) 9 = h.bpp ∧ u16le (encodeVideoHeader h reserved) 10 = reserved ∧
    (encodeVideoHeader h reserved).drop 12 = h.payload.bytes :=
  ⟨append_halves _, append_halves _, append_halves _, append_halves _, rfl, rfl, append_halves _, rfl⟩

/-- The encoder's bytes decode to the header they were made from, if it would be accepted. -/
theorem decode_encodeVideoHeader (h : VideoHeader) (reserved : Half) (hp : h.ppl = 384#16) (hl : h.lpp = 4#8)
    (hb : h.bpp = 4#8) : decodeVideoHeader (encodeVideoHeader h reserved) = .ok h := by
  obtain ⟨h0, h2, h4, h6, h8, h9, -, h12⟩ := encodeVideoHeader_fields h reserved
  rw [decodeVideoHeader_ok_iff]
  refine ⟨?_, h12.symm, ?_⟩
  · simp [videoWellFormed, encodeVideoHeader_length, h6, h8, h9, hp, hl, hb]
  · simp [headerFields, h0, h2, h4, h6, h8, h9]

theorem decodeAudioHeader_ok_iff (dg : List Byte) (p : Bytes 768) :
    decodeAudioHeader dg = .ok p ↔ dg.length = 770 ∧ p.bytes = dg.drop 2 := by
  simp only [decodeAudioHeader]
  split
  · next hl =>
    simp only [hl, true_and, Except.ok.injEq]
    constructor
    · rintro rfl; rfl
    · intro h
      obtain ⟨_, _⟩ := p
      simp only at h
      subst h
      rfl
  · next hl => simp [hl]

theorem decodeAudioHeader_error_iff (dg : List Byte) (r : DiscardReason) :
    decodeAudioHeader dg = .error r ↔ dg.length ≠ 770 ∧ r = .len := by
  simp only [decodeAudioHeader]
  split
  · next hl => simp [hl]
  · next hl => simp [hl, eq_comm]

/-! ### Samples -/

theorem leWords_length (b : List Byte) : (leWords b).length = b.length / 2 := by
  induction b using leWords.induct with
  | case1 lo hi rest ih => simp only [leWords, List.length_cons, ih]; omega
  | case2 b h =>
    match b with
    | [] => simp [leWords]
    | [_] => simp [leWords]
    | lo :: hi :: rest => exact absurd rfl (h lo hi rest)

/-- Sample k is the 16-bit value at offset 2k. -/
theorem leWords_getElem (b : List Byte) (k : Nat) (h : k < (leWords b).length) : (leWords b)[k] = u16le b (2 * k) := by
  induction b using leWords.induct generalizing k with
  | case1 lo hi rest ih =>
    cases k with
    | zero => rfl
    | succ k =>
      simp only [leWords, List.getElem_cons_succ]
      rw [ih k (by simpa [leWords] using h)]
      exact (u16le_append_right [lo, hi] rest 2 (2 * k) rfl).symm.trans (by rw [show 2 + 2 * k = 2 * (k + 1) by omega]; rfl)
  | case2 b hb =>
    match b with
    | [] => simp [leWords] at h
    | [_] => simp [leWords] at h
    | lo :: hi :: rest => exact absurd rfl (hb lo hi rest)

theorem stereoPairs_length (s : List Half) : (stereoPairs s).length = s.length / 2 := by
  induction s using stereoPairs.induct with
  | case1 l r rest ih => simp only [stereoPairs, List.length_cons, ih]; omega
  | case2 s h =>
    match s with
    | [] => simp [stereoPairs]
    | [_] => simp [stereoPairs]
    | l :: r :: rest => exact absurd rfl (h l r rest)

/-- Pair p is samples 2p and 2p + 1. -/
theorem stereoPairs_getElem (s : List Half) (p : Nat) (h : p < (stereoPairs s).length) :
    (stereoPairs s)[p] = (s[2 * p]'(by rw [stereoPairs_length] at h; omega),
      s[2 * p + 1]'(by rw [stereoPairs_length] at h; omega)) := by
  induction s using stereoPairs.induct generalizing p with
  | case1 l r rest ih =>
    cases p with
    | zero => rfl
    | succ p =>
      simp only [stereoPairs, List.getElem_cons_succ]
      rw [ih p (by simpa [stereoPairs] using h)]
      simp only [show 2 * (p + 1) = 2 * p + 1 + 1 by omega, List.getElem_cons_succ]
  | case2 s hs =>
    match s with
    | [] => simp [stereoPairs] at h
    | [_] => simp [stereoPairs] at h
    | l :: r :: rest => exact absurd rfl (hs l r rest)

@[simp] theorem samples_length (p : Bytes 768) : (leWords p.bytes).length = 384 := by
  rw [leWords_length, p.length_eq]

@[simp] theorem pairs_length (p : Bytes 768) : (stereoPairs (leWords p.bytes)).length = 192 := by
  rw [stereoPairs_length, samples_length]

end Sys2Proof
end

