-- ==== Sys2Proof/Laws/Transaction.lean ====
section
/-! SUPPORT. Running transactions: every instruction answers a next state, a transaction's stages run to their end, and
what each transaction as a whole does. -/

namespace Sys2Proof.Machine

@[simp] theorem andThen_next (s : State) (f : State → Host.Outcome State Fault Refusal) : andThen (.next s) f = f s := rfl

/-! ### What one instruction can do -/

/-- Every instruction answers a next state. It takes no transaction, adds at the end of what has been sent, and hands on
less work than it is itself. -/
theorem exec_next (i : Instr) (s : State) :
    ∃ t new sent, exec i s = .next t ∧ t.stages = new ++ s.stages ∧ workload new < work i ∧
      t.arrivals = s.arrivals ∧ t.out = s.out ++ sent := by
  cases i with
  | videoDatagram dg =>
    simp only [exec, execVideoDatagram]
    split
    · exact ⟨_, [], _, rfl, rfl, by simp [workload, work], rfl, rfl⟩
    · exact ⟨_, _, [], rfl, rfl, by simp [workload, work], rfl, by simp⟩
  | addPacket frame line lpp payload isLast =>
    simp only [exec, execAddPacket]
    split
    · exact ⟨_, [], _, rfl, rfl, by simp [workload, work], rfl, rfl⟩
    · exact ⟨_, [], _, rfl, rfl, by simp [workload, work], rfl, rfl⟩
  | audioDatagram dg =>
    simp only [exec, execAudioDatagram]
    split
    · exact ⟨_, [], _, rfl, rfl, by simp [workload, work], rfl, rfl⟩
    · exact ⟨_, _, [], rfl, rfl, by simp [workload, work], rfl, by simp⟩
  | extractPcm p =>
    refine ⟨_, _, [], rfl, rfl, ?_, rfl, by simp⟩
    have : ∀ l : List (Half × Half), workload (l.map fun p => .dcFilter p.1 p.2) = l.length := by
      intro l
      induction l with
      | nil => rfl
      | cons a l ih =>
        simp only [workload, List.map_cons, List.sum_cons, work, List.length_cons] at *
        omega
    rw [filterStages, this, pairs_length]
    simp [work]
  | dcFilter xL xR =>
    simp only [exec, execDcFilter, finishBlock]
    split
    · exact ⟨_, [], _, rfl, rfl, by simp [workload, work], rfl, by simp; rfl⟩
    · exact ⟨_, [], [], rfl, rfl, by simp [workload, work], rfl, by simp⟩
  | queryStatus => exact ⟨_, [], _, rfl, rfl, by simp [workload, work], rfl, rfl⟩
  | assemble =>
    simp only [exec, execAssemble]
    split
    · exact ⟨_, [], _, rfl, rfl, by simp [workload, work], rfl, by simp [cmdOk]; rfl⟩
    · exact ⟨_, [], _, rfl, rfl, by simp [workload, work], rfl, rfl⟩
  | encodeStart id ep duration =>
    simp only [exec, execEncodeStart, answerEncoder, startCommand]
    split_ifs <;>
      first
        | exact ⟨_, _, _, rfl, rfl, by simp [workload, work], rfl, rfl⟩
        | exact ⟨_, [], _, rfl, rfl, by simp [workload, work], rfl, rfl⟩
  | encodeStop id =>
    simp only [exec, execEncodeStop, answerEncoder, stopCommand]
    split_ifs <;>
      first
        | exact ⟨_, _, _, rfl, rfl, by simp [workload, work], rfl, rfl⟩
        | exact ⟨_, [], _, rfl, rfl, by simp [workload, work], rfl, rfl⟩
  | resetVideo => exact ⟨_, [], _, rfl, rfl, by simp [workload, work], rfl, rfl⟩
  | resetAudio => exact ⟨_, [], _, rfl, rfl, by simp [workload, work], rfl, rfl⟩
  | decodeByte b => exact ⟨_, [], _, rfl, rfl, by simp [workload, work], rfl, rfl⟩
  | ctlStartVideo p => exact ⟨_, [], _, rfl, rfl, by simp [workload, work], rfl, rfl⟩
  | ctlStartAudio p => exact ⟨_, [], _, rfl, rfl, by simp [workload, work], rfl, rfl⟩
  | ctlStopVideo => exact ⟨_, [], _, rfl, rfl, by simp [workload, work], rfl, rfl⟩
  | ctlStopAudio => exact ⟨_, [], _, rfl, rfl, by simp [workload, work], rfl, rfl⟩

theorem workload_append (a b : List Instr) : workload (a ++ b) = workload a + workload b := by simp [workload]

/-! ### Running stages -/

@[simp] theorem runStages_of_nil (fuel : Nat) (s : State) (h : s.stages = []) : runStages fuel s = .next s := by
  cases fuel with
  | zero => rfl
  | succ n => simp only [runStages, h]

@[simp] theorem finishStages_of_nil (s : State) (h : s.stages = []) : finishStages s = .next s :=
  runStages_of_nil _ s h

theorem runStages_cons (fuel : Nat) (s : State) (i : Instr) (rest : List Instr) (h : s.stages = i :: rest) :
    runStages (fuel + 1) s = andThen (exec i (s.withStages rest)) (runStages fuel) := by
  simp only [runStages, h]

/-- With as much fuel as there is work, the stages run to their end: none is left, nothing is taken or withdrawn. -/
theorem runStages_completes (fuel : Nat) (s : State) (h : workload s.stages ≤ fuel) :
    ∃ t sent, runStages fuel s = .next t ∧ t.stages = [] ∧ t.arrivals = s.arrivals ∧ t.out = s.out ++ sent := by
  induction fuel generalizing s with
  | zero =>
    refine ⟨s, [], rfl, ?_, rfl, by simp⟩
    match hs : s.stages with
    | [] => rfl
    | i :: rest =>
      obtain ⟨_, _, _, -, -, hw, -⟩ := exec_next i s
      simp only [hs, workload, List.map_cons, List.sum_cons] at h
      omega
  | succ fuel ih =>
    match hs : s.stages with
    | [] => exact ⟨s, [], runStages_of_nil _ s hs, hs, rfl, by simp⟩
    | i :: rest =>
      obtain ⟨t, new, sent, he, hst, hw, harr, hout⟩ := exec_next i (s.withStages rest)
      have hle : workload t.stages ≤ fuel := by
        rw [hst, workload_append, State.withStages_stages]
        simp only [hs, workload, List.map_cons, List.sum_cons] at h hw ⊢
        omega
      obtain ⟨u, sent', hu, hus, hua, huo⟩ := ih t hle
      refine ⟨u, sent ++ sent', ?_, hus, hua.trans harr, ?_⟩
      · rw [runStages_cons fuel s i rest hs, he, andThen_next, hu]
      · rw [huo, hout, State.withStages_out, List.append_assoc]

theorem finishStages_completes (s : State) :
    ∃ t sent, finishStages s = .next t ∧ t.stages = [] ∧ t.arrivals = s.arrivals ∧ t.out = s.out ++ sent :=
  runStages_completes _ s (Nat.le_refl _)

/-- One stage that hands on nothing. -/
theorem finishStages_single (s : State) (i : Instr) (t : State) (h : s.stages = [i])
    (he : exec i (s.withStages []) = .next t) (ht : t.stages = []) : finishStages s = .next t := by
  have hpos : ∃ n, workload s.stages = n + 1 := by
    obtain ⟨_, _, _, -, -, hw, -⟩ := exec_next i s
    exact ⟨work i - 1, by simp only [h, workload, List.map_cons, List.map_nil, List.sum_cons, List.sum_nil]; omega⟩
  obtain ⟨n, hn⟩ := hpos
  rw [finishStages, hn, runStages_cons n s i [] h, he, andThen_next, runStages_of_nil n t ht]

/-- An instruction that hands on nothing is the whole of its transaction. -/
theorem perform_of_no_stage (i : Instr) (s t : State) (he : exec i s = .next t) (ht : t.stages = []) :
    perform i s = .next t := by
  rw [perform, he, andThen_next, finishStages_of_nil t ht]

theorem perform_completes (i : Instr) (s : State) :
    ∃ t sent, perform i s = .next t ∧ t.stages = [] ∧ t.arrivals = s.arrivals ∧ t.out = s.out ++ sent := by
  obtain ⟨t, new, sent, he, -, -, harr, hout⟩ := exec_next i s
  obtain ⟨u, sent', hu, hus, hua, huo⟩ := finishStages_completes t
  exact ⟨u, sent ++ sent', by rw [perform, he, andThen_next, hu], hus, hua.trans harr, by
    rw [huo, hout, List.append_assoc]⟩

/-! ### Steps -/

theorem step_idle (s : State) (h : s.stages = []) (ha : s.arrivals = []) : step s = .next s := by
  simp only [step, stepCore, h, ha]

theorem step_take (s : State) (t : Txn) (rest : List Txn) (h : s.stages = []) (ha : s.arrivals = t :: rest) :
    step s = transact t (s.withArrivals rest) := by
  simp only [step, stepCore, h, ha]

theorem step_stages (s : State) (h : s.stages ≠ []) : step s = finishStages s := by
  simp only [step, stepCore]
  split
  · rfl
  · next hs => exact absurd hs h

theorem transact_ok (t : Txn) (s : State) (i : Instr) (h : decodeTxn t = .ok i) : transact t s = perform i s := by
  simp only [transact, h]

theorem transact_error (t : Txn) (s : State) (e : CmdError) (h : decodeTxn t = .error e) :
    transact t s = .next (cmdError e s) := by
  simp only [transact, h]

/-- What a step can be: nothing waits, a transaction is performed, a request is refused, or stages go on. -/
theorem step_cases (s : State) :
    (s.stages = [] ∧ s.arrivals = [] ∧ step s = .next s) ∨
    (∃ t rest i, s.stages = [] ∧ s.arrivals = t :: rest ∧ decodeTxn t = .ok i ∧
      step s = perform i (s.withArrivals rest)) ∨
    (∃ t rest e, s.stages = [] ∧ s.arrivals = t :: rest ∧ decodeTxn t = .error e ∧
      step s = .next (cmdError e (s.withArrivals rest))) ∨
    (s.stages ≠ [] ∧ step s = finishStages s) := by
  by_cases hs : s.stages = []
  · match ha : s.arrivals with
    | [] => exact .inl ⟨hs, rfl, step_idle s hs ha⟩
    | t :: rest =>
      match hd : decodeTxn t with
      | .ok i => exact .inr (.inl ⟨t, rest, i, hs, rfl, hd, by rw [step_take s t rest hs ha, transact_ok t _ i hd]⟩)
      | .error e =>
        exact .inr (.inr (.inl ⟨t, rest, e, hs, rfl, hd, by rw [step_take s t rest hs ha, transact_error t _ e hd]⟩))
  · exact .inr (.inr (.inr ⟨hs, step_stages s hs⟩))

/-- Fuel beyond the workload changes nothing. -/
theorem runStages_fuel (s : State) (n m : Nat) (hn : workload s.stages ≤ n) (hm : workload s.stages ≤ m) :
    runStages n s = runStages m s := by
  induction n generalizing s m with
  | zero =>
    match hs : s.stages with
    | [] => rw [runStages_of_nil _ _ hs, runStages_of_nil _ _ hs]
    | i :: rest =>
      obtain ⟨_, _, _, -, -, hw, -⟩ := exec_next i s
      rw [hs] at hn
      simp only [workload, List.map_cons, List.sum_cons] at hn
      omega
  | succ n ih =>
    match hs : s.stages with
    | [] => rw [runStages_of_nil _ _ hs, runStages_of_nil _ _ hs]
    | i :: rest =>
      obtain ⟨t, new, sent, he, hst, hw, -⟩ := exec_next i (s.withStages rest)
      have hload : workload t.stages < workload s.stages := by
        rw [hst, hs, workload_append]
        simp only [workload, List.map_cons, List.sum_cons, State.withStages_stages] at *
        omega
      obtain ⟨k, rfl⟩ : ∃ k, m = k + 1 := ⟨m - 1, by omega⟩
      rw [runStages_cons n s i rest hs, runStages_cons k s i rest hs, he, andThen_next, andThen_next]
      exact ih t k (by omega) (by omega)

/-! ### The transactions of VIN -/

theorem perform_video_discarded (dg : List Byte) (s : State) (r : DiscardReason) (h : decodeVideoHeader dg = .error r)
    (hs : s.stages = []) : perform (.videoDatagram dg) s = .next (discardVideo r s) :=
  perform_of_no_stage _ _ _ (by simp only [exec, execVideoDatagram, h]) hs

/-- ADD_PACKET hands nothing on. -/
theorem execAddPacket_stages (frame : Half) (line : BitVec 15) (lpp : Byte) (payload : Bytes 768) (isLast : Bool)
    (s t : State) (h : execAddPacket frame line lpp payload isLast s = .next t) : t.stages = s.stages := by
  simp only [execAddPacket] at h
  split at h <;> cases h <;> rfl

theorem perform_video_accepted (dg : List Byte) (s : State) (h : VideoHeader) (hd : decodeVideoHeader dg = .ok h)
    (hs : s.stages = []) :
    perform (.videoDatagram dg) s = execAddPacket h.frame h.startLine h.lpp h.payload h.isLast s := by
  have he : exec (.videoDatagram dg) s =
      .next (s.schedule [.addPacket h.frame h.startLine h.lpp h.payload h.isLast]) := by
    simp only [exec, execVideoDatagram, hd]
  obtain ⟨t, -, -, ht, -⟩ := exec_next (.addPacket h.frame h.startLine h.lpp h.payload h.isLast) s
  have hback : (s.schedule [.addPacket h.frame h.startLine h.lpp h.payload h.isLast]).withStages [] = s := by
    cases s
    simp only at hs
    subst hs
    rfl
  rw [perform, he, andThen_next]
  simp only [exec] at ht
  rw [ht]
  refine finishStages_single _ (.addPacket h.frame h.startLine h.lpp h.payload h.isLast) t (by simp [hs]) ?_
    ((execAddPacket_stages _ _ _ _ _ _ _ ht).trans hs)
  rw [hback]
  exact ht

/-! ### The transactions of AIN -/

theorem perform_audio_discarded (dg : List Byte) (s : State) (r : DiscardReason) (h : decodeAudioHeader dg = .error r)
    (hs : s.stages = []) : perform (.audioDatagram dg) s = .next (discardAudio r s) :=
  perform_of_no_stage _ _ _ (by simp only [exec, execAudioDatagram, h]) hs

/-- Filtering sample pairs one by one until the block has its 384 samples. -/
theorem runStages_filter (pairs : List (Half × Half)) (s : State) (fuel : Nat) (hne : pairs ≠ [])
    (hs : s.stages = pairs.map fun p => .dcFilter p.1 p.2) (hfuel : pairs.length ≤ fuel)
    (hlen : s.pcm.length + 2 * pairs.length = 384) :
    runStages fuel s = .next
      { s with
        stages := []
        audio := (filterPairs s.audio pairs).1
        pcm := []
        out := s.out ++ [⟨.ainResponse, [0#8, 0#8]⟩, ⟨.aout, pcmBytes (s.pcm ++ (filterPairs s.audio pairs).2)⟩] } := by
  induction pairs generalizing s fuel with
  | nil => exact absurd rfl hne
  | cons p pairs ih =>
    obtain ⟨xL, xR⟩ := p
    obtain ⟨fuel, rfl⟩ : ∃ n, fuel = n + 1 := ⟨fuel - 1, by simp only [List.length_cons] at hfuel; omega⟩
    rw [runStages_cons fuel s _ _ hs]
    simp only [exec, execDcFilter, andThen_next, finishBlock]
    simp only [List.length_cons] at hlen hfuel
    split
    · next hfull =>
      simp at hfull
      have hnil : pairs = [] := List.length_eq_zero_iff.1 (by omega)
      subst hnil
      rw [runStages_of_nil _ _ (by simp)]
      simp [filterPairs, State.emit, State.withPcm, State.withAudio, State.withStages, ainResponse]
    · next hfull =>
      simp at hfull
      rw [ih _ fuel (by rintro rfl; simp at hlen; omega) (by simp) (by omega) (by simp; omega)]
      simp [filterPairs, State.withPcm, State.withAudio, State.withStages]

/-- The sample pairs of a payload. -/
def payloadPairs (p : Bytes 768) : List (Half × Half) := stereoPairs (leWords p.bytes)

/-- The transaction of an accepted audio datagram (40_packet_codec.md R161). -/
theorem perform_audio_accepted (dg : List Byte) (s : State) (p : Bytes 768) (hd : decodeAudioHeader dg = .ok p)
    (hs : s.stages = []) :
    perform (.audioDatagram dg) s = .next
      { s with
        audio := (filterPairs s.audio (payloadPairs p)).1
        pcm := []
        out := s.out ++ [⟨.ainResponse, [0#8, 0#8]⟩, ⟨.aout, pcmBytes (filterPairs s.audio (payloadPairs p)).2⟩] } := by
  have he : exec (.audioDatagram dg) s = .next (s.schedule [.extractPcm p]) := by
    simp only [exec, execAudioDatagram, hd]
  have hload : workload (s.schedule [.extractPcm p]).stages = 192 + 1 := by simp [hs, workload, work]
  rw [perform, he, andThen_next, finishStages, hload, runStages_cons 192 _ (.extractPcm p) [] (by simp [hs])]
  simp only [exec, execExtractPcm, andThen_next]
  have hlen : (payloadPairs p).length = 192 := pairs_length p
  rw [runStages_filter (payloadPairs p) _ 192 (by rintro h; simp [h] at hlen) (by simp [filterStages, payloadPairs])
    (by omega) (by simp [hlen])]
  cases s
  simp only at hs
  subst hs
  simp [State.schedule, State.withStages, State.withPcm]

/-! ### The encoders' transactions -/

theorem perform_start_accepted (id : Byte) (ep : Endpoint) (duration : Half) (s : State) (hs : s.stages = [])
    (hid : id = 0#8 ∨ id = 1#8) :
    perform (.encodeStart id ep duration) s = .next
      ((cmdOk (le16 (BitVec.ofNat 16 (4 + (startParams ep duration).length))) s).emit .cout
        (ctlCommand (Config.startBase + id) (startParams ep duration))) := by
  rcases hid with rfl | rfl <;>
    (rw [perform]
     simp only [exec, execEncodeStart, answerEncoder, startCommand, andThen_next]
     refine finishStages_single _ _ _ (by simp [cmdOk, hs]; rfl) rfl ?_ |>.trans ?_
     · simp [cmdOk]
     · congr 1
       cases s
       simp only at hs
       subst hs
       rfl)

theorem perform_stop_accepted (id : Byte) (s : State) (hs : s.stages = []) (hid : id = 0#8 ∨ id = 1#8) :
    perform (.encodeStop id) s = .next
      ((cmdOk (le16 4#16) s).emit .cout (ctlCommand (Config.stopBase + id) [])) := by
  rcases hid with rfl | rfl <;>
    (rw [perform]
     simp only [exec, execEncodeStop, answerEncoder, stopCommand, andThen_next]
     refine finishStages_single _ _ _ (by simp [cmdOk, hs]; rfl) rfl ?_ |>.trans ?_
     · simp [cmdOk]
     · congr 1
       cases s
       simp only at hs
       subst hs
       rfl)

theorem perform_start_refused (id : Byte) (ep : Endpoint) (duration : Half) (s : State) (hs : s.stages = [])
    (h0 : id ≠ 0#8) (h1 : id ≠ 1#8) : perform (.encodeStart id ep duration) s = .next (cmdError .stream s) :=
  perform_of_no_stage _ _ _ (by simp [exec, execEncodeStart, answerEncoder, startCommand, h0, h1]) hs

theorem perform_stop_refused (id : Byte) (s : State) (hs : s.stages = []) (h0 : id ≠ 0#8) (h1 : id ≠ 1#8) :
    perform (.encodeStop id) s = .next (cmdError .stream s) :=
  perform_of_no_stage _ _ _ (by simp [exec, execEncodeStop, answerEncoder, stopCommand, h0, h1]) hs

end Sys2Proof.Machine
end

