-- ==== Sys2Proof/Laws/Assembler.lean ====
section
/-! SUPPORT. The frame reassembler: what adding a packet does to each register, and that it keeps the assembler's
invariants. -/

namespace Sys2Proof.Machine

/-! ### Small facts -/

theorem packetIndex_eq (line : BitVec 15) : packetIndex line 4#8 = line.toNat / 4 := rfl

theorem packetIndex_lt (line : BitVec 15) : packetIndex line 4#8 < Config.maxPackets := by
  have := line.isLt
  rw [packetIndex_eq]
  simp only [Config.maxPackets]
  omega

/-- Rising indices below `n` are at most `n` many. -/
theorem rising_length_le (l : List Nat) (n : Nat) (h : l.Pairwise (· < ·)) (hb : ∀ i ∈ l, i < n) : l.length ≤ n := by
  have nodup : l.Nodup := h.imp Nat.ne_of_lt
  have sub : l ⊆ List.range n := fun i hi => List.mem_range.2 (hb i hi)
  simpa using (List.subperm_of_subset nodup sub).length_le

theorem markValid_length_pos (valid : List Nat) (i : Nat) : 1 ≤ (markValid valid i).length := by
  simp only [markValid, List.length_append, List.length_singleton]
  omega

/-! ### The fields after a frame switch -/

@[simp] theorem switchFrame_of_switch {v : VideoState} {frame : Half} (h : isFrameSwitch v frame = true) :
    switchFrame v frame = v.clearFrame.track frame := if_pos h

@[simp] theorem switchFrame_of_same {v : VideoState} {frame : Half} (h : isFrameSwitch v frame = false) :
    switchFrame v frame = v := by simp [switchFrame, h]

@[simp] theorem switchFrame_trkValid (v : VideoState) (frame : Half) : (switchFrame v frame).trkValid = true := by
  cases h : isFrameSwitch v frame
  · simp only [switchFrame_of_same h]
    cases ht : v.trkValid
    · simp [isFrameSwitch, ht] at h
    · rfl
  · simp only [switchFrame_of_switch h]; rfl

@[simp] theorem switchFrame_trkFrame (v : VideoState) (frame : Half) : (switchFrame v frame).trkFrame = frame := by
  cases h : isFrameSwitch v frame
  · simp only [switchFrame_of_same h]
    simp [isFrameSwitch] at h
    exact h.2.symm
  · simp only [switchFrame_of_switch h]; rfl

@[simp] theorem switchFrame_slotLine (v : VideoState) (frame : Half) : (switchFrame v frame).slotLine = v.slotLine := by
  cases h : isFrameSwitch v frame
  · rw [switchFrame_of_same h]
  · rw [switchFrame_of_switch h]; rfl

@[simp] theorem switchFrame_slotData (v : VideoState) (frame : Half) : (switchFrame v frame).slotData = v.slotData := by
  cases h : isFrameSwitch v frame
  · rw [switchFrame_of_same h]
  · rw [switchFrame_of_switch h]; rfl

theorem switchFrame_slotValid (v : VideoState) (frame : Half) :
    (switchFrame v frame).slotValid = if isFrameSwitch v frame then [] else v.slotValid := by
  cases h : isFrameSwitch v frame
  · simp [switchFrame_of_same h]
  · simp [switchFrame_of_switch h, VideoState.track, VideoState.clearFrame]

theorem switchFrame_expCount (v : VideoState) (frame : Half) :
    (switchFrame v frame).expCount = if isFrameSwitch v frame then 0#16 else v.expCount := by
  cases h : isFrameSwitch v frame
  · simp [switchFrame_of_same h]
  · simp [switchFrame_of_switch h, VideoState.track, VideoState.clearFrame]

theorem switchFrame_height (v : VideoState) (frame : Half) :
    (switchFrame v frame).height = if isFrameSwitch v frame then 0#16 else v.height := by
  cases h : isFrameSwitch v frame
  · simp [switchFrame_of_same h]
  · simp [switchFrame_of_switch h, VideoState.track, VideoState.clearFrame]

/-! ### Adding a packet -/

/-- Everything ADD_PACKET can do (41_frame_assembler.md R183, R185): turn the packet away, or write each register so. -/
theorem addPacketTo_cases (capacity : Nat) (v : VideoState) (frame : Half) (line : BitVec 15) (lpp : Byte)
    (payload : Bytes 768) (isLast : Bool) :
    (capacity ≤ packetIndex line lpp ∧ addPacketTo capacity v frame line lpp payload isLast = .error .capacity) ∨
    ∃ w, packetIndex line lpp < capacity ∧ addPacketTo capacity v frame line lpp payload isLast = .ok w ∧
      w.trkValid = true ∧ w.trkFrame = frame ∧
      w.slotValid = markValid (if isFrameSwitch v frame then [] else v.slotValid) (packetIndex line lpp) ∧
      w.slotLine = sparseWrite 0#15 v.slotLine (packetIndex line lpp) [line] ∧
      w.slotData = Memory.writeBlock v.slotData (slotAddr (packetIndex line lpp) 0) payload.bytes ∧
      w.expCount = (if isLast then BitVec.ofNat 16 (packetIndex line lpp + 1)
        else if isFrameSwitch v frame then 0#16 else v.expCount) ∧
      w.height = (if isLast then BitVec.ofNat 16 (line.toNat + lpp.toNat)
        else if isFrameSwitch v frame then 0#16 else v.height) := by
  simp only [addPacketTo]
  split
  · next h => exact .inl ⟨h, rfl⟩
  · next h =>
    refine .inr ⟨_, Nat.lt_of_not_le h, rfl, ?_⟩
    cases isLast <;>
      simp [VideoState.storeSlot, VideoState.setGeometry, switchFrame_slotValid, switchFrame_expCount,
        switchFrame_height]

/-- With the default capacity a packet of an accepted datagram is stored (41_frame_assembler.md R183). -/
theorem addPacketTo_default (v : VideoState) (frame : Half) (line : BitVec 15) (payload : Bytes 768) (isLast : Bool) :
    ∃ w, addPacketTo Config.maxPackets v frame line 4#8 payload isLast = .ok w := by
  have h := packetIndex_lt line
  rcases addPacketTo_cases Config.maxPackets v frame line 4#8 payload isLast with ⟨h', -⟩ | ⟨w, -, e, -⟩
  · omega
  · exact ⟨w, e⟩

/-- The line of the slot written is the packet's; every other slot keeps its own. -/
theorem slotLineAt_write (m : List (Nat × BitVec 15)) (idx : Nat) (line : BitVec 15) (i : Nat) :
    sparseRead 0#15 (sparseWrite 0#15 m idx [line]) i = if i = idx then line else sparseRead 0#15 m i := by
  split
  · next h => subst h; simpa using sparseRead_sparseWrite_inside m i [line] 0 (by simp)
  · next h => exact sparseRead_sparseWrite_outside m idx [line] i (by simp; omega)

/-- The bytes of the slot written are the payload's; every other slot keeps its own. -/
theorem slotByte_write (m : List Host.Cell) (idx : Nat) (payload : Bytes 768) (i off : Nat) (ho : off < 768) :
    Memory.read (Memory.writeBlock m (slotAddr idx 0) payload.bytes) (slotAddr i off) =
      if i = idx then byteAt payload.bytes off else Memory.read m (slotAddr i off) := by
  have hlen := payload.length_eq
  split
  · next h =>
    subst h
    have e : slotAddr i off = slotAddr i 0 + off := by simp [slotAddr]
    rw [e, Memory.read_writeBlock_inside _ _ _ off (by omega)]
    simp [byteAt, List.getD_eq_getElem?_getD, List.getElem?_eq_getElem (h := show off < payload.bytes.length by omega)]
  · next h =>
    refine Memory.read_writeBlock_outside _ _ _ _ ?_
    rcases Nat.lt_or_gt_of_ne h with h | h
    · left; simp only [slotAddr]; omega
    · right; simp only [slotAddr]; omega

/-- The invariants of the assembler, as one. -/
def AssemblerInv (v : VideoState) : Prop := LineBufferCanonical v ∧ AssemblerConsistent v ∧ SlotLinesInPlace v

/-- ADD_PACKET keeps them. -/
theorem addPacketTo_inv (v w : VideoState) (frame : Half) (line : BitVec 15) (payload : Bytes 768) (isLast : Bool)
    (hv : AssemblerInv v) (h : addPacketTo Config.maxPackets v frame line 4#8 payload isLast = .ok w) :
    AssemblerInv w := by
  obtain ⟨⟨hrise, hbound, hline, hmem⟩, ⟨hcount, hexp, hheight, hempty, -, hzero, hrange⟩, hplace⟩ := hv
  have hlt := packetIndex_lt line
  have hl := line.isLt
  rcases addPacketTo_cases Config.maxPackets v frame line 4#8 payload isLast with
    ⟨h', -⟩ | ⟨u, -, e, htv, -, hsv, hsl, hsd, hec, hh⟩
  · omega
  rw [h] at e
  cases e
  have hbase : (if isFrameSwitch v frame then [] else v.slotValid).Pairwise (· < ·) := by
    split
    · exact List.Pairwise.nil
    · exact hrise
  have hrise' : w.slotValid.Pairwise (· < ·) := hsv ▸ markValid_pairwise _ _ hbase
  have hbound' : ∀ i ∈ w.slotValid, i < Config.maxPackets := by
    intro i hi
    rw [hsv, mem_markValid] at hi
    rcases hi with rfl | hi
    · exact hlt
    · split at hi
      · simp at hi
      · exact hbound i hi
  refine ⟨⟨hrise', hbound', ?_, ?_⟩, ⟨?_, ?_, ?_, ?_, ?_, ?_, ?_⟩, ?_⟩
  · rw [hsl]; exact sparseWrite_wf _ _ _ hline
  · rw [hsd]; exact Memory.writeBlock_wf _ _ _ hmem
  · exact rising_length_le _ _ hrise' hbound'
  · rw [hec]
    simp only [packetIndex_eq, Config.maxPackets] at hlt ⊢
    split
    · rw [BitVec.toNat_ofNat]; omega
    · split
      · simp
      · exact hexp
  · rw [hh]
    split
    · rw [BitVec.toNat_ofNat]; simp; omega
    · split
      · simp
      · exact hheight
  · intro hf; rw [htv] at hf; cases hf
  · intro _; rw [packetCount, hsv]; exact markValid_length_pos _ _
  · rw [hec, hh]
    simp only [packetIndex_eq]
    split
    · simp only [← BitVec.toNat_inj, BitVec.toNat_ofNat, show (4#8).toNat = 4 from rfl]
      omega
    · split
      · simp
      · exact hzero
  · rw [hec, hh]
    simp only [packetIndex_eq]
    split
    · simp only [BitVec.toNat_ofNat, show (4#8).toNat = 4 from rfl]
      omega
    · split
      · simp
      · exact hrange
  · intro i hi
    rw [slotLineAt, hsl, slotLineAt_write]
    rw [hsv, mem_markValid] at hi
    split
    · next h => rw [h, packetIndex_eq]
    · next h =>
      rcases hi with hi | hi
      · exact absurd hi h
      · split at hi
        · simp at hi
        · exact hplace i hi

/-- RESET_VIDEO keeps them. -/
theorem toReset_inv (v : VideoState) (hv : AssemblerInv v) : AssemblerInv v.toReset := by
  obtain ⟨⟨-, -, hline, hmem⟩, -, -⟩ := hv
  refine ⟨⟨List.Pairwise.nil, by simp [VideoState.toReset, VideoState.clearFrame], hline, hmem⟩, ?_, ?_⟩
  · simp [AssemblerConsistent, VideoState.toReset, VideoState.clearFrame, packetCount]
  · simp [SlotLinesInPlace, VideoState.toReset, VideoState.clearFrame]

theorem reset_inv : AssemblerInv VideoState.reset := by
  refine ⟨⟨List.Pairwise.nil, by simp [VideoState.reset], by decide, by decide⟩, ?_, ?_⟩
  · simp [AssemblerConsistent, VideoState.reset, packetCount]
  · simp [SlotLinesInPlace, VideoState.reset]

end Sys2Proof.Machine
end

