-- ==== Sys2Proof/Laws/Text.lean ====
section
/-! SUPPORT. The text of a start command: decimal numbers read back, and the text of an endpoint reads back. -/

namespace Sys2Proof.Machine

/-- An ASCII digit. -/
abbrev isDigit (b : Byte) : Prop := 0x30#8 ≤ b ∧ b ≤ 0x39#8

theorem asciiDigit_toNat (n : Nat) (h : n < 10) : (asciiDigit n).toNat = 0x30 + n := by
  simp only [asciiDigit, BitVec.toNat_ofNat]
  omega

theorem asciiDigit_isDigit (n : Nat) (h : n < 10) : isDigit (asciiDigit n) := by
  have := asciiDigit_toNat n h
  simp only [isDigit, BitVec.le_def, this]
  exact ⟨by simp, by simp; omega⟩

theorem decDigits_isDigit (fuel n : Nat) : ∀ b ∈ decDigits fuel n, isDigit b := by
  induction fuel generalizing n with
  | zero => simp [decDigits]
  | succ fuel ih =>
    intro b hb
    simp only [decDigits] at hb
    split at hb
    · next h =>
      rw [List.mem_singleton] at hb
      rw [hb]
      exact asciiDigit_isDigit n h
    · rcases List.mem_append.1 hb with hb | hb
      · exact ih _ b hb
      · rw [List.mem_singleton] at hb
        rw [hb]
        exact asciiDigit_isDigit _ (Nat.mod_lt _ (by decide))

theorem readNumber_digit (acc : Nat) (b : Byte) (rest : List Byte) (h : isDigit b) :
    readNumber acc (b :: rest) = readNumber (10 * acc + (b.toNat - 0x30)) rest := by
  simp only [readNumber]
  exact if_pos h

theorem readNumber_stop (acc : Nat) (b : Byte) (rest : List Byte) (h : ¬ isDigit b) :
    readNumber acc (b :: rest) = (acc, b :: rest) := by
  simp only [readNumber]
  exact if_neg h

/-- Reading digits is the same as reading their prefix, then the rest. -/
theorem readNumber_append (acc : Nat) (digits rest : List Byte) (h : ∀ b ∈ digits, isDigit b) :
    readNumber acc (digits ++ rest) = readNumber (readNumber acc digits).1 rest := by
  induction digits generalizing acc with
  | nil => rfl
  | cons b digits ih =>
    rw [List.cons_append, readNumber_digit _ _ _ (h b (by simp)), readNumber_digit _ _ _ (h b (by simp)),
      ih _ fun c hc => h c (by simp [hc])]

/-- With enough fuel, the digits of a number are read back as the number. -/
theorem readNumber_decDigits (fuel n : Nat) (h : n < 10 ^ fuel) : (readNumber 0 (decDigits fuel n)).1 = n := by
  induction fuel generalizing n with
  | zero => simp at h; simp [decDigits, readNumber, h]
  | succ fuel ih =>
    simp only [decDigits]
    split
    · next hn =>
      rw [readNumber_digit _ _ _ (asciiDigit_isDigit n hn), asciiDigit_toNat n hn]
      simp [readNumber]
    · have hm : n % 10 < 10 := Nat.mod_lt _ (by decide)
      rw [readNumber_append _ _ _ (decDigits_isDigit _ _), ih (n / 10) (by rw [pow_succ] at h; omega),
        readNumber_digit _ _ _ (asciiDigit_isDigit _ hm), asciiDigit_toNat _ hm]
      simp only [readNumber]
      omega

theorem decDigits_length (fuel n : Nat) : (decDigits (fuel + 1) n).length ≤ fuel + 1 ∧ 1 ≤ (decDigits (fuel + 1) n).length := by
  induction fuel generalizing n with
  | zero => simp only [decDigits]; split <;> simp
  | succ fuel ih =>
    rw [decDigits]
    split
    · simp
    · have := ih (n / 10)
      simp only [List.length_append, List.length_singleton]
      omega

theorem decDigits_length_le (fuel n k : Nat) (h : n < 10 ^ (k + 1)) : (decDigits fuel n).length ≤ k + 1 := by
  induction fuel generalizing n k with
  | zero => simp [decDigits]
  | succ fuel ih =>
    rw [decDigits]
    split
    · simp
    · next hn =>
      obtain ⟨k, rfl⟩ : ∃ j, k = j + 1 := ⟨k - 1, by
        rcases Nat.eq_zero_or_pos k with rfl | hk
        · simp at h; omega
        · omega⟩
      have := ih (n / 10) k (by rw [pow_succ] at h; omega)
      simp only [List.length_append, List.length_singleton]
      omega

/-- A number of more than one digit does not begin with '0'. -/
theorem decDigits_head (fuel n : Nat) (hn : 0 < n) (h : n < 10 ^ fuel) :
    ∃ b rest, decDigits fuel n = b :: rest ∧ b ≠ 0x30#8 := by
  induction fuel generalizing n with
  | zero => simp at h; omega
  | succ fuel ih =>
    rw [decDigits]
    split
    · next hlt =>
      refine ⟨_, [], rfl, fun e => ?_⟩
      have := congrArg BitVec.toNat e
      rw [asciiDigit_toNat n hlt] at this
      simp at this
      omega
    · obtain ⟨b, rest, e, hb⟩ := ih (n / 10) (by omega) (by rw [pow_succ] at h; omega)
      exact ⟨b, rest ++ [asciiDigit (n % 10)], by rw [e]; rfl, hb⟩

theorem dec_isDigit (n : Nat) : ∀ b ∈ dec n, isDigit b := decDigits_isDigit 5 n

theorem readNumber_dec (n : Nat) (h : n < 100000) : (readNumber 0 (dec n)).1 = n :=
  readNumber_decDigits 5 n h

/-- A number, then something that is no digit: the number is read and the rest is left. -/
theorem readNumber_dec_append (n : Nat) (b : Byte) (rest : List Byte) (h : n < 100000) (hb : ¬ isDigit b) :
    readNumber 0 (dec n ++ b :: rest) = (n, b :: rest) := by
  rw [readNumber_append _ _ _ (dec_isDigit n), readNumber_dec n h, readNumber_stop _ _ _ hb]

theorem readNumber_dec_end (n : Nat) (h : n < 100000) : readNumber 0 (dec n) = (n, []) := by
  have e := readNumber_append 0 (dec n) [] (dec_isDigit n)
  rw [List.append_nil, readNumber_dec n h] at e
  rw [e]
  rfl

theorem dot_not_digit : ¬ isDigit asciiDot := by decide

theorem colon_not_digit : ¬ isDigit asciiColon := by decide

/-- The text of an endpoint reads back as the endpoint. -/
theorem parseEndpoint_endpointText (e : Endpoint) : parseEndpoint (endpointText e) = some e := by
  have ha := e.a.isLt
  have hb := e.b.isLt
  have hc := e.c.isLt
  have hd := e.d.isLt
  have hp := e.port.isLt
  have form : endpointText e = dec e.a.toNat ++ asciiDot :: (dec e.b.toNat ++ asciiDot :: (dec e.c.toNat ++ asciiDot ::
      (dec e.d.toNat ++ asciiColon :: dec e.port.toNat))) := by simp [endpointText]
  unfold parseEndpoint
  rw [form, readNumber_dec_append _ _ _ (by omega) dot_not_digit]
  simp only [List.drop_succ_cons, List.drop_zero]
  rw [readNumber_dec_append _ _ _ (by omega) dot_not_digit]
  simp only [List.drop_succ_cons, List.drop_zero]
  rw [readNumber_dec_append _ _ _ (by omega) dot_not_digit]
  simp only [List.drop_succ_cons, List.drop_zero]
  rw [readNumber_dec_append _ _ _ (by omega) colon_not_digit]
  simp only [List.drop_succ_cons, List.drop_zero]
  rw [readNumber_dec_end _ (by omega)]
  simp only [BitVec.ofNat_toNat, BitVec.setWidth_eq]
  rw [form, if_pos rfl]

/-- The text has 9 to 21 bytes (44_control.md R291). -/
theorem endpointText_length (e : Endpoint) : 9 ≤ (endpointText e).length ∧ (endpointText e).length ≤ 21 := by
  have octet : ∀ x : Byte, 1 ≤ (dec x.toNat).length ∧ (dec x.toNat).length ≤ 3 := fun x =>
    ⟨(decDigits_length 4 _).2, decDigits_length_le 5 _ 2 (by have := x.isLt; omega)⟩
  have hp : 1 ≤ (dec e.port.toNat).length ∧ (dec e.port.toNat).length ≤ 5 :=
    ⟨(decDigits_length 4 _).2, (decDigits_length 4 _).1⟩
  have ha := octet e.a
  have hb := octet e.b
  have hc := octet e.c
  have hd := octet e.d
  simp only [endpointText, List.length_append, List.length_singleton]
  omega

theorem startParams_length (e : Endpoint) (d : Half) : (startParams e d).length = 2 + (endpointText e).length := by
  simp [startParams]

/-- The parameter bytes of a start command read back. -/
theorem parseStartParams_startParams (e : Endpoint) (d : Half) : parseStartParams (startParams e d) = some (e, d) := by
  have hdrop : (startParams e d).drop 2 = endpointText e := rfl
  have hdur : u16le (startParams e d) 0 = d := u16le_le16_append d _
  rw [parseStartParams, hdrop, parseEndpoint_endpointText]
  simp [hdur]

end Sys2Proof.Machine
end

