-- ==== Sys2Proof/Laws/Decode.lean ====
section
/-! SUPPORT. Decoding what the encoder writes: command requests and control commands. -/

namespace Sys2Proof

open Sys2Proof.Machine

/-! ### Control commands -/

theorem ctlCommand_length (c : Byte) (params : List Byte) : (ctlCommand c params).length = 4 + params.length := by
  simp only [ctlCommand, List.length_append, List.length_cons, List.length_nil, le16_length]

theorem ctlCommand_kind (c : Byte) (params : List Byte) : byteAt (ctlCommand c params) 0 = c := rfl

theorem ctlCommand_marker (c : Byte) (params : List Byte) : byteAt (ctlCommand c params) 1 = Config.cmdMarker := rfl

theorem ctlCommand_paramLength (c : Byte) (params : List Byte) :
    u16le (ctlCommand c params) 2 = BitVec.ofNat 16 params.length := append_halves _

theorem ctlCommand_drop (c : Byte) (params : List Byte) : (ctlCommand c params).drop 4 = params := rfl

/-- A control command whose parameters fit its length field passes every check but the one on its first byte. -/
theorem decodeCtl_ctlCommand (c : Byte) (params : List Byte) (h : params.length < 65536) :
    decodeCtl (ctlCommand c params) =
      match c.toNat with
      | 0x20 => .ok (.ctlStartVideo params)
      | 0x21 => .ok (.ctlStartAudio params)
      | 0x30 => if BitVec.ofNat 16 params.length = 0#16 then .ok .ctlStopVideo else .error .paramLength
      | 0x31 => if BitVec.ofNat 16 params.length = 0#16 then .ok .ctlStopAudio else .error .paramLength
      | _ => .error .commandByte := by
  rw [decodeCtl, ctlCommand_length, ctlCommand_kind, ctlCommand_marker, ctlCommand_paramLength, ctlCommand_drop,
    if_neg (by omega), if_neg (by simp), BitVec.toNat_ofNat, Nat.mod_eq_of_lt h, if_neg (by simp)]
  first | done | rfl

/-- Parameter bytes that have the form of a start command's are those of one endpoint and duration. -/
theorem parseStartParams_eq_some {params : List Byte} {e : Endpoint} {d : Half}
    (h : parseStartParams params = some (e, d)) : params = startParams e d := by
  simp only [parseStartParams] at h
  split at h
  · split at h
    · next heq =>
      cases h
      exact heq.symm
    · cases h
  · cases h

/-- A well-formed start command has 11 to 23 parameter bytes (44_control.md R295). -/
theorem startParams_bounds (e : Endpoint) (d : Half) : 11 ≤ (startParams e d).length ∧ (startParams e d).length ≤ 23 := by
  have := endpointText_length e
  rw [startParams_length]
  omega

theorem params_small {params : List Byte} (h : (parseStartParams params).isSome = true) : params.length < 65536 := by
  obtain ⟨⟨e, d⟩, he⟩ := Option.isSome_iff_exists.1 h
  rw [parseStartParams_eq_some he]
  have := startParams_bounds e d
  omega

/-! ### Command requests -/

theorem decodeCmd_start (id : Byte) (ep : Endpoint) (duration : Half) :
    decodeCmd ([3#8, id, ep.a, ep.b, ep.c, ep.d] ++ le16 ep.port ++ le16 duration) = .ok (.encodeStart id ep duration) := by
  have hp : u16le ([3#8, id, ep.a, ep.b, ep.c, ep.d] ++ le16 ep.port ++ le16 duration) 6 = ep.port := append_halves _
  have hd : u16le ([3#8, id, ep.a, ep.b, ep.c, ep.d] ++ le16 ep.port ++ le16 duration) 8 = duration := append_halves _
  simp only [List.cons_append, List.nil_append] at hp hd ⊢
  simp only [decodeCmd, show (3#8).toNat = 3 from rfl, hp, hd]
  rfl

end Sys2Proof
end

