-- ==== Sys2Proof/Laws/Effect.lean ====
section
/-! SUPPORT. What a whole transaction does, in closed form: its effect on the assembler, on the filter, and what it sends. -/

namespace Sys2Proof.Machine

/-- The operations a CMD request can select (30_encoding.md R120). -/
def isRequest : Instr → Bool
  | .videoDatagram _ => false
  | .addPacket _ _ _ _ _ => false
  | .audioDatagram _ => false
  | .extractPcm _ => false
  | .dcFilter _ _ => false
  | .queryStatus => true
  | .assemble => true
  | .encodeStart _ _ _ => true
  | .encodeStop _ => true
  | .resetVideo => true
  | .resetAudio => true
  | .decodeByte _ => true
  | .ctlStartVideo _ => false
  | .ctlStartAudio _ => false
  | .ctlStopVideo => false
  | .ctlStopAudio => false

theorem ofLength_eq_ok {n : Nat} {b : List Byte} {i j : Instr} (h : ofLength n b i = .ok j) : b.length = n ∧ j = i := by
  simp only [ofLength] at h
  split at h
  · next hl => cases h; exact ⟨hl, rfl⟩
  · cases h

theorem decodeCmd_isRequest {b : List Byte} {i : Instr} (h : decodeCmd b = .ok i) : isRequest i = true := by
  cases b with
  | nil => simp [decodeCmd] at h
  | cons op rest =>
    simp only [decodeCmd] at h
    split at h
    all_goals first
      | (obtain ⟨-, rfl⟩ := ofLength_eq_ok h; rfl)
      | cases h

/-! ### The assembler -/

/-- What a transaction does to the assembler. -/
def videoEffect (t : Txn) (v : VideoState) : VideoState :=
  match t.port with
  | .vin =>
    match decodeVideoHeader t.bytes with
    | .error _ => v
    | .ok h =>
      match addPacketTo Config.maxPackets v h.frame h.startLine h.lpp h.payload h.isLast with
      | .error _ => v
      | .ok w => w
  | .ain => v
  | .cmd => if decodeCmd t.bytes = .ok .resetVideo then v.toReset else v

/-- What a transaction does to the filter. -/
def audioEffect (t : Txn) (a : AudioState) : AudioState :=
  match t.port with
  | .vin => a
  | .ain =>
    match decodeAudioHeader t.bytes with
    | .error _ => a
    | .ok p => (filterPairs a (payloadPairs p)).1
  | .cmd => if decodeCmd t.bytes = .ok .resetAudio then AudioState.reset else a

/-- An accepted audio datagram leaves no block behind. -/
def pcmEffect (t : Txn) (pcm : List Half) : List Half :=
  match t.port with
  | .vin => pcm
  | .ain =>
    match decodeAudioHeader t.bytes with
    | .error _ => pcm
    | .ok _ => []
  | .cmd => pcm

/-- What a request sends: its response, then the frame or the control command. -/
def requestSends (i : Instr) (v : VideoState) : List Transfer :=
  match i with
  | .queryStatus => [⟨.cmdResponse, 0#8 :: statusRecord v⟩]
  | .assemble =>
    if isComplete v then
      [⟨.cmdResponse, 0#8 :: frameHeader v⟩, ⟨.fout, frameHeader v ++ pixelBytes (frameRows v)⟩]
    else [⟨.cmdResponse, [1#8]⟩]
  | .encodeStart id ep duration =>
    if id = 0#8 ∨ id = 1#8 then
      [⟨.cmdResponse, 0#8 :: le16 (BitVec.ofNat 16 (4 + (startParams ep duration).length))⟩,
        ⟨.cout, ctlCommand (Config.startBase + id) (startParams ep duration)⟩]
    else [⟨.cmdResponse, [0x82#8]⟩]
  | .encodeStop id =>
    if id = 0#8 ∨ id = 1#8 then
      [⟨.cmdResponse, 0#8 :: le16 4#16⟩, ⟨.cout, ctlCommand (Config.stopBase + id) []⟩]
    else [⟨.cmdResponse, [0x82#8]⟩]
  | .decodeByte b => [⟨.cmdResponse, 0#8 :: (rgbBytes (decodePixels b).1 ++ rgbBytes (decodePixels b).2)⟩]
  | .resetVideo => [⟨.cmdResponse, [0#8]⟩]
  | .resetAudio => [⟨.cmdResponse, [0#8]⟩]
  | .videoDatagram _ => []
  | .addPacket _ _ _ _ _ => []
  | .audioDatagram _ => []
  | .extractPcm _ => []
  | .dcFilter _ _ => []
  | .ctlStartVideo _ => []
  | .ctlStartAudio _ => []
  | .ctlStopVideo => []
  | .ctlStopAudio => []

/-- The response of a VIN transaction. -/
def videoAnswer (dg : List Byte) (v : VideoState) : List Byte :=
  match decodeVideoHeader dg with
  | .error r => vinResponse (some r) v
  | .ok h =>
    match addPacketTo Config.maxPackets v h.frame h.startLine h.lpp h.payload h.isLast with
    | .error r => vinResponse (some r) v
    | .ok w => vinResponse none w

/-- What a transaction sends: its response first. -/
def sends (t : Txn) (v : VideoState) (a : AudioState) : List Transfer :=
  match t.port with
  | .vin => [⟨.vinResponse, videoAnswer t.bytes v⟩]
  | .ain =>
    match decodeAudioHeader t.bytes with
    | .error r => [⟨.ainResponse, ainResponse (some r)⟩]
    | .ok p => [⟨.ainResponse, ainResponse none⟩, ⟨.aout, pcmBytes (filterPairs a (payloadPairs p)).2⟩]
  | .cmd =>
    match decodeCmd t.bytes with
    | .error e => [⟨.cmdResponse, [cmdErrorCode e]⟩]
    | .ok i => requestSends i v

/-- A request as a whole. -/
theorem perform_request (i : Instr) (s : State) (hs : s.stages = []) (hi : isRequest i = true) :
    perform i s = .next { s with
      video := if i = .resetVideo then s.video.toReset else s.video
      audio := if i = .resetAudio then AudioState.reset else s.audio
      out := s.out ++ requestSends i s.video } := by
  cases i with
  | queryStatus => exact perform_of_no_stage _ _ _ rfl hs
  | assemble =>
    refine perform_of_no_stage _ _ _ ?_ hs
    simp only [exec, execAssemble, requestSends]
    split
    · simp [cmdOk, State.emit]
    · simp [cmdNone, State.emit]
  | encodeStart id ep duration =>
    simp only [requestSends]
    by_cases hid : id = 0#8 ∨ id = 1#8
    · rw [perform_start_accepted id ep duration s hs hid, if_pos hid]
      simp [cmdOk, State.emit]
    · rw [perform_start_refused id ep duration s hs (fun h => hid (.inl h)) (fun h => hid (.inr h)), if_neg hid]
      rfl
  | encodeStop id =>
    simp only [requestSends]
    by_cases hid : id = 0#8 ∨ id = 1#8
    · rw [perform_stop_accepted id s hs hid, if_pos hid]
      simp [cmdOk, State.emit]
    · rw [perform_stop_refused id s hs (fun h => hid (.inl h)) (fun h => hid (.inr h)), if_neg hid]
      rfl
  | resetVideo => exact perform_of_no_stage _ _ _ rfl hs
  | resetAudio => exact perform_of_no_stage _ _ _ rfl hs
  | decodeByte b => exact perform_of_no_stage _ _ _ rfl hs
  | _ => simp [isRequest] at hi

/-- Everything one transaction can do. -/
theorem transact_eq (t : Txn) (s : State) (hs : s.stages = []) :
    transact t s = .next { s with
      video := videoEffect t s.video
      audio := audioEffect t s.audio
      pcm := pcmEffect t s.pcm
      out := s.out ++ sends t s.video s.audio } := by
  obtain ⟨port, bytes⟩ := t
  cases port with
  | vin =>
    rw [transact_ok ⟨.vin, bytes⟩ s (.videoDatagram bytes) rfl]
    simp only [videoEffect, audioEffect, pcmEffect, sends, videoAnswer]
    match h : decodeVideoHeader bytes with
    | .error r => rw [perform_video_discarded bytes s r h hs]; rfl
    | .ok hd =>
      rw [perform_video_accepted bytes s hd h hs, execAddPacket]
      dsimp only
      match addPacketTo Config.maxPackets s.video hd.frame hd.startLine hd.lpp hd.payload hd.isLast with
      | .error r => rfl
      | .ok w => rfl
  | ain =>
    rw [transact_ok ⟨.ain, bytes⟩ s (.audioDatagram bytes) rfl]
    simp only [videoEffect, audioEffect, pcmEffect, sends]
    match h : decodeAudioHeader bytes with
    | .error r => rw [perform_audio_discarded bytes s r h hs]; rfl
    | .ok p => rw [perform_audio_accepted bytes s p h hs]; rfl
  | cmd =>
    simp only [videoEffect, audioEffect, pcmEffect, sends]
    match h : decodeCmd bytes with
    | .error e => rw [transact_error ⟨.cmd, bytes⟩ s e h]; simp [cmdError, State.emit]
    | .ok i =>
      rw [transact_ok ⟨.cmd, bytes⟩ s i h, perform_request i s hs (decodeCmd_isRequest h)]
      simp

/-! ### The filter over a block -/

theorem filterPairs_append (a : AudioState) (p q : List (Half × Half)) :
    filterPairs a (p ++ q) =
      ((filterPairs (filterPairs a p).1 q).1, (filterPairs a p).2 ++ (filterPairs (filterPairs a p).1 q).2) := by
  induction p generalizing a with
  | nil => rfl
  | cons x p ih =>
    obtain ⟨xL, xR⟩ := x
    simp only [List.cons_append, filterPairs, ih]

@[simp] theorem filterPairs_length (a : AudioState) (p : List (Half × Half)) : (filterPairs a p).2.length = 2 * p.length := by
  induction p generalizing a with
  | nil => rfl
  | cons x p ih =>
    obtain ⟨xL, xR⟩ := x
    simp only [filterPairs, List.length_cons, ih]
    omega

end Sys2Proof.Machine
end

