-- ==== Sys2Proof/Laws/Float64.lean ====
section
/-! SUPPORT. Binary64: what a pattern is worth, and that rounding gives a nearest number, ties to even. -/

namespace Sys2Proof.Machine

@[simp] theorem pow2_eq (k : Nat) : pow2 k = 2 ^ k := Nat.one_shiftLeft k

theorem fOne_eq : fOne = 2 ^ 1074 := pow2_eq 1074

theorem fOne_pos : 0 < fOne := by rw [fOne_eq]; positivity

theorem two_pow_53_le_fOne : 2 ^ 53 ≤ fOne := by
  have : ∀ k, 53 ≤ k → 2 ^ 53 ≤ 2 ^ k := fun k h => Nat.pow_le_pow_right (by decide) h
  rw [fOne_eq]
  exact this 1074 (by decide)

/-! ### Patterns -/

/-- The magnitude, in units of 2^-1074, that a pattern without sign stands for. -/
def patMag (p : Nat) : Nat := if p / 2 ^ 52 = 0 then p % 2 ^ 52 else (2 ^ 52 + p % 2 ^ 52) * 2 ^ (p / 2 ^ 52 - 1)

/-- The pattern without the sign bit. -/
def patOf (x : F64) : Nat := x.toNat % 2 ^ 63

theorem fExp_eq (x : F64) : fExp x = patOf x / 2 ^ 52 := by
  have := x.isLt
  simp only [fExp, patOf, BitVec.extractLsb'_toNat, Nat.shiftRight_eq_div_pow]
  omega

theorem fFrac_eq (x : F64) : fFrac x = patOf x % 2 ^ 52 := by
  have := x.isLt
  simp only [fFrac, patOf, BitVec.extractLsb'_toNat, Nat.shiftRight_eq_div_pow]
  omega

theorem fMag_eq (x : F64) : fMag x = patMag (patOf x) := by
  simp only [fMag, patMag, fExp_eq, fFrac_eq, pow2_eq]

theorem infMag_eq : infMag = 2047 * 2 ^ 52 := by simp [infMag]

theorem fFinite_iff (x : F64) : fFinite x = true ↔ patOf x < infMag := by
  have : patOf x < 2 ^ 63 := Nat.mod_lt _ (by decide)
  rw [infMag_eq]
  simp only [fFinite, fExp_eq, decide_eq_true_eq, ne_eq]
  omega

theorem fNan_of_finite {x : F64} (h : fFinite x = true) : fNan x = false := by
  simp only [fFinite, decide_eq_true_eq] at h
  simp [fNan, h]

theorem fInf_of_finite {x : F64} (h : fFinite x = true) : fInf x = false := by
  simp only [fFinite, decide_eq_true_eq] at h
  simp [fInf, h]

theorem fPack_toNat (neg : Bool) (p : Nat) (hp : p < 2 ^ 63) :
    (fPack neg p).toNat = neg.toNat * 2 ^ 63 + p := by
  have h : (fPack neg p).toNat = (BitVec.ofBool neg ++ BitVec.ofNat 63 p : BitVec (1 + 63)).toNat := rfl
  rw [h, BitVec.toNat_append, BitVec.toNat_ofNat, Nat.mod_eq_of_lt hp, ← Nat.shiftLeft_add_eq_or_of_lt hp,
    Nat.shiftLeft_eq, BitVec.toNat_ofBool]

@[simp] theorem patOf_fPack (neg : Bool) (p : Nat) (hp : p < 2 ^ 63) : patOf (fPack neg p) = p := by
  rw [patOf, fPack_toNat neg p hp]
  omega

@[simp] theorem fSign_fPack (neg : Bool) (p : Nat) (hp : p < 2 ^ 63) : fSign (fPack neg p) = neg := by
  rw [fSign, BitVec.getLsbD, fPack_toNat neg p hp, Nat.testBit_eq_decide_div_mod_eq]
  cases neg <;> simp <;> omega

theorem fFinite_fPack (neg : Bool) (p : Nat) (hp : p < infMag) : fFinite (fPack neg p) = true := by
  have : infMag < 2 ^ 63 := by rw [infMag_eq]; decide
  rw [fFinite_iff, patOf_fPack neg p (by omega)]
  exact hp

theorem fMag_fPack (neg : Bool) (p : Nat) (hp : p < 2 ^ 63) : fMag (fPack neg p) = patMag p := by
  rw [fMag_eq, patOf_fPack neg p hp]

theorem fValue_natAbs (x : F64) : (fValue x).natAbs = fMag x := by
  simp only [fValue]; split <;> simp

theorem fMag_zero : fMag 0#64 = 0 := by decide

theorem fValue_zero : fValue 0#64 = 0 := by decide

/-! ### Rounding away low bits -/

/-- The rounded quotient is within half a unit. -/
theorem roundShift_close (n q : Nat) :
    2 * ((roundShift n q * 2 ^ q : Nat) - (n : Int)).natAbs ≤ 2 ^ q := by
  have hn : n = 2 ^ q * (n / 2 ^ q) + n % 2 ^ q := (Nat.div_add_mod n (2 ^ q)).symm
  have hr : n % 2 ^ q < 2 ^ q := Nat.mod_lt _ (by positivity)
  simp only [roundShift, pow2_eq]
  generalize n % 2 ^ q = r at *
  generalize n / 2 ^ q = h at *
  subst hn
  generalize 2 ^ q = u at *
  split
  · next hc =>
    have : (((h + 1) * u : Nat) : Int) - ((u * h + r : Nat) : Int) = ((u - r : Nat) : Int) := by
      push_cast [Nat.le_of_lt hr]; ring
    rw [this, Int.natAbs_natCast]
    omega
  · next hc =>
    have : ((h * u : Nat) : Int) - ((u * h + r : Nat) : Int) = -(r : Int) := by push_cast; ring
    rw [this, Int.natAbs_neg, Int.natAbs_natCast]
    omega

/-- A tie rounds to an even number. -/
theorem roundShift_tie (n q : Nat)
    (tie : 2 * ((roundShift n q * 2 ^ q : Nat) - (n : Int)).natAbs = 2 ^ q) : q = 0 ∨ roundShift n q % 2 = 0 := by
  rcases Nat.eq_zero_or_pos q with hq | hq
  · exact .inl hq
  right
  have hn : n = 2 ^ q * (n / 2 ^ q) + n % 2 ^ q := (Nat.div_add_mod n (2 ^ q)).symm
  have hr : n % 2 ^ q < 2 ^ q := Nat.mod_lt _ (by positivity)
  simp only [roundShift, pow2_eq] at tie ⊢
  generalize n % 2 ^ q = r at *
  generalize n / 2 ^ q = h at *
  subst hn
  generalize 2 ^ q = u at *
  split at tie
  · next hc =>
    have e : (((h + 1) * u : Nat) : Int) - ((u * h + r : Nat) : Int) = ((u - r : Nat) : Int) := by
      push_cast [Nat.le_of_lt hr]; ring
    rw [e, Int.natAbs_natCast] at tie
    rw [if_pos hc]
    omega
  · next hc =>
    have e : ((h * u : Nat) : Int) - ((u * h + r : Nat) : Int) = -(r : Int) := by push_cast; ring
    rw [e, Int.natAbs_neg, Int.natAbs_natCast] at tie
    rw [if_neg hc]
    omega

/-- A multiple of the unit is its own rounding. -/
theorem roundShift_mul (m q : Nat) : roundShift (m * 2 ^ q) q = m := by
  have : 0 < 2 ^ q := by positivity
  simp only [roundShift, pow2_eq, Nat.mul_mod_left, Nat.mul_div_cancel _ this]
  rw [if_neg]
  omega

theorem roundShift_zero_right (n : Nat) : roundShift n 0 = n := by
  simpa using roundShift_mul n 0

theorem roundShift_le {n q b : Nat} (h : n ≤ b * 2 ^ q) : roundShift n q ≤ b := by
  by_contra hc
  have h1 := roundShift_close n q
  have h2 : (b + 1) * 2 ^ q ≤ roundShift n q * 2 ^ q := Nat.mul_le_mul_right _ (by omega)
  have h3 : 0 < 2 ^ q := by positivity
  rw [Nat.add_mul] at h2
  generalize roundShift n q * 2 ^ q = z at *
  generalize b * 2 ^ q = y at *
  generalize 2 ^ q = u at *
  omega

theorem le_roundShift {n q b : Nat} (h : b * 2 ^ q ≤ n) : b ≤ roundShift n q := by
  by_contra hc
  have h1 := roundShift_close n q
  have h2 : (roundShift n q + 1) * 2 ^ q ≤ b * 2 ^ q := Nat.mul_le_mul_right _ (by omega)
  have h3 : 0 < 2 ^ q := by positivity
  rw [Nat.add_mul] at h2
  generalize roundShift n q * 2 ^ q = z at *
  generalize b * 2 ^ q = y at *
  generalize 2 ^ q = u at *
  omega

/-! ### The nearest binary64 magnitude -/

/-- How many low bits are rounded away. -/
def dropBits (n k : Nat) : Nat := max k (Nat.log2 n - 52)

/-- The pattern before the cut at infinity. -/
def wideMag (n k : Nat) : Nat := (dropBits n k - k) * 2 ^ 52 + roundShift n (dropBits n k)

theorem roundMag_eq (n k : Nat) : roundMag n k = min infMag (wideMag n k) := by
  simp only [roundMag, wideMag, dropBits, pow2_eq]

theorem lt_two_pow_dropBits (n k : Nat) : n < 2 ^ 53 * 2 ^ dropBits n k := by
  rw [← pow_add]
  refine lt_of_lt_of_le (Nat.lt_log2_self (n := n)) (Nat.pow_le_pow_right (by decide) ?_)
  simp only [dropBits]; omega

theorem two_pow_dropBits_le (n k : Nat) (h : k < dropBits n k) : 2 ^ 52 * 2 ^ dropBits n k ≤ n := by
  have e : dropBits n k = Nat.log2 n - 52 := by simp only [dropBits] at *; omega
  have hn : n ≠ 0 := by rintro rfl; simp [dropBits] at h
  rw [← pow_add, show 52 + dropBits n k = Nat.log2 n by omega]
  exact Nat.log2_self_le hn

/-- What the pattern stands for: the rounded quotient, scaled back. -/
theorem patMag_wideMag (n k : Nat) :
    patMag (wideMag n k) * 2 ^ k = roundShift n (dropBits n k) * 2 ^ dropBits n k := by
  have hle : k ≤ dropBits n k := by simp only [dropBits]; omega
  have hm : roundShift n (dropBits n k) ≤ 2 ^ 53 := roundShift_le (Nat.le_of_lt (lt_two_pow_dropBits n k))
  have hlow : k < dropBits n k → 2 ^ 52 ≤ roundShift n (dropBits n k) :=
    fun h => le_roundShift (two_pow_dropBits_le n k h)
  simp only [wideMag]
  generalize roundShift n (dropBits n k) = m at *
  generalize dropBits n k = q at *
  obtain ⟨j, rfl⟩ : ∃ j, q = k + j := ⟨q - k, by omega⟩
  rw [show k + j - k = j by omega, pow_add, Nat.mul_comm (2 ^ k), ← Nat.mul_assoc]
  congr 1
  simp only [patMag]
  rcases Nat.lt_or_ge m (2 ^ 52) with h1 | h1
  · have hj : j = 0 := by
      by_contra h
      have := hlow (by omega)
      omega
    subst hj
    rw [if_pos (by omega)]
    omega
  · rcases Nat.lt_or_ge m (2 ^ 53) with h2 | h2
    · rw [if_neg (by omega), show (j * 2 ^ 52 + m) / 2 ^ 52 - 1 = j by omega,
        show 2 ^ 52 + (j * 2 ^ 52 + m) % 2 ^ 52 = m by omega]
    · have : m = 2 ^ 53 := by omega
      subst this
      rw [if_neg (by omega), show (j * 2 ^ 52 + 2 ^ 53) / 2 ^ 52 - 1 = j + 1 by omega,
        show 2 ^ 52 + (j * 2 ^ 52 + 2 ^ 53) % 2 ^ 52 = 2 ^ 52 by omega, pow_succ]
      ring

/-- A magnitude of the format is a multiple of the unit of rounding, or lies below every number that is rounded there. -/
theorem patMag_grid (p k q : Nat) (hq : k ≤ q) :
    (∃ j, patMag p * 2 ^ k = j * 2 ^ q) ∨ patMag p * 2 ^ k < 2 ^ 52 * 2 ^ q := by
  simp only [patMag]
  have hf : p % 2 ^ 52 < 2 ^ 52 := Nat.mod_lt _ (by decide)
  split
  · right
    exact Nat.mul_lt_mul_of_lt_of_le hf (Nat.pow_le_pow_right (by decide) hq) (by positivity)
  · next he =>
    rcases Nat.lt_or_ge (p / 2 ^ 52 - 1 + k) q with h | h
    · right
      rw [Nat.mul_assoc, ← pow_add]
      calc (2 ^ 52 + p % 2 ^ 52) * 2 ^ (p / 2 ^ 52 - 1 + k)
          < 2 ^ 53 * 2 ^ (p / 2 ^ 52 - 1 + k) := Nat.mul_lt_mul_of_pos_right (by omega) (by positivity)
        _ = 2 ^ 52 * 2 ^ (p / 2 ^ 52 - 1 + k + 1) := by rw [pow_succ]; ring
        _ ≤ 2 ^ 52 * 2 ^ q := Nat.mul_le_mul_left _ (Nat.pow_le_pow_right (by decide) h)
    · left
      refine ⟨(2 ^ 52 + p % 2 ^ 52) * 2 ^ (p / 2 ^ 52 - 1 + k - q), ?_⟩
      rw [Nat.mul_assoc, Nat.mul_assoc, ← pow_add, ← pow_add]
      congr 2
      omega

/-- No magnitude of the format is nearer to `n` than the rounded one; one that is as near but different makes the
pattern even. -/
theorem wideMag_nearest (n k p : Nat) :
    ((patMag (wideMag n k) * 2 ^ k : Nat) - (n : Int)).natAbs ≤ ((patMag p * 2 ^ k : Nat) - (n : Int)).natAbs ∧
    (((patMag (wideMag n k) * 2 ^ k : Nat) - (n : Int)).natAbs = ((patMag p * 2 ^ k : Nat) - (n : Int)).natAbs →
      patMag p * 2 ^ k ≠ patMag (wideMag n k) * 2 ^ k → wideMag n k % 2 = 0) := by
  have hle : k ≤ dropBits n k := by simp only [dropBits]; omega
  have close := roundShift_close n (dropBits n k)
  have tie := roundShift_tie n (dropBits n k)
  have even : wideMag n k % 2 = roundShift n (dropBits n k) % 2 := by simp only [wideMag]; omega
  have hlow := two_pow_dropBits_le n k
  have pos : 0 < 2 ^ dropBits n k := by positivity
  rw [patMag_wideMag, even]
  -- the grid: every other multiple of the unit is at least a unit away from the rounded one
  have grid : ∀ j, j ≠ roundShift n (dropBits n k) →
      2 ^ dropBits n k ≤ ((j * 2 ^ dropBits n k : Nat) - ((roundShift n (dropBits n k) * 2 ^ dropBits n k : Nat) : Int)).natAbs := by
    intro j hj
    rcases Nat.lt_or_gt_of_ne hj with h | h
    · have := Nat.mul_le_mul_right (2 ^ dropBits n k) (show j + 1 ≤ _ from h)
      rw [Nat.add_mul] at this
      omega
    · have := Nat.mul_le_mul_right (2 ^ dropBits n k) (show _ + 1 ≤ j from h)
      rw [Nat.add_mul] at this
      omega
  rcases patMag_grid p k (dropBits n k) hle with ⟨j, hj⟩ | hsmall
  · rw [hj]
    by_cases hjm : j = roundShift n (dropBits n k)
    · subst hjm
      exact ⟨Nat.le_refl _, fun _ h => absurd rfl h⟩
    · have := grid j hjm
      have unit : dropBits n k = 0 → 2 ^ dropBits n k = 1 := fun h => by rw [h, pow_zero]
      generalize j * 2 ^ dropBits n k = z at *
      generalize roundShift n (dropBits n k) * 2 ^ dropBits n k = w at *
      refine ⟨by omega, fun heq _ => ?_⟩
      rcases tie (by omega) with h0 | h0
      · have := unit h0
        omega
      · exact h0
  · rcases Nat.eq_or_lt_of_le hle with he | hlt
    · -- with no more bits dropped than the unit, every magnitude is on the grid
      have hj : patMag p * 2 ^ k = patMag p * 2 ^ dropBits n k := by rw [← he]
      rw [hj]
      by_cases hjm : patMag p = roundShift n (dropBits n k)
      · rw [hjm]
        exact ⟨Nat.le_refl _, fun _ h => absurd rfl h⟩
      · have := grid _ hjm
        have unit : dropBits n k = 0 → 2 ^ dropBits n k = 1 := fun h => by rw [h, pow_zero]
        generalize patMag p * 2 ^ dropBits n k = z at *
        generalize roundShift n (dropBits n k) * 2 ^ dropBits n k = w at *
        refine ⟨by omega, fun heq _ => ?_⟩
        rcases tie (by omega) with h0 | h0
        · have := unit h0
          omega
        · exact h0
    · have hb := hlow hlt
      by_cases hjm : 2 ^ 52 = roundShift n (dropBits n k)
      · rw [← hjm] at close ⊢
        generalize 2 ^ 52 * 2 ^ dropBits n k = w at *
        generalize patMag p * 2 ^ k = z at *
        refine ⟨by omega, fun heq _ => by omega⟩
      · have := grid _ hjm
        generalize 2 ^ 52 * 2 ^ dropBits n k = w at *
        generalize patMag p * 2 ^ k = z at *
        generalize roundShift n (dropBits n k) * 2 ^ dropBits n k = y at *
        refine ⟨by omega, fun heq _ => by omega⟩

/-- The rounding error is at most half a unit of the last place. -/
theorem wideMag_error (n k : Nat) :
    2 * ((patMag (wideMag n k) * 2 ^ k : Nat) - (n : Int)).natAbs ≤ 2 ^ k ∨
    2 ^ 53 * ((patMag (wideMag n k) * 2 ^ k : Nat) - (n : Int)).natAbs ≤ n := by
  have hle : k ≤ dropBits n k := by simp only [dropBits]; omega
  have close := roundShift_close n (dropBits n k)
  rw [patMag_wideMag]
  rcases Nat.eq_or_lt_of_le hle with he | hlt
  · left
    conv_rhs => rw [he]
    exact close
  · right
    have hb := two_pow_dropBits_le n k hlt
    generalize roundShift n (dropBits n k) * 2 ^ dropBits n k = y at *
    generalize 2 ^ dropBits n k = u at *
    omega

/-- The largest magnitude of the format. -/
def maxMag : Nat := (2 ^ 53 - 1) * 2 ^ 2045

/-- Numbers below 2^53 are far from the largest magnitude. -/
theorem mul_fOne_le_maxMag (c : Nat) (h : c < 2 ^ 53) : c * fOne ≤ maxMag := by
  have larger : ∀ k l : Nat, k ≤ l → 2 ^ k ≤ 2 ^ l := fun k l h => Nat.pow_le_pow_right (by decide) h
  rw [maxMag, fOne_eq]
  exact Nat.mul_le_mul (by omega) (larger 1074 2045 (by decide))

/-- A value no larger than the largest number rounds to a finite one. -/
theorem wideMag_lt_infMag (n k : Nat) (h : n ≤ maxMag * 2 ^ k) : wideMag n k < infMag := by
  have hle : k ≤ dropBits n k := by simp only [dropBits]; omega
  rw [infMag_eq]
  have hm : roundShift n (dropBits n k) ≤ 2 ^ 53 := roundShift_le (Nat.le_of_lt (lt_two_pow_dropBits n k))
  have hq : dropBits n k ≤ 2045 + k := by
    by_contra hc
    have h1 := two_pow_dropBits_le n k (by omega)
    have h2 : 2 ^ 52 * 2 ^ (2046 + k) ≤ 2 ^ 52 * 2 ^ dropBits n k :=
      Nat.mul_le_mul_left _ (Nat.pow_le_pow_right (by decide) (by omega))
    have h3 : maxMag * 2 ^ k < 2 ^ 52 * 2 ^ (2046 + k) := by
      rw [maxMag, show 2046 + k = 2045 + k + 1 by omega, pow_succ, Nat.mul_assoc, ← pow_add]
      have below : ∀ u : Nat, 0 < u → (2 ^ 53 - 1) * u < 2 ^ 52 * (u * 2) := fun u hu => by omega
      exact below _ (by positivity)
    omega
  simp only [wideMag]
  rcases Nat.lt_or_eq_of_le hq with h1 | h1
  · omega
  · have : roundShift n (dropBits n k) ≤ 2 ^ 53 - 1 := by
      apply roundShift_le
      rw [h1, pow_add, ← Nat.mul_assoc]
      exact h
    omega

theorem roundMag_lt_infMag (n k : Nat) (h : n ≤ maxMag * 2 ^ k) : roundMag n k = wideMag n k := by
  rw [roundMag_eq]
  exact Nat.min_eq_right (Nat.le_of_lt (wideMag_lt_infMag n k h))

theorem roundMag_le_infMag (n k : Nat) : roundMag n k ≤ infMag := by
  rw [roundMag_eq]; exact Nat.min_le_left _ _

theorem roundMag_lt (n k : Nat) : roundMag n k < 2 ^ 63 :=
  Nat.lt_of_le_of_lt (roundMag_le_infMag n k) (by rw [infMag_eq]; decide)

theorem fFinite_fPack_roundMag (neg : Bool) (n k : Nat) :
    fFinite (fPack neg (roundMag n k)) = true ↔ wideMag n k < infMag := by
  rw [fFinite_iff, patOf_fPack _ _ (roundMag_lt n k), roundMag_eq]
  omega

@[simp] theorem roundMag_zero (k : Nat) : roundMag 0 k = 0 := by
  have h : wideMag 0 k = 0 := by
    have e : dropBits 0 k = k := by simp [dropBits]
    have := roundShift_mul 0 k
    rw [Nat.zero_mul] at this
    simp [wideMag, e, this]
  rw [roundMag_eq, h]
  exact Nat.min_eq_right (Nat.zero_le _)

/-- A magnitude the format holds exactly is its own rounding. -/
theorem patMag_wideMag_exact (n k q : Nat) (hn : n < 2 ^ 53) (hq : k ≤ q) :
    patMag (wideMag (n * 2 ^ q) k) * 2 ^ k = n * 2 ^ q := by
  rw [patMag_wideMag]
  have hd : dropBits (n * 2 ^ q) k ≤ q := by
    simp only [dropBits]
    by_cases h0 : n = 0
    · subst h0; simp; omega
    · have : Nat.log2 (n * 2 ^ q) < 53 + q := by
        rw [Nat.log2_lt (by positivity), pow_add]
        exact Nat.mul_lt_mul_of_pos_right hn (by positivity)
      omega
  have e : n * 2 ^ q = n * 2 ^ (q - dropBits (n * 2 ^ q) k) * 2 ^ dropBits (n * 2 ^ q) k := by
    rw [Nat.mul_assoc, ← pow_add]; congr 2; omega
  conv_lhs => rw [show roundShift (n * 2 ^ q) (dropBits (n * 2 ^ q) k) =
    n * 2 ^ (q - dropBits (n * 2 ^ q) k) by
      conv_lhs => arg 1; rw [e]
      exact roundShift_mul _ _]
  exact e.symm

end Sys2Proof.Machine
end

