-- ==== Sys2Proof/Laws/Filter.lean ====
section
/-! SUPPORT. What addition, multiplication, conversion and the nearest integer do to finite values, and the bound the
filter keeps. -/

namespace Sys2Proof.Machine

theorem fValue_fPack (neg : Bool) (p : Nat) (hp : p < 2 ^ 63) :
    fValue (fPack neg p) = if neg then -(patMag p : Int) else (patMag p : Int) := by
  rw [fValue, fSign_fPack neg p hp, fMag_fPack neg p hp]

theorem fAdd_of_finite {a b : F64} (ha : fFinite a = true) (hb : fFinite b = true) :
    fAdd a b = if fValue a + fValue b = 0 then fPack (fSign a && fSign b) 0
      else fPack (decide (fValue a + fValue b < 0)) (roundMag (fValue a + fValue b).natAbs 0) := by
  simp [fAdd, fNan_of_finite ha, fNan_of_finite hb, fInf_of_finite ha, fInf_of_finite hb]

theorem fMul_of_finite {a b : F64} (ha : fFinite a = true) (hb : fFinite b = true) :
    fMul a b = fPack (fSign a != fSign b) (roundMag (fMag a * fMag b) 1074) := by
  simp [fMul, fNan_of_finite ha, fNan_of_finite hb, fInf_of_finite ha, fInf_of_finite hb]

theorem fValue_mul (a b : F64) :
    fValue a * fValue b = if (fSign a != fSign b) then -((fMag a * fMag b : Nat) : Int) else ((fMag a * fMag b : Nat) : Int) := by
  simp only [fValue]
  cases fSign a <;> cases fSign b <;> simp

/-- The distance between two signed values of one sign is the distance of their magnitudes. -/
theorem natAbs_signed (neg : Bool) (m n : Nat) :
    ((if neg then -(m : Int) else (m : Int)) - (if neg then -(n : Int) else (n : Int))).natAbs = ((m : Int) - n).natAbs := by
  cases neg
  · simp
  · simp only [if_true]; omega

theorem signed_self (x : Int) : (if decide (x < 0) then -(x.natAbs : Int) else (x.natAbs : Int)) = x := by
  by_cases h : x < 0
  · rw [if_pos (by simpa using h)]; omega
  · rw [if_neg (by simpa using h)]; omega

/-- The distance from a signed value to a number of the sign and magnitude given. -/
theorem natAbs_signed_sub (x : Int) (m : Nat) :
    ((if decide (x < 0) then -(m : Int) else (m : Int)) - x).natAbs = ((m : Int) - x.natAbs).natAbs := by
  by_cases h : x < 0
  · rw [if_pos (by simpa using h)]; omega
  · rw [if_neg (by simpa using h)]; omega

/-- A sum that does not overflow: finite, within half a unit in the last place of the exact sum. -/
theorem fAdd_value {a b : F64} (ha : fFinite a = true) (hb : fFinite b = true)
    (small : (fValue a + fValue b).natAbs ≤ maxMag) :
    fFinite (fAdd a b) = true ∧
      2 ^ 53 * (fValue (fAdd a b) - (fValue a + fValue b)).natAbs ≤ (fValue a + fValue b).natAbs := by
  rw [fAdd_of_finite ha hb]
  split
  · next h =>
    rw [h]
    have hz : (0 : Nat) < infMag := by rw [infMag_eq]; decide
    refine ⟨fFinite_fPack _ 0 hz, ?_⟩
    rw [fValue_fPack _ 0 (by decide)]
    simp [patMag]
  · have hs : (fValue a + fValue b).natAbs ≤ maxMag * 2 ^ 0 := by simpa using small
    refine ⟨(fFinite_fPack_roundMag _ _ _).2 (wideMag_lt_infMag _ _ hs), ?_⟩
    have err := wideMag_error (fValue a + fValue b).natAbs 0
    rw [fValue_fPack _ _ (roundMag_lt _ _), roundMag_lt_infMag _ _ hs, natAbs_signed_sub]
    rw [pow_zero, Nat.mul_one] at err
    omega

/-- A product that does not overflow: finite, within half a unit in the last place of the exact product, or within half
of the smallest unit of the format. -/
theorem fMul_value {a b : F64} (ha : fFinite a = true) (hb : fFinite b = true)
    (small : fMag a * fMag b ≤ maxMag * fOne) :
    fFinite (fMul a b) = true ∧
      (2 * (fValue (fMul a b) * fOne - fValue a * fValue b).natAbs ≤ fOne ∨
       2 ^ 53 * (fValue (fMul a b) * fOne - fValue a * fValue b).natAbs ≤ (fValue a * fValue b).natAbs) := by
  rw [fMul_of_finite ha hb]
  rw [fOne_eq] at small
  refine ⟨(fFinite_fPack_roundMag _ _ _).2 (wideMag_lt_infMag _ _ small), ?_⟩
  have err := wideMag_error (fMag a * fMag b) 1074
  rw [fValue_fPack _ _ (roundMag_lt _ _), roundMag_lt_infMag _ _ small, fValue_mul]
  rw [← fOne_eq] at err
  generalize fMag a * fMag b = n at *
  generalize wideMag n 1074 = w at *
  generalize (fSign a != fSign b) = neg at *
  have e : (if neg then -(patMag w : Int) else (patMag w : Int)) * fOne =
      if neg then -((patMag w * fOne : Nat) : Int) else ((patMag w * fOne : Nat) : Int) := by
    cases neg <;> simp
  rw [e, natAbs_signed]
  have e2 : (if neg then -(n : Int) else (n : Int)).natAbs = n := by cases neg <;> simp
  rw [e2]
  exact err

/-- Every integer below 2^53 is converted exactly. -/
theorem fOfInt_value (n : Int) (h : n.natAbs < 2 ^ 53) :
    fFinite (fOfInt n) = true ∧ fValue (fOfInt n) = n * fOne ∧ fSign (fOfInt n) = decide (n < 0) := by
  have small : n.natAbs * fOne ≤ maxMag * 2 ^ 0 := by
    simpa using mul_fOne_le_maxMag n.natAbs h
  have exact_ := patMag_wideMag_exact n.natAbs 0 1074 h (by decide)
  rw [pow_zero, Nat.mul_one, ← fOne_eq] at exact_
  refine ⟨(fFinite_fPack_roundMag _ _ _).2 (wideMag_lt_infMag _ _ small), ?_, fSign_fPack _ _ (roundMag_lt _ _)⟩
  rw [fOfInt, fValue_fPack _ _ (roundMag_lt _ _), roundMag_lt_infMag _ _ small, exact_]
  by_cases hn : n < 0
  · rw [if_pos (by simpa using hn), Nat.cast_mul, Int.natCast_natAbs, abs_of_neg hn]
    ring
  · rw [if_neg (by simpa using hn), Nat.cast_mul, Int.natCast_natAbs, abs_of_nonneg (by omega)]

/-- The nearest integer is within one half; a tie gives an even one. -/
theorem rneInt_value (y : F64) :
    2 * (rneInt y * fOne - fValue y).natAbs ≤ fOne ∧
      (2 * (rneInt y * fOne - fValue y).natAbs = fOne → rneInt y % 2 = 0) := by
  have close := roundShift_close (fMag y) 1074
  have tie := roundShift_tie (fMag y) 1074
  rw [← fOne_eq] at close tie
  have e : (rneInt y * fOne - fValue y).natAbs =
      ((roundShift (fMag y) 1074 * fOne : Nat) - (fMag y : Int)).natAbs := by
    rw [← natAbs_signed (fSign y)]
    congr 2
    simp only [rneInt]
    cases fSign y <;> simp
  rw [e]
  refine ⟨close, fun h => ?_⟩
  have := (tie h).resolve_left (by decide)
  simp only [rneInt]
  split <;> omega

theorem alpha_finite : fFinite Config.alpha = true := by decide

theorem alpha_sign : fSign Config.alpha = false := by decide

/-- ALPHA is 8962163258467287 / 2^53 (43_audio.md R261). -/
theorem alpha_value : fMag Config.alpha * 2 ^ 53 = 8962163258467287 * fOne := by decide

theorem toInt_bounds (x : Half) : -32768 ≤ x.toInt ∧ x.toInt ≤ 32767 := by
  have h1 := BitVec.le_toInt x
  have h2 := BitVec.toInt_lt (x := x)
  constructor
  · simpa using h1
  · have : x.toInt < 32768 := by simpa using h2
    omega

/-- A sample's value lies within the range of samples. -/
theorem sample_scaled (x : Half) : -32768 * (fOne : Int) ≤ x.toInt * fOne ∧ x.toInt * fOne ≤ 32767 * (fOne : Int) := by
  have h := toInt_bounds x
  have hp : (0 : Int) ≤ fOne := by omega
  exact ⟨Int.mul_le_mul_of_nonneg_right h.1 hp, Int.mul_le_mul_of_nonneg_right h.2 hp⟩

/-- The arithmetic behind `fMul_alpha`, for any unit: `a` is A / 2^53 of the unit `u`, and `t` is near to `a * y / u`. -/
theorem scaled_product_error (u a : Nat) (t y : Int) (A : Nat) (hA : A ≤ 2 ^ 53) (hu : 2 ^ 53 ≤ u)
    (ha : a * 2 ^ 53 = A * u) (hy : y.natAbs ≤ 2 ^ 17 * u)
    (herr : 2 * (t * u - a * y).natAbs ≤ u ∨ 2 ^ 53 * (t * u - a * y).natAbs ≤ (a * y).natAbs) :
    (2 ^ 53 * t - A * y).natAbs ≤ 2 ^ 17 * u := by
  have haz : (a : Int) * 2 ^ 53 = A * u := by exact_mod_cast ha
  have hau : a ≤ u := by nlinarith
  have scaled : (2 ^ 53 * t - A * y).natAbs * u = 2 ^ 53 * (t * u - a * y).natAbs := by
    have e : (2 ^ 53 * t - A * y) * u = 2 ^ 53 * (t * u - a * y) := by linear_combination y * haz
    have := congrArg Int.natAbs e
    rwa [Int.natAbs_mul, Int.natAbs_mul, Int.natAbs_natCast] at this
  refine Nat.le_of_mul_le_mul_right (c := u) ?_ (by omega)
  rw [scaled]
  rcases herr with herr | herr
  · have : 2 ^ 53 * u ≤ 2 ^ 17 * u * u := Nat.mul_le_mul_right _ (by omega)
    omega
  · refine herr.trans ?_
    rw [Int.natAbs_mul, Int.natAbs_natCast]
    exact (Nat.mul_le_mul hau hy).trans (Nat.le_of_eq (by ring))

theorem le_of_scaled {a u A c : Nat} (h : a * c = A * u) (hA : A ≤ c ∧ 0 < c) : a ≤ u := by
  have : A * u ≤ c * u := Nat.mul_le_mul_right _ hA.1
  exact Nat.le_of_mul_le_mul_left (by rw [Nat.mul_comm c a]; omega) hA.2

theorem product_small {a m u c top : Nat} (ha : a ≤ u) (hm : m ≤ c * u) (hc : c * u ≤ top) : a * m ≤ top * u :=
  calc a * m ≤ u * (c * u) := Nat.mul_le_mul ha hm
    _ = c * u * u := by ring
    _ ≤ top * u := Nat.mul_le_mul_right _ hc

/-- The product with ALPHA of a value the filter can hold. -/
theorem fMul_alpha {y : F64} (hy : fFinite y = true) (h : (fValue y).natAbs ≤ 2 ^ 17 * fOne) :
    fFinite (fMul Config.alpha y) = true ∧
      (2 ^ 53 * fValue (fMul Config.alpha y) - (8962163258467287 : Nat) * fValue y).natAbs ≤ 2 ^ 17 * fOne := by
  have ha := alpha_value
  have hone := two_pow_53_le_fOne
  have hmax := mul_fOne_le_maxMag (2 ^ 17) (by decide)
  have hv : fValue Config.alpha = (fMag Config.alpha : Int) := by simp [fValue, alpha_sign]
  have hau : fMag Config.alpha ≤ fOne := le_of_scaled ha (by decide)
  rw [fValue_natAbs] at h
  obtain ⟨hfin, herr⟩ := fMul_value alpha_finite hy (product_small hau h hmax)
  rw [hv] at herr
  rw [← fValue_natAbs] at h
  exact ⟨hfin, scaled_product_error fOne (fMag Config.alpha) (fValue (fMul Config.alpha y)) (fValue y) 8962163258467287
    (by decide) hone ha h herr⟩

/-- Only a magnitude of zero has the pattern zero. -/
theorem patMag_eq_zero {p : Nat} (h : patMag p = 0) : p = 0 := by
  simp only [patMag] at h
  split at h
  · omega
  · have : 0 < 2 ^ (p / 2 ^ 52 - 1) := by positivity
    rcases Nat.mul_eq_zero.1 h with h | h <;> omega

/-- A sum that is not zero does not round to zero. -/
theorem roundMag_ne_zero {n : Nat} (hn : n ≠ 0) : roundMag n 0 ≠ 0 := by
  intro h
  rw [roundMag_eq, infMag_eq] at h
  have hw : wideMag n 0 = 0 := by omega
  have err := wideMag_error n 0
  rw [hw] at err
  simp [patMag] at err
  omega

/-- A sum is -0.0 only if both operands are. -/
theorem fAdd_ne_negZero {a b : F64} (ha : fFinite a = true) (hb : fFinite b = true)
    (h : fSign a = true → fSign b = true → fValue a + fValue b ≠ 0) : fAdd a b ≠ 0x8000000000000000#64 := by
  rw [fAdd_of_finite ha hb]
  intro hz
  have hv : fValue 0x8000000000000000#64 = 0 := by decide
  have hs : fSign 0x8000000000000000#64 = true := by decide
  split at hz
  · next h0 =>
    have := congrArg fSign hz
    rw [fSign_fPack _ _ (by decide), hs, Bool.and_eq_true] at this
    exact h this.1 this.2 h0
  · next h0 =>
    have := congrArg patOf hz
    rw [patOf_fPack _ _ (roundMag_lt _ _)] at this
    exact roundMag_ne_zero (n := (fValue a + fValue b).natAbs) (by omega) this

/-- One filter step keeps the bound of a channel. -/
theorem dcStep_bounded (ch : DcChannel) (x : Half) (h : ChannelBounded ch) : ChannelBounded (dcStep ch x) := by
  obtain ⟨hfin, -, hnear⟩ := h
  have hx := toInt_bounds x
  have hi := toInt_bounds ch.dcIn
  have hxs := sample_scaled x
  have his := sample_scaled ch.dcIn
  have hone := fOne_pos
  obtain ⟨hdfin, hdval, hdsign⟩ := fOfInt_value (x.toInt - ch.dcIn.toInt) (by omega)
  have hysize : (fValue ch.dcOut).natAbs ≤ 2 ^ 17 * fOne := by omega
  obtain ⟨hpfin, hperr⟩ := fMul_alpha hfin hysize
  rw [Int.sub_mul] at hdval
  have hsum : (fValue (fOfInt (x.toInt - ch.dcIn.toInt)) + fValue (fMul Config.alpha ch.dcOut)).natAbs ≤ 2 ^ 18 * fOne := by
    rw [hdval]; omega
  have hsmall : 2 ^ 18 * fOne ≤ maxMag := mul_fOne_le_maxMag _ (by decide)
  obtain ⟨hyfin, hyerr⟩ := fAdd_value hdfin hpfin (hsum.trans hsmall)
  rw [hdval] at hyerr
  refine ⟨hyfin, ?_, ?_⟩
  · refine fAdd_ne_negZero hdfin hpfin ?_
    intro h1 h2
    rw [hdsign, decide_eq_true_eq] at h1
    have hstep : (x.toInt - ch.dcIn.toInt) * (fOne : Int) ≤ -1 * (fOne : Int) :=
      Int.mul_le_mul_of_nonneg_right (by omega) (by omega)
    rw [Int.sub_mul] at hstep
    have hneg : fValue (fMul Config.alpha ch.dcOut) ≤ 0 := by
      simp only [fValue, h2, if_true]
      omega
    rw [hdval]
    omega
  · simp only [dcStep]
    omega

end Sys2Proof.Machine
end

