-- ==== Sys2Proof/Laws/Frame.lean ====
section
/-! SUPPORT. The frame ASSEMBLE builds: its size, and which slot gives each pixel. -/

namespace Sys2Proof.Machine

section

variable {α β : Type}

/-- An element of pieces of one length laid end to end. -/
theorem flatMap_getElem? (l : List α) (f : α → List β) (n : Nat) (h : ∀ x ∈ l, (f x).length = n) (i j : Nat) (hj : j < n) :
    (l.flatMap f)[n * i + j]? = l[i]?.bind fun x => (f x)[j]? := by
  induction l generalizing i with
  | nil => simp
  | cons x l ih =>
    have hx : (f x).length = n := h x (by simp)
    rw [List.flatMap_cons]
    cases i with
    | zero =>
      rw [List.getElem?_append_left (by omega)]
      simp
    | succ i =>
      rw [List.getElem?_append_right (by rw [hx, Nat.mul_succ]; omega), hx,
        show n * (i + 1) + j - n = n * i + j by rw [Nat.mul_succ]; omega, ih (fun y hy => h y (by simp [hy]))]
      simp

theorem flatMap_length (l : List α) (f : α → List β) (n : Nat) (h : ∀ x ∈ l, (f x).length = n) :
    (l.flatMap f).length = n * l.length := by
  induction l with
  | nil => simp
  | cons x l ih =>
    rw [List.flatMap_cons, List.length_append, h x (by simp), ih fun y hy => h y (by simp [hy]), List.length_cons,
      Nat.mul_succ, Nat.add_comm]

end

/-! ### One row -/

@[simp] theorem rgbBytes_length (c : Rgb) : (rgbBytes c).length = 3 := rfl

theorem decodeRow_length (bytes : List Byte) : (decodeRow bytes).length = 2 * bytes.length :=
  flatMap_length _ _ 2 fun _ _ => rfl

/-- Column `c` comes from a nibble of byte c / 2 (41_frame_assembler.md R201, 42_pixel_decoder.md R234). -/
theorem decodeRow_getElem? (bytes : List Byte) (c : Nat) :
    (decodeRow bytes)[c]? =
      bytes[c / 2]?.map fun b => Config.palette (if c % 2 = 0 then lowNibble b else highNibble b) := by
  have h := flatMap_getElem? bytes (fun b => [(decodePixels b).1, (decodePixels b).2]) 2 (fun _ _ => rfl) (c / 2) (c % 2)
    (Nat.mod_lt _ (by decide))
  rw [Nat.div_add_mod] at h
  rw [decodeRow, h]
  cases bytes[c / 2]? with
  | none => rfl
  | some b =>
    rcases Nat.mod_two_eq_zero_or_one c with hc | hc <;> simp [hc, decodePixels]

@[simp] theorem subLine_length (v : VideoState) (i j : Nat) : (subLine v i j).length = 192 := Memory.readBlock_length _ _ _

theorem subLine_getElem? (v : VideoState) (i j k : Nat) (hv : Memory.wf v.slotData) (hk : k < 192) :
    (subLine v i j)[k]? = some (slotByte v i (192 * j + k)) := by
  simp [subLine, Memory.readBlock_eq_map _ _ _ hv, hk, slotByte, slotAddr, Nat.add_assoc]

/-! ### Drawing -/

/-- Drawing a slot replaces the rows it covers and no other (41_frame_assembler.md R201). -/
theorem drawSlot_getElem? (v : VideoState) (rows : List (List Rgb)) (i r : Nat) :
    (drawSlot v rows i)[r]? =
      if covers v i r then rows[r]?.map fun _ => decodeRow (subLine v i (r - (slotLineAt v i).toNat)) else rows[r]? := by
  generalize hL : (slotLineAt v i).toNat = L
  simp only [drawSlot, List.range, List.range.loop, List.foldl, drawSubLine, covers, hL, Bool.and_eq_true, decide_eq_true_eq,
    List.getElem?_set, List.length_set]
  by_cases h3 : L + 3 = r
  · subst h3
    by_cases hlen : L + 3 < rows.length <;> simp [hlen]
  by_cases h2 : L + 2 = r
  · subst h2
    by_cases hlen : L + 2 < rows.length <;> simp [hlen]
  by_cases h1 : L + 1 = r
  · subst h1
    by_cases hlen : L + 1 < rows.length <;> simp [hlen]
  by_cases h0 : L + 0 = r
  · subst h0
    by_cases hlen : L < rows.length <;> simp [hlen]
  rw [if_neg h3, if_neg h2, if_neg h1, if_neg h0, if_neg (by omega)]

@[simp] theorem drawSlot_length (v : VideoState) (rows : List (List Rgb)) (i : Nat) :
    (drawSlot v rows i).length = rows.length := by
  simp [drawSlot, List.range, List.range.loop, drawSubLine]

@[simp] theorem drawSlots_length (v : VideoState) (slots : List Nat) (rows : List (List Rgb)) :
    (slots.foldl (drawSlot v) rows).length = rows.length := by
  induction slots generalizing rows with
  | nil => rfl
  | cons i slots ih => rw [List.foldl_cons, ih, drawSlot_length]

/-- A row no slot covers keeps what it held. -/
theorem drawSlots_untouched (v : VideoState) (slots : List Nat) (rows : List (List Rgb)) (r : Nat)
    (h : ∀ i ∈ slots, covers v i r = false) : (slots.foldl (drawSlot v) rows)[r]? = rows[r]? := by
  induction slots generalizing rows with
  | nil => rfl
  | cons i slots ih =>
    rw [List.foldl_cons, ih _ fun k hk => h k (by simp [hk]), drawSlot_getElem?, h i (by simp)]
    simp

/-- On a row several slots cover, the highest one is drawn last (41_frame_assembler.md R203). -/
theorem drawSlots_top (v : VideoState) (slots : List Nat) (rows : List (List Rgb)) (r i : Nat)
    (rise : slots.Pairwise (· < ·)) (hi : i ∈ slots) (hc : covers v i r = true)
    (top : ∀ k ∈ slots, i < k → covers v k r = false) :
    (slots.foldl (drawSlot v) rows)[r]? =
      rows[r]?.map fun _ => decodeRow (subLine v i (r - (slotLineAt v i).toNat)) := by
  induction slots generalizing rows with
  | nil => simp at hi
  | cons k slots ih =>
    obtain ⟨hk, hrest⟩ := List.pairwise_cons.1 rise
    rw [List.foldl_cons]
    rcases List.mem_cons.1 hi with rfl | hi
    · rw [drawSlots_untouched v slots _ r fun m hm => top m (by simp [hm]) (hk m hm), drawSlot_getElem?, if_pos hc]
    · rw [ih _ hrest hi fun m hm => top m (by simp [hm]), drawSlot_getElem?]
      split
      · rw [Option.map_map]
        rfl
      · rfl

/-- Every row of a frame has 384 pixels. -/
theorem drawSlots_width (v : VideoState) (slots : List Nat) (rows : List (List Rgb)) (h : ∀ row ∈ rows, row.length = 384) :
    ∀ row ∈ slots.foldl (drawSlot v) rows, row.length = 384 := by
  induction slots generalizing rows with
  | nil => exact h
  | cons i slots ih =>
    rw [List.foldl_cons]
    refine ih _ fun row hrow => ?_
    obtain ⟨r, hr⟩ := List.mem_iff_getElem?.1 hrow
    rw [drawSlot_getElem?] at hr
    split at hr
    · obtain ⟨old, -, rfl⟩ := Option.map_eq_some_iff.1 hr
      rw [decodeRow_length, subLine_length]
    · exact h row (List.mem_iff_getElem?.2 ⟨r, hr⟩)

/-! ### The frame -/

@[simp] theorem frameRows_length (v : VideoState) : (frameRows v).length = v.height.toNat := by simp [frameRows]

theorem frameRows_width (v : VideoState) : ∀ row ∈ frameRows v, row.length = 384 :=
  drawSlots_width v _ _ fun row hrow => by rw [List.eq_of_mem_replicate hrow]; exact List.length_replicate

theorem rowBytes_length (row : List Rgb) (h : row.length = 384) : (row.flatMap rgbBytes).length = 1152 := by
  rw [flatMap_length _ _ 3 fun _ _ => rfl, h]

theorem pixelBytes_length (rows : List (List Rgb)) (h : ∀ row ∈ rows, row.length = 384) :
    (pixelBytes rows).length = 1152 * rows.length :=
  flatMap_length _ _ 1152 fun row hrow => rowBytes_length row (h row hrow)

/-- The three bytes of pixel (r, c) lie at 3 (384 r + c) (20_memory.md R79). -/
theorem pixelBytes_getElem? (rows : List (List Rgb)) (h : ∀ row ∈ rows, row.length = 384) (r c k : Nat) (hc : c < 384)
    (hk : k < 3) :
    (pixelBytes rows)[3 * (384 * r + c) + k]? = rows[r]?.bind fun row => row[c]?.bind fun p => (rgbBytes p)[k]? := by
  rw [show 3 * (384 * r + c) + k = 1152 * r + (3 * c + k) by omega, pixelBytes,
    flatMap_getElem? rows _ 1152 (fun row hrow => rowBytes_length row (h row hrow)) r _ (by omega)]
  cases rows[r]? with
  | none => rfl
  | some row =>
    simp only [Option.bind_some]
    rw [flatMap_getElem? row _ 3 (fun _ _ => rfl) c k hk]

/-- The row of a frame that no valid slot covers, and the row the highest covering slot gives. -/
theorem frameRows_getElem? (v : VideoState) (r : Nat) (hr : r < v.height.toNat) :
    ((∀ i ∈ v.slotValid, covers v i r = false) → (frameRows v)[r]? = some blankRow) ∧
    (∀ i ∈ v.slotValid, v.slotValid.Pairwise (· < ·) → covers v i r = true →
      (∀ k ∈ v.slotValid, i < k → covers v k r = false) →
      (frameRows v)[r]? = some (decodeRow (subLine v i (r - (slotLineAt v i).toNat)))) := by
  have base : (List.replicate v.height.toNat blankRow)[r]? = some blankRow := by simp [hr]
  refine ⟨fun h => ?_, fun i hi rise hc top => ?_⟩
  · rw [frameRows, drawSlots_untouched v _ _ r h, base]
  · rw [frameRows, drawSlots_top v _ _ r i rise hi hc top, base]
    rfl

end Sys2Proof.Machine
end

