-- ==== Sys2Proof/Laws/PerInstr.lean ====
section
/-! SUPPORT. The family RowMatch, over all instructions: the bytes of a well-formed instruction are selected by its row of
the opcode table (30_encoding.md R130). -/

namespace Sys2Proof.Laws.RowMatch

open Sys2Proof Sys2Proof.Machine

/-- The bytes a wire carries. -/
def wireBytes : Wire → List Byte
  | .txn t => t.bytes
  | .command b => b

/-- The mask and the match of a row, as bytes from the lowest offset on. -/
def row : Instr → List Byte × List Byte
  | .videoDatagram _ => ([0, 0, 0, 0, 0, 0, 0xFF, 0xFF, 0xFF, 0xFF], [0, 0, 0, 0, 0, 0, 0x80, 0x01, 0x04, 0x04])
  | .addPacket _ _ _ _ _ => ([0, 0, 0, 0, 0, 0, 0xFF, 0xFF, 0xFF, 0xFF], [0, 0, 0, 0, 0, 0, 0x80, 0x01, 0x04, 0x04])
  | .audioDatagram _ => ([0, 0], [0, 0])
  | .extractPcm _ => ([0, 0], [0, 0])
  | .dcFilter _ _ => ([0, 0], [0, 0])
  | .queryStatus => ([0xFF], [0x01])
  | .assemble => ([0xFF], [0x02])
  | .encodeStart _ _ _ => ([0xFF], [0x03])
  | .encodeStop _ => ([0xFF], [0x04])
  | .resetVideo => ([0xFF], [0x05])
  | .resetAudio => ([0xFF], [0x06])
  | .decodeByte _ => ([0xFF], [0x07])
  | .ctlStartVideo _ => ([0xFF, 0xFF], [0x20, 0xFF])
  | .ctlStartAudio _ => ([0xFF, 0xFF], [0x21, 0xFF])
  | .ctlStopVideo => ([0xFF, 0xFF, 0xFF, 0xFF], [0x30, 0xFF, 0x00, 0x00])
  | .ctlStopAudio => ([0xFF, 0xFF, 0xFF, 0xFF], [0x31, 0xFF, 0x00, 0x00])

/-- The bytes select a row: masked, each is the row's. -/
def selects (b mask bits : List Byte) : Prop :=
  mask.length ≤ b.length ∧ ∀ j < mask.length, byteAt b j &&& byteAt mask j = byteAt bits j

/-- The encoding of a well-formed instruction is selected by its row. -/
def Statement (i : Instr) : Prop :=
  i.wellFormed = true → selects (wireBytes (encode i)) (row i).1 (row i).2

/-- The first ten bytes of a well-formed video datagram. -/
theorem selects_video (dg : List Byte) (h : videoWellFormed dg = true) :
    selects dg [0, 0, 0, 0, 0, 0, 0xFF, 0xFF, 0xFF, 0xFF] [0, 0, 0, 0, 0, 0, 0x80, 0x01, 0x04, 0x04] := by
  simp only [videoWellFormed, Bool.and_eq_true, beq_iff_eq] at h
  obtain ⟨⟨⟨hlen, hppl⟩, hlpp⟩, hbpp⟩ := h
  have hsum : (u16le dg 6).toNat = (byteAt dg 6).toNat + 256 * (byteAt dg 7).toNat := u16le_toNat dg 6
  have h6 := (byteAt dg 6).isLt
  have h7 := (byteAt dg 7).isLt
  rw [hppl, show (384#16).toNat = 384 from rfl] at hsum
  have e6 : byteAt dg 6 = 0x80#8 := BitVec.eq_of_toNat_eq (by change (byteAt dg 6).toNat = 128; omega)
  have e7 : byteAt dg 7 = 0x01#8 := BitVec.eq_of_toNat_eq (by change (byteAt dg 7).toNat = 1; omega)
  refine ⟨by simp [hlen], fun j hj => ?_⟩
  have cases_ : j = 0 ∨ j = 1 ∨ j = 2 ∨ j = 3 ∨ j = 4 ∨ j = 5 ∨ j = 6 ∨ j = 7 ∨ j = 8 ∨ j = 9 := by
    simp only [List.length_cons, List.length_nil] at hj
    omega
  rcases cases_ with rfl | rfl | rfl | rfl | rfl | rfl | rfl | rfl | rfl | rfl
  · exact BitVec.and_zero
  · exact BitVec.and_zero
  · exact BitVec.and_zero
  · exact BitVec.and_zero
  · exact BitVec.and_zero
  · exact BitVec.and_zero
  · rw [e6]; rfl
  · rw [e7]; rfl
  · rw [hlpp]; rfl
  · rw [hbpp]; rfl

/-- Any two bytes are selected by a row without a mask. -/
theorem selects_audio (b : List Byte) (h : 2 ≤ b.length) : selects b [0, 0] [0, 0] := by
  refine ⟨h, fun j hj => ?_⟩
  have cases_ : j = 0 ∨ j = 1 := by
    simp only [List.length_cons, List.length_nil] at hj
    omega
  rcases cases_ with rfl | rfl <;> exact BitVec.and_zero

/-- The first bytes of a control command. -/
theorem selects_start (c : Byte) (params : List Byte) : selects (ctlCommand c params) [0xFF, 0xFF] [c, 0xFF] := by
  refine ⟨by rw [ctlCommand_length]; exact Nat.le_add_right_of_le (by decide), fun j hj => ?_⟩
  have cases_ : j = 0 ∨ j = 1 := by
    simp only [List.length_cons, List.length_nil] at hj
    omega
  rcases cases_ with rfl | rfl
  · exact BitVec.and_allOnes
  · rw [ctlCommand_marker]
    exact BitVec.and_self

theorem videoDatagram (dg : List Byte) : Statement (.videoDatagram dg) := selects_video dg

theorem addPacket (frame : Half) (startLine : BitVec 15) (lpp : Byte) (payload : Bytes 768) (isLast : Bool) :
    Statement (.addPacket frame startLine lpp payload isLast) := by
  intro h
  simp only [Instr.wellFormed, beq_iff_eq] at h
  subst h
  refine selects_video _ ?_
  have e := (decodeVideoHeader_ok_iff _ _).1
    (decode_encodeVideoHeader ⟨0#16, frame, startLine, isLast, 384#16, 4#8, 4#8, payload⟩ 0#16 rfl rfl rfl)
  exact e.1

theorem audioDatagram (dg : List Byte) : Statement (.audioDatagram dg) := by
  intro h
  simp only [Instr.wellFormed, audioWellFormed, beq_iff_eq] at h
  exact selects_audio dg (by omega)

theorem extractPcm (payload : Bytes 768) : Statement (.extractPcm payload) :=
  fun _ => selects_audio _ (by simp [encode, wireBytes])

theorem dcFilter (xL xR : Half) : Statement (.dcFilter xL xR) :=
  fun _ => selects_audio (0#8 :: 0#8 :: _) (Nat.le_add_left 2 _)

theorem queryStatus : Statement .queryStatus := fun _ => by unfold selects; decide

theorem assemble : Statement .assemble := fun _ => by unfold selects; decide

/-- A request is selected by its op code alone. -/
theorem selects_op (op : Byte) (rest : List Byte) : selects (op :: rest) [0xFF] [op] := by
  refine ⟨by simp, fun j hj => ?_⟩
  have : j = 0 := by
    simp only [List.length_cons, List.length_nil] at hj
    omega
  subst this
  exact BitVec.and_allOnes

theorem encodeStart (streamId : Byte) (ep : Endpoint) (duration : Half) : Statement (.encodeStart streamId ep duration) :=
  fun _ => selects_op 3#8 _

theorem encodeStop (streamId : Byte) : Statement (.encodeStop streamId) := fun _ => selects_op 4#8 _

theorem resetVideo : Statement .resetVideo := fun _ => selects_op 5#8 _

theorem resetAudio : Statement .resetAudio := fun _ => selects_op 6#8 _

theorem decodeByte (b : Byte) : Statement (.decodeByte b) := fun _ => selects_op 7#8 _

theorem ctlStartVideo (params : List Byte) : Statement (.ctlStartVideo params) := fun _ => selects_start 0x20#8 params

theorem ctlStartAudio (params : List Byte) : Statement (.ctlStartAudio params) := fun _ => selects_start 0x21#8 params

theorem ctlStopVideo : Statement .ctlStopVideo := fun _ => by unfold selects; decide

theorem ctlStopAudio : Statement .ctlStopAudio := fun _ => by unfold selects; decide

end Sys2Proof.Laws.RowMatch
end

