-- ==== Sys2Proof/Tests/Slice0.lean ====
section
/-! SUPPORT. The model's own tests: ill-formed terms refused, words of the spec decoded, the spec's worked examples, and a
witness for the hypotheses of every statement that has some. -/

namespace Sys2Proof.Tests

open Sys2Proof Sys2Proof.Machine

/-! ### Small inputs -/

/-- A VIN datagram in the notation of 30_encoding.md R135, every payload byte `x`. -/
def vin (frame : Half) (line : Half) (ppl : Half) (lpp bpp : Byte) (x : Byte) : List Byte :=
  [0x00#8, 0x00#8] ++ le16 frame ++ le16 line ++ le16 ppl ++ [lpp, bpp, 0x00#8, 0x00#8] ++ List.replicate 768 x

/-- The header of the example of 40_packet_codec.md R150, then a payload of zeros. -/
def exampleDatagram : List Byte :=
  [0x00#8, 0x00#8, 0x07#8, 0x00#8, 0x04#8, 0x80#8, 0x80#8, 0x01#8, 0x04#8, 0x04#8, 0x00#8, 0x00#8] ++ List.replicate 768 0#8

/-- An AIN datagram of 770 bytes with these first bytes, then zeros. -/
def ain (first : List Byte) (pad : Nat) : List Byte := first ++ List.replicate pad 0#8

/-- 768 bytes of one value. -/
def fill (x : Byte) : Bytes 768 := ⟨List.replicate 768 x, List.length_replicate⟩

/-- A payload of samples that begins with the bytes E8 03 18 FC (43_audio.md R250). -/
def pcmPayload : Bytes 768 := ⟨[0xE8#8, 0x03#8, 0x18#8, 0xFC#8] ++ List.replicate 764 0#8, by
  simp only [List.length_append, List.length_replicate, List.length_cons, List.length_nil]⟩

/-- The reset state with one transaction delivered. -/
def waiting (port : InPort) (bytes : List Byte) : State := State.reset.deliver ⟨port, bytes⟩

/-- The next state of an outcome that has one. -/
def nextOf (o : Host.Outcome State Fault Refusal) : Option State :=
  match o with
  | .next s => some s
  | .fault _ => none
  | .refused _ => none

/-- What an outcome has sent. -/
def sent (o : Host.Outcome State Fault Refusal) : List (List Byte) :=
  match nextOf o with
  | some s => s.out.map fun x => x.bytes
  | none => []

/-- Frame 3 with slot 1 alone, last: the example of 41_frame_assembler.md R185. -/
def oneSlot : VideoState := ⟨true, 3#16, [1], [(1, 4#15)], [], 2#16, 8#16⟩

/-- A complete frame of height 4 whose slot 0 is empty and whose slot 1 stands on row 4. -/
def completeFrame : VideoState := ⟨true, 3#16, [1], [(1, 4#15)], [], 1#16, 4#16⟩

/-- Slots 0 and 1 on rows 2 to 5 and 4 to 7, height 8: both cover rows 4 and 5 (41_frame_assembler.md R203). -/
def overlapping : VideoState := ⟨true, 3#16, [0, 1], [(0, 2#15), (1, 4#15)], [], 2#16, 8#16⟩

/-! ### Ill-formed terms are refused -/

theorem test_wf_video_good : (Instr.videoDatagram exampleDatagram).wellFormed = true := by decide +kernel

theorem test_wf_video_length : (Instr.videoDatagram (exampleDatagram ++ [0#8])).wellFormed = false := by decide +kernel

theorem test_wf_video_ppl : (Instr.videoDatagram (vin 0 0 0x8180 4 4 0)).wellFormed = false := by decide +kernel

theorem test_wf_video_lpp : (Instr.videoDatagram (vin 0 0 384 5 4 0)).wellFormed = false := by decide +kernel

theorem test_wf_video_bpp : (Instr.videoDatagram (vin 0 0 384 4 8 0)).wellFormed = false := by decide +kernel

theorem test_wf_addPacket_lpp : (Instr.addPacket 0 0 3 (fill 0) true).wellFormed = false := by decide

theorem test_wf_audio_length : (Instr.audioDatagram (ain [] 769)).wellFormed = false := by decide +kernel

theorem test_wf_encodeStart_stream : (Instr.encodeStart 2 ⟨10, 0, 0, 5, 11000⟩ 0).wellFormed = false := by decide

theorem test_wf_encodeStop_stream : (Instr.encodeStop 2).wellFormed = false := by decide

theorem test_wf_ctlStartVideo_params : (Instr.ctlStartVideo [0x00, 0x00, 0x31, 0x3A, 0x31]).wellFormed = false := by decide

theorem test_wf_ctlStartAudio_params : (Instr.ctlStartAudio []).wellFormed = false := by decide

/-- "10.0.0.5:11000" after two bytes of duration (44_control.md R295). -/
theorem test_wf_ctlStartVideo_good : (Instr.ctlStartVideo [0x00, 0x00, 0x31, 0x30, 0x2E, 0x30, 0x2E, 0x30, 0x2E, 0x35, 0x3A,
    0x31, 0x31, 0x30, 0x30, 0x30]).wellFormed = true := by decide

/-! ### Words of the spec decode -/

/-- 40_packet_codec.md R150, the example: frame = 7, start_line = 4, is_last = 1; and what is handed to ADD_PACKET. -/
theorem test_decode_videoDatagram_addPacket :
    decode (.txn ⟨.vin, exampleDatagram⟩) = some (.videoDatagram exampleDatagram) ∧
    ((nextOf (exec (.videoDatagram exampleDatagram) State.reset)).map fun s => s.stages) =
      some [.addPacket 7 4 4 (fill 0) true] := by decide +kernel

/-- 40_packet_codec.md R160, the example. -/
theorem test_decode_audioDatagram :
    decode (.txn ⟨.ain, ain [0xAB, 0xCD, 0x01, 0x00, 0xFF, 0xFF] 764⟩) =
      some (.audioDatagram (ain [0xAB, 0xCD, 0x01, 0x00, 0xFF, 0xFF] 764)) ∧
    ((decodeAudioHeader (ain [0xAB, 0xCD, 0x01, 0x00, 0xFF, 0xFF] 764)).toOption.map fun p => p.bytes.take 4) =
      some [0x01, 0x00, 0xFF, 0xFF] := by decide +kernel

/-- 43_audio.md R250, the example: s[0] = 1000 and s[1] = -1000. -/
theorem test_decode_extractPcm_dcFilter :
    ((nextOf (exec (.extractPcm pcmPayload) State.reset)).map fun s => (s.stages.length, s.stages.head?)) =
      some (192, some (.dcFilter 1000#16 0xFC18#16)) := by decide +kernel

/-- 30_encoding.md R120. -/
theorem test_decode_requests :
    decode (.txn ⟨.cmd, [0x01]⟩) = some .queryStatus ∧ decode (.txn ⟨.cmd, [0x02]⟩) = some .assemble ∧
    decode (.txn ⟨.cmd, [0x05]⟩) = some .resetVideo ∧ decode (.txn ⟨.cmd, [0x06]⟩) = some .resetAudio ∧
    decode (.txn ⟨.cmd, [0x04, 0x01]⟩) = some (.encodeStop 1) ∧
    decode (.txn ⟨.cmd, [0x07, 0x1A]⟩) = some (.decodeByte 0x1A) := by decide

/-- 30_encoding.md R120: port 0x2AF8 = 11000, least significant byte first. -/
theorem test_decode_encodeStart :
    decode (.txn ⟨.cmd, [0x03, 0x00, 0x0A, 0x00, 0x00, 0x05, 0xF8, 0x2A, 0x3C, 0x00]⟩) =
      some (.encodeStart 0 ⟨10, 0, 0, 5, 11000⟩ 60) := by decide

/-- 30_encoding.md R121: the empty request, a reserved op code, a wrong length. -/
theorem test_decode_refused :
    decodeTxn ⟨.cmd, []⟩ = .error .op ∧ decodeTxn ⟨.cmd, [0x00]⟩ = .error .op ∧ decodeTxn ⟨.cmd, [0x08, 0x00]⟩ = .error .op ∧
    decodeTxn ⟨.cmd, [0x01, 0x00]⟩ = .error .length ∧ decodeTxn ⟨.cmd, [0x03, 0x02]⟩ = .error .length := by decide

/-- 30_encoding.md R112, 44_control.md R295 and R300. -/
theorem test_decode_control :
    decode (.command [0x20, 0xFF, 0x02, 0x00, 0x0A, 0x0B]) = some (.ctlStartVideo [0x0A, 0x0B]) ∧
    decode (.command [0x21, 0xFF, 0x01, 0x00, 0x0A]) = some (.ctlStartAudio [0x0A]) ∧
    decode (.command [0x30, 0xFF, 0x00, 0x00]) = some .ctlStopVideo ∧
    decode (.command [0x31, 0xFF, 0x00, 0x00]) = some .ctlStopAudio := by decide

/-- 30_encoding.md R112: too short, a wrong marker, a wrong length, another command byte, a stop with parameters. -/
theorem test_decode_control_refused :
    decodeCtl [0x20, 0xFF, 0x00] = .error .short ∧ decodeCtl [0x20, 0xFE, 0x00, 0x00] = .error .marker ∧
    decodeCtl [0x20, 0xFF, 0x02, 0x00, 0x0A] = .error .paramLength ∧ decodeCtl [0x22, 0xFF, 0x00, 0x00] = .error .commandByte ∧
    decodeCtl [0x30, 0xFF, 0x01, 0x00, 0x0A] = .error .paramLength := by decide

/-- A row's word, placed and run: RESET_VIDEO answers OK. -/
theorem test_table_word :
    decodeTableWord 8 0x05 = some .resetVideo ∧
    decodeTableWord 16 0x0403 = some (.encodeStart 4 ⟨0, 0, 0, 0, 0⟩ 0) ∧ sent (step (State.reset.withFetchWord 8 0x05)) = [[0x00]] := by decide

/-! ### The spec's examples -/

/-- 40_packet_codec.md R150: a length of 779 is discarded, reason LEN, state Empty. -/
theorem test_videoDatagram_short :
    sent (step (waiting .vin (List.replicate 779 0#8))) = [[0x01, 0x01, 0x00]] := by decide +kernel

/-- 40_packet_codec.md R151: PPL before LPP and BPP. -/
theorem test_videoDatagram_priority :
    sent (step (waiting .vin (vin 0 0 0x0181 5 5 0))) = [[0x01, 0x02, 0x00]] := by decide +kernel

/-- 41_frame_assembler.md R185, the example: registers after it, state Accumulating. -/
theorem test_addPacket_example :
    ((nextOf (exec (.addPacket 3 4 4 (fill 0) true) State.reset)).map fun s =>
      (s.video.trkFrame, s.video.slotValid, s.video.expCount, s.video.height, slotLineAt s.video 1)) =
      some (3#16, [1], 2#16, 8#16, 4#15) ∧
    sent (exec (.addPacket 3 4 4 (fill 0) true) State.reset) = [[0x00, 0x00, 0x01]] := by decide +kernel

/-- 41_frame_assembler.md R185: start line 32767 gives height 32771 and expected count 8192, no wrap. -/
theorem test_addPacket_top :
    ((nextOf (exec (.addPacket 3 32767 4 (fill 0x5A) true) State.reset)).map fun s =>
      (s.video.expCount.toNat, s.video.height.toNat, slotByte s.video 8191 767)) = some (8192, 32771, 0x5A#8) := by
  decide +kernel

/-- 43_audio.md R260, the example: 1000, 0 on the left give 1000, -5; on the right, a tie: 300, 300 give 300, 298. -/
theorem test_dcFilter_example :
    ((nextOf (exec (.dcFilter 1000 300) State.reset)).bind fun s =>
      (nextOf (exec (.dcFilter 0 300) s)).map fun t => t.pcm.map BitVec.toInt) = some [1000, 300, -5, 298] := by
  decide +kernel

/-- 43_audio.md R260: a jump from -32768 to 32767 clamps to 32767; and from 32767 to -32768 to -32768. -/
theorem test_dcFilter_clamp :
    ((nextOf (exec (.dcFilter 0x8000 0x7FFF) State.reset)).bind fun s =>
      (nextOf (exec (.dcFilter 0x7FFF 0x8000) s)).map fun t => t.pcm.map BitVec.toInt) =
      some [-32768, 32767, 32767, -32768] := by decide +kernel

/-- 41_frame_assembler.md R195: the record in state Empty. -/
theorem test_queryStatus_empty :
    sent (step (waiting .cmd [0x01])) = [[0x00, 0, 0, 0, 0, 0, 0, 0, 0, 0, 0, 3]] := by decide

/-- 41_frame_assembler.md R195: the record of the example of R185, up to the format tag. -/
theorem test_queryStatus_example :
    (statusRecord oneSlot).take 10 = [0x01, 0x01, 0x03, 0x00, 0x02, 0x00, 0x08, 0x00, 0x01, 0x00] := by decide

/-- 60_exceptions.md R324. -/
theorem test_assemble_none : sent (step (waiting .cmd [0x02])) = [[0x01]] := by decide

/-- 41_frame_assembler.md R203: on row 4 the higher of two slots wins, and rows 0 and 1 stay blank. -/
theorem test_assemble_rows :
    covers overlapping 0 5 = true ∧ covers overlapping 1 5 = true ∧ covers overlapping 0 6 = false ∧
    (overlapping.slotValid.filter fun i => covers overlapping i 1) = [] := by decide

/-- 44_control.md R295: the source's example, 20 bytes. -/
theorem test_encodeStart_example :
    sent (step (waiting .cmd [0x03, 0x00, 0x0A, 0x00, 0x00, 0x05, 0xF8, 0x2A, 0x00, 0x00])) =
      [[0x00, 0x14, 0x00],
       [0x20, 0xFF, 0x10, 0x00, 0x00, 0x00, 0x31, 0x30, 0x2E, 0x30, 0x2E, 0x30, 0x2E, 0x35, 0x3A, 0x31, 0x31, 0x30, 0x30,
        0x30]] := by decide +kernel

/-- 44_control.md R292: stream id 16 is refused. -/
theorem test_encodeStart_stream :
    sent (step (waiting .cmd [0x03, 0x10, 0, 0, 0, 0, 0, 0, 0, 0])) = [[0x82]] := by decide +kernel

/-- 44_control.md R300: the source's example. -/
theorem test_encodeStop_example :
    sent (step (waiting .cmd [0x04, 0x01])) = [[0x00, 0x04, 0x00], [0x31, 0xFF, 0x00, 0x00]] := by decide +kernel

/-- 44_control.md R300: stream id 2 is refused. -/
theorem test_encodeStop_stream : sent (step (waiting .cmd [0x04, 0x02])) = [[0x82]] := by decide

/-- 41_frame_assembler.md R210: the record after RESET_VIDEO. -/
theorem test_resetVideo_record :
    ((nextOf (exec .resetVideo (State.reset.withVideo oneSlot))).map fun s => statusRecord s.video) =
      some [0, 0, 0, 0, 0, 0, 0, 0, 0, 0, 3] := by decide

/-- 43_audio.md R270: 1000, RESET_AUDIO, 1000 gives 1000 again, not 0 or 995. -/
theorem test_resetAudio_passes :
    ((nextOf (exec (.dcFilter 1000 0) State.reset)).bind fun s =>
      (nextOf (exec .resetAudio s)).bind fun t =>
        (nextOf (exec (.dcFilter 1000 0) t)).map fun u => u.pcm.map BitVec.toInt) = some [1000, 0, 1000, 0] := by
  decide +kernel

/-- 42_pixel_decoder.md R232: 0x1A decodes to (palette[0xA], palette[0x1]). -/
theorem test_decodeByte_example : decodePixels 0x1A = (Config.palette 0xA, Config.palette 0x1) := rfl

/-- 30_encoding.md R112 and R127. -/
theorem test_ctlStart_bytes :
    sent (exec (.ctlStartVideo [0x0A, 0x0B]) State.reset) = [[0x20, 0xFF, 0x02, 0x00, 0x0A, 0x0B]] ∧
    sent (exec (.ctlStartAudio [0x0A]) State.reset) = [[0x21, 0xFF, 0x01, 0x00, 0x0A]] := by decide

/-- 44_control.md R300. -/
theorem test_ctlStop_bytes :
    sent (exec .ctlStopVideo State.reset) = [[0x30, 0xFF, 0x00, 0x00]] ∧
    sent (exec .ctlStopAudio State.reset) = [[0x31, 0xFF, 0x00, 0x00]] := by decide

/-! ### Witnesses: states and operands that meet the hypotheses of the statements -/

theorem filter_reset_bounded : FilterBounded AudioState.reset := by
  have h : ChannelBounded DcChannel.reset := by
    refine ⟨by decide, by decide, ?_⟩
    have e : fValue DcChannel.reset.dcOut = 0 := fValue_zero
    rw [e]
    simp [DcChannel.reset]
  exact ⟨h, h⟩

/-- EveryStepKeepsTheInvariant, FilterStaysBounded. -/
theorem test_witness_invariant :
    CoreInv (waiting .cmd [0x01]) ∧ FilterBounded (waiting .cmd [0x01]).audio ∧
      ∃ t, step (waiting .cmd [0x01]) = .next t :=
  ⟨⟨⟨rfl, rfl⟩, reset_inv.1, reset_inv.2.1, reset_inv.2.2, filter_reset_bounded⟩, filter_reset_bounded, _, rfl⟩

/-- StepRunsTheDecodedInstruction: an instruction, a refused request, nothing waiting, a stage still to run. -/
theorem test_witness_step :
    ((waiting .cmd [0x01]).stages = [] ∧ (waiting .cmd [0x01]).arrivals = [⟨.cmd, [0x01]⟩] ∧
      decode (.txn ⟨.cmd, [0x01]⟩) = some .queryStatus ∧
      ∃ u, exec .queryStatus ((waiting .cmd [0x01]).withArrivals []) = .next u ∧ u.stages = []) ∧
    ((waiting .cmd [0x00]).stages = [] ∧ (waiting .cmd [0x00]).arrivals = [⟨.cmd, [0x00]⟩] ∧
      decodeTxn ⟨.cmd, [0x00]⟩ = .error .op) ∧
    (State.reset.stages = [] ∧ State.reset.arrivals = []) ∧
    ((State.reset.withStages [.ctlStopVideo]).stages ≠ [] ∧
      ∃ u v, exec .ctlStopVideo ((State.reset.withStages [.ctlStopVideo]).withStages []) = .next u ∧
        finishStages u = .next v) :=
  ⟨⟨rfl, rfl, rfl, _, rfl, rfl⟩, ⟨rfl, rfl, rfl⟩, ⟨rfl, rfl⟩, by simp, _, _, rfl, rfl⟩

/-- VideoHeaderIsDecoded, VideoDatagramDiscardsAreReported, FieldsAreLittleEndian: a datagram for each clause. -/
theorem test_witness_header :
    (List.replicate 779 0#8).length ≠ 780 ∧
    ((vin 0 0 0x0181 4 4 0).length = 780 ∧ u16le (vin 0 0 0x0181 4 4 0) 6 ≠ 384#16) ∧
    ((vin 0 0 384 5 4 0).length = 780 ∧ u16le (vin 0 0 384 5 4 0) 6 = 384#16 ∧ byteAt (vin 0 0 384 5 4 0) 8 ≠ 4#8) ∧
    ((vin 0 0 384 4 8 0).length = 780 ∧ u16le (vin 0 0 384 4 8 0) 6 = 384#16 ∧ byteAt (vin 0 0 384 4 8 0) 8 = 4#8 ∧
      byteAt (vin 0 0 384 4 8 0) 9 ≠ 4#8) ∧
    (exampleDatagram.length = 780 ∧ u16le exampleDatagram 6 = 384#16 ∧ byteAt exampleDatagram 8 = 4#8 ∧
      byteAt exampleDatagram 9 = 4#8) ∧
    (decodeVideoHeader []).toOption = none ∧ (decodeVideoHeader exampleDatagram).toOption.isSome = true := by decide +kernel

/-- AudioHeaderIsDecoded, ExtractedSamples, AudioTransactionFiltersTheBlock. -/
theorem test_witness_audio_header :
    (ain [] 769).length ≠ 770 ∧ (ain [] 771).length ≠ 770 ∧ (ain [0xAB, 0xCD] 768).length = 770 ∧
    (decodeAudioHeader (ain [0xAB, 0xCD] 768)).toOption.isSome = true ∧ State.reset.stages = [] := by decide +kernel

/-- IgnoredFieldsHaveNoEffect: datagrams that differ in the ignored bytes only. -/
theorem test_witness_ignored :
    (ain [0x01, 0x02] 768).length = (ain [0x00, 0x00] 768).length ∧
    (ain [0x01, 0x02] 768).drop 2 = (ain [0x00, 0x00] 768).drop 2 ∧
    (exampleDatagram.set 0 9#8).length = exampleDatagram.length ∧
    (exampleDatagram.set 0 9#8).drop 12 = exampleDatagram.drop 12 ∧
    (∀ i < 10, 2 ≤ i → byteAt (exampleDatagram.set 0 9#8) i = byteAt exampleDatagram i) ∧
    exampleDatagram.set 0 9#8 ≠ exampleDatagram := by decide +kernel

/-- VideoHeaderRoundTrip. -/
theorem test_witness_round_trip :
    ∃ h : VideoHeader, decodeVideoHeader (encodeVideoHeader h 0xBEEF#16) = .ok h ∧ h.ppl = 384#16 ∧ h.lpp = 4#8 ∧ h.bpp = 4#8 :=
  ⟨⟨1, 2, 3, true, 384, 4, 4, fill 0⟩, decode_encodeVideoHeader _ _ rfl rfl rfl, rfl, rfl, rfl⟩

/-- AddPacketStoresThePacket: a packet beyond the slots, one in the last of them, and one that switches the frame. -/
theorem test_witness_addPacket :
    (1 ≤ (4#15).toNat / 4 ∧ (3#15).toNat / 4 < 1) ∧
    ((addPacketTo 2 oneSlot 3 4 4 (fill 0) true).toOption.isSome = true) ∧
    isFrameSwitch oneSlot 4 = true ∧ isFrameSwitch oneSlot 3 = false := by decide +kernel

/-- AddPacketFrame: a next state, with and without a frame switch, and with the packet turned away. -/
theorem test_witness_addPacket_frame :
    (nextOf (exec (.addPacket 3 8 4 (fill 1) false) (State.reset.withVideo oneSlot))).isSome = true ∧
    (nextOf (exec (.addPacket 9 8 4 (fill 1) false) (State.reset.withVideo oneSlot))).isSome = true ∧
    (nextOf (exec (.addPacket 3 32767 1 (fill 1) true) (State.reset.withVideo oneSlot))).isSome = true := by decide +kernel

/-- DuplicatesAreLastWriteWins. -/
theorem test_witness_duplicate :
    oneSlot.slotValid.Pairwise (· < ·) ∧ oneSlot.trkValid = true ∧ slotValidAt oneSlot (packetIndex 6 4) = true ∧
    (addPacketTo 8192 oneSlot oneSlot.trkFrame 6 4 (fill 7) false).toOption.isSome = true := by decide +kernel

/-- DeliveredTwiceIsDeliveredOnce. -/
theorem test_witness_twice :
    State.reset.stages = [] ∧ ∃ t u, transact ⟨.vin, exampleDatagram⟩ State.reset = .next t ∧
      transact ⟨.vin, exampleDatagram⟩ t = .next u :=
  ⟨rfl, _, _, transact_eq _ _ rfl, transact_eq _ _ rfl⟩

/-- FrameSwitchDiscardsTheOldFrame: the first packet, another frame number; a last packet in slot 0 and in slot 1. -/
theorem test_witness_switch :
    VideoState.reset.trkValid = false ∧ (4#16 : Half) ≠ oneSlot.trkFrame ∧
    (addPacketTo 8192 oneSlot 4 3 4 (fill 7) true).toOption.isSome = true ∧
    (addPacketTo 8192 VideoState.reset 0 4 4 (fill 7) false).toOption.isSome = true := by decide +kernel

/-- TrackedFrameStaysUntilASwitchOrReset: a step that keeps the frame, a reset, a switch. -/
theorem test_witness_tracked :
    ((waiting .cmd [0x01]).withVideo oneSlot).stages = [] ∧ ((waiting .cmd [0x01]).withVideo oneSlot).video.trkValid = true ∧
    (∃ t, step ((waiting .cmd [0x01]).withVideo oneSlot) = .next t) ∧
    (∃ t, step ((waiting .cmd [0x05]).withVideo oneSlot) = .next t) ∧
    (∃ t, step ((waiting .vin exampleDatagram).withVideo oneSlot) = .next t) :=
  ⟨rfl, rfl, ⟨_, rfl⟩, ⟨_, rfl⟩, _, (step_take _ ⟨.vin, exampleDatagram⟩ [] rfl rfl).trans (transact_eq _ _ rfl)⟩

/-- CountAndCompletion, AssembleDrawsEveryPixel, AssembleAnswersNone: a frame that is complete with slot 0 empty, one that
is not; rows with no slot, with one, and with two. -/
theorem test_witness_complete :
    LineBufferCanonical completeFrame ∧ isComplete completeFrame = true ∧ slotValidAt completeFrame 0 = false ∧
    isComplete oneSlot = false ∧ LineBufferCanonical overlapping ∧ isComplete overlapping = true ∧
    covers overlapping 0 0 = false ∧ covers overlapping 1 0 = false ∧ covers overlapping 0 3 = true ∧
    covers overlapping 1 3 = false ∧ covers overlapping 0 4 = true ∧ covers overlapping 1 4 = true := by
  refine ⟨?_, by decide, by decide, by decide, ?_, by decide, by decide, by decide, by decide, by decide, by decide, by decide⟩
  · exact ⟨by decide, by decide, by decide, by decide⟩
  · exact ⟨by decide, by decide, by decide, by decide⟩

/-- CompleteCanRevert: from Complete, one slot stored, a last packet with index 2. -/
theorem test_witness_revert :
    isComplete completeFrame = true ∧ completeFrame.trkValid = true ∧ packetCount completeFrame < (8#15).toNat / 4 ∧
    (addPacketTo 8192 completeFrame completeFrame.trkFrame 8 4 (fill 0) true).toOption.isSome = true := by decide +kernel

/-- DecodeByteLooksUpBothNibbles, StartRequestSendsTheStartCommand, StopRequestSendsTheStopCommand,
RefusedRequestsChangeNothing: a request for each clause. -/
theorem test_witness_requests :
    ([] : List Byte).length ≠ 1 ∧ ([0x00, 0x00] : List Byte).length ≠ 1 ∧ ([0x00] : List Byte).length ≠ 9 ∧
    (1#8).toNat ≤ 1 ∧ 1 < (2#8).toNat ∧
    (byteAt [0x00] 0).toNat = 0 ∧ 7 < (byteAt [0x08] 0).toNat ∧
    ((byteAt [0x06, 0x00] 0).toNat ∈ [1, 2, 5, 6] ∧ ([0x06, 0x00] : List Byte).length ≠ 1) ∧
    ((byteAt [0x03] 0).toNat = 3 ∧ ([0x03] : List Byte).length ≠ 10) ∧
    ((byteAt [0x07] 0).toNat ∈ [4, 7] ∧ ([0x07] : List Byte).length ≠ 2) ∧
    ((byteAt [0x03, 0x02, 0, 0, 0, 0, 0, 0, 0, 0] 0).toNat = 3 ∧ ([0x03, 0x02, 0, 0, 0, 0, 0, 0, 0, 0] : List Byte).length = 10 ∧
      1 < (byteAt [0x03, 0x02, 0, 0, 0, 0, 0, 0, 0, 0] 1).toNat) ∧
    ((byteAt [0x04, 0xFF] 0).toNat = 4 ∧ ([0x04, 0xFF] : List Byte).length = 2 ∧ 1 < (byteAt [0x04, 0xFF] 1).toNat) := by
  decide

/-- EncoderIsPure. -/
theorem test_witness_encoder : byteAt [0x03, 0x00] 0 = 3#8 ∧ byteAt [0x04, 0x01] 0 = 4#8 ∧ State.reset.stages = [] := by
  decide

/-- DcFilterStep, DcFilterCompletes: a block with room, and one that the pair fills. -/
theorem test_witness_dcFilter :
    State.reset.pcm.length ≠ 382 ∧ (State.reset.withPcm (List.replicate 382 0#16)).pcm.length = 382 ∧
    FilterBounded State.reset.audio :=
  ⟨by decide, List.length_replicate, filter_reset_bounded⟩

/-- AdditionRoundsToNearest, MultiplicationRoundsToNearest, OutputSampleIsTheNearestInteger: 1.0 and -1.0 (sum 0), 1.0 and
0.995. -/
theorem test_witness_float :
    fFinite 0x3FF0000000000000#64 = true ∧ fFinite 0xBFF0000000000000#64 = true ∧ fFinite Config.alpha = true ∧
    (fValue 0x3FF0000000000000#64 + fValue 0xBFF0000000000000#64).natAbs ≤ fLargest ∧
    fValue 0x3FF0000000000000#64 + fValue 0xBFF0000000000000#64 = 0 ∧
    fValue 0x3FF0000000000000#64 + fValue Config.alpha ≠ 0 ∧
    (fValue 0x3FF0000000000000#64 + fValue Config.alpha).natAbs ≤ fLargest ∧
    fMag 0x3FF0000000000000#64 * fMag Config.alpha ≤ fLargest * fOne := by decide +kernel

/-- AdditionRoundsToNearest, MultiplicationRoundsToNearest: ties occur. 1 + 2^-53 lies between 1 and 1 + 2^-52, and the sum is
1, whose significand is even; 3 times 2^-1074 times 0.5 lies between one and two units, and the product is two units. -/
theorem test_witness_float_tie :
    fAdd 0x3FF0000000000000#64 0x3CA0000000000000#64 = 0x3FF0000000000000#64 ∧
    fMul 0x0000000000000003#64 0x3FE0000000000000#64 = 0x0000000000000002#64 ∧
    (fValue 0x3FF0000000000000#64 + fValue 0x3CA0000000000000#64).natAbs ≤ fLargest ∧
    fMag 0x0000000000000003#64 * fMag 0x3FE0000000000000#64 ≤ fLargest * fOne := by decide +kernel

/-- OutputSampleIsTheNearestInteger: 298.5 (a tie) gives 298, and 40000.0 and -40000.0 are clamped. -/
theorem test_witness_sample :
    fFinite 0x4072A80000000000#64 = true ∧ (sampleOf 0x4072A80000000000#64).toInt = 298 ∧
    (sampleOf 0x40E3880000000000#64).toInt = 32767 ∧ (sampleOf 0xC0E3880000000000#64).toInt = -32768 := by decide +kernel

/-- SilentInputNeverReachesZero: at the boundary, 99 units, and above it. -/
theorem test_witness_silent :
    fFinite 99#64 = true ∧ 99 ≤ fMag 99#64 ∧ fFinite 0x408F400000000000#64 = true ∧ 99 ≤ fMag 0x408F400000000000#64 := by
  decide +kernel

/-- ChannelsAreIndependent: states and blocks that agree on the left channel only, and on the right only. -/
theorem test_witness_channels :
    (∃ t w, exec (.dcFilter 1 2) State.reset = .next t ∧ exec (.dcFilter 1 3) State.reset = .next w) ∧
    ([(1#16, 2#16)] : List (Half × Half)).map (·.1) = ([(1#16, 3#16)] : List (Half × Half)).map (·.1) ∧
    ([(2#16, 1#16)] : List (Half × Half)).map (·.2) = ([(3#16, 1#16)] : List (Half × Half)).map (·.2) :=
  ⟨⟨_, _, rfl, rfl⟩, rfl, rfl⟩

/-- FilterStateCrossesBlocks: two blocks, and a datagram that is discarded. -/
theorem test_witness_blocks :
    State.reset.stages = [] ∧ (ain [] 770).length = 770 ∧ (ain [] 780).length ≠ 770 ∧
    ∃ t u, transact ⟨.ain, ain [] 770⟩ State.reset = .next t ∧ transact ⟨.ain, ain [] 770⟩ t = .next u :=
  ⟨rfl, List.length_replicate, by decide +kernel, _, _, transact_eq _ _ rfl, transact_eq _ _ rfl⟩

/-- EveryTransactionEndsWithAResponse, ExactlyOneResponse, OnlyControlCommandsLeaveOnCout: a step that sends a control
command. -/
theorem test_witness_response :
    (waiting .cmd [0x04, 0x00]).stages = [] ∧ (waiting .cmd [0x04, 0x00]).arrivals = [⟨.cmd, [0x04, 0x00]⟩] ∧
    ∃ t, step (waiting .cmd [0x04, 0x00]) = .next t ∧ t.out.map (·.port) = [.cmdResponse, .cout] :=
  ⟨rfl, rfl, _, rfl, rfl⟩

/-- DiscardedDatagramsLeaveNoTrace: a discard of each kind. -/
theorem test_witness_discard :
    decodeVideoHeader [] = .error .len ∧ decodeAudioHeader [] = .error .len ∧
    addPacketTo Config.maxPackets VideoState.reset 0 8192 1 (fill 0) false = .error .capacity := ⟨rfl, rfl, rfl⟩

/-- OtherOperationsWriteNoState, AudioOperationsLeaveTheVideoState. -/
theorem test_witness_frames :
    writesNoState .assemble = true ∧ (∃ t, exec .assemble State.reset = .next t) ∧
    (∃ t, exec .resetAudio State.reset = .next t) ∧ (∃ t, exec (.dcFilter 1 2) State.reset = .next t) :=
  ⟨rfl, ⟨_, rfl⟩, ⟨_, rfl⟩, ⟨_, rfl⟩⟩

/-- PathsAreDisjoint, IndependentTransactionsCommute: transactions of the three kinds. -/
theorem test_witness_paths :
    State.reset.stages = [] ∧ pathOfTxn ⟨.vin, []⟩ ≠ .audio ∧ pathOfTxn ⟨.ain, []⟩ ≠ .video ∧
    Independent ⟨.vin, []⟩ ⟨.ain, []⟩ ∧ Independent ⟨.cmd, [0x07, 0x1A]⟩ ⟨.cmd, [0x02]⟩ ∧
    ∃ s₁ s₂ u₁ u₂, transact ⟨.vin, []⟩ State.reset = .next s₁ ∧ transact ⟨.ain, []⟩ s₁ = .next s₂ ∧
      transact ⟨.ain, []⟩ State.reset = .next u₁ ∧ transact ⟨.vin, []⟩ u₁ = .next u₂ :=
  ⟨rfl, by decide, by decide, .inl (by decide), .inr rfl, _, _, _, _, transact_eq _ _ rfl, transact_eq _ _ rfl,
    transact_eq _ _ rfl, transact_eq _ _ rfl⟩

/-- InvalidSlotsAreNeverObserved: two states that differ in what slot 5 holds. -/
theorem test_witness_invalid_slots :
    LineBufferCanonical completeFrame ∧ LineBufferCanonical { completeFrame with slotData := [(3840, 7#8)] } ∧
    SameValidSlots completeFrame { completeFrame with slotData := [(3840, 7#8)] } ∧
    ∃ t u, step ((waiting .cmd [0x02]).withVideo completeFrame) = .next t ∧
      step (((waiting .cmd [0x02]).withVideo completeFrame).withVideo
        { completeFrame with slotData := [(3840, 7#8)] }) = .next u := by
  refine ⟨⟨by decide, by decide, by decide, by decide⟩, ⟨by decide, by decide, by decide, by decide⟩,
    ⟨rfl, rfl, rfl, rfl, rfl, ?_⟩, _, _, rfl, rfl⟩
  intro i hi
  have : i = 1 := by simpa [completeFrame] using hi
  subst this
  refine ⟨rfl, fun off ho => ?_⟩
  exact (if_neg (by simp only [slotAddr]; omega)).symm

/-- NumbersAreWrittenInDecimal, EndpointTextsDiffer: the ends of the range. -/
theorem test_witness_decimal :
    dec 0 = [0x30] ∧ dec 65535 = [0x36, 0x35, 0x35, 0x33, 0x35] ∧ digitsValue (dec 65535) = 65535 ∧
    (endpointText ⟨0, 0, 0, 0, 0⟩).length = 9 ∧ (endpointText ⟨255, 255, 255, 255, 65535⟩).length = 21 := by decide

/-- FormatTagNamesTheHeights: a height that is neither of the standard ones, whatever the second one is. -/
theorem test_witness_format : (0 : Nat) ≠ 272 ∧ (0 : Nat) ≠ Config.stdBHeight := by
  refine ⟨by decide, ?_⟩
  unfold Config.stdBHeight
  dsimp only
  by_cases h : Config.stdBHeightChoice % 32767 + 4 < Config.stdAHeight
  · rw [if_pos h]
    omega
  · rw [if_neg h]
    omega

/-- EncodedInstructionsAreReadBack: a later stage and a control command that are well formed. -/
theorem test_witness_encoded :
    (Instr.addPacket 1 2 4 (fill 0) true).wellFormed = true ∧ (Instr.extractPcm (fill 0)).wellFormed = true ∧
    (Instr.dcFilter 1 2).wellFormed = true ∧ (Instr.encodeStart 1 ⟨1, 2, 3, 4, 5⟩ 6).wellFormed = true ∧
    (Instr.ctlStartAudio (startParams ⟨1, 2, 3, 4, 5⟩ 6)).wellFormed = true := by decide

end Sys2Proof.Tests
end

section
/-! The count of valid slots and the completion predicate (10_state.md R37, 41_frame_assembler.md R196). -/

namespace Sys2Proof.Machine

@[simp] theorem slotValidAt_iff (v : VideoState) (i : Nat) : slotValidAt v i = true ↔ i ∈ v.slotValid := by
  simp [slotValidAt]

/-- The list of valid slots has every valid slot that exists once, and no other. -/
theorem packetCount_eq_countP (v : VideoState) (rising : v.slotValid.Pairwise (· < ·))
    (bound : ∀ i ∈ v.slotValid, i < Config.maxPackets) :
    packetCount v = (List.range Config.maxPackets).countP fun i => slotValidAt v i := by
  rw [packetCount, List.countP_eq_length_filter]
  have nodup : v.slotValid.Nodup := rising.imp Nat.ne_of_lt
  refine ((List.perm_ext_iff_of_nodup nodup (List.nodup_range.filter _)).2 fun i => ?_).length_eq
  simpa using bound i

theorem isComplete_iff (v : VideoState) :
    isComplete v = true ↔ v.trkValid = true ∧ 0 < v.expCount.toNat ∧ v.expCount.toNat ≤ packetCount v := by
  simp [isComplete, and_assoc]

/-- A frame of one expected packet whose only stored packet is in slot 1. It meets the relations of R40, which do not say
which slots are valid; they are all that the statement asks. -/
def completeWithFirstSlotEmpty : VideoState :=
  { trkValid := true
    trkFrame := 3#16
    slotValid := [1]
    slotLine := [(1, 4#15)]
    slotData := []
    expCount := 1#16
    height := 4#16 }

theorem completeWithFirstSlotEmpty_inv : AssemblerInv completeWithFirstSlotEmpty := by
  refine ⟨⟨by decide, by decide, by decide, by decide⟩, ?_, ?_⟩
  · unfold AssemblerConsistent
    decide
  · unfold SlotLinesInPlace
    decide

/-- Settles O20: the valid slots are counted once each, and a frame can be complete with its first slot empty. -/
theorem countAndCompletion : Obligations.CountAndCompletion := by
  refine ⟨fun v rising bound => ?_, completeWithFirstSlotEmpty, ?_⟩
  · have count := packetCount_eq_countP v rising bound
    exact ⟨count, rising_length_le _ _ rising bound, count ▸ isComplete_iff v⟩
  · obtain ⟨canonical, consistent, inPlace⟩ := completeWithFirstSlotEmpty_inv
    exact ⟨canonical, consistent, inPlace, by decide, rfl, by decide⟩

end Sys2Proof.Machine
end

section
/-! Transactions of different paths: what a transaction does not write, what its transfers do not depend on, and that two
such transactions can be swapped (20_memory.md R87, 10_state.md R46, R47). -/

namespace Sys2Proof.Machine

variable {t x y : Txn}

/-! ### The path of a request -/

theorem pathOfTxn_cmd {b : List Byte} {i : Instr} (h : decodeCmd b = .ok i) : pathOfTxn ⟨.cmd, b⟩ = pathOf i := by
  simp only [pathOfTxn, decodeTxn, h]

theorem requestSends_of_not_video {i : Instr} (h : pathOf i ≠ .video) (v w : VideoState) :
    requestSends i v = requestSends i w := by
  cases i with
  | queryStatus => exact absurd rfl h
  | assemble => exact absurd rfl h
  | _ => rfl

/-! ### A transaction that is not of the video path -/

theorem videoEffect_of_not_video (h : pathOfTxn t ≠ .video) (v : VideoState) : videoEffect t v = v := by
  obtain ⟨port, b⟩ := t
  cases port with
  | vin => exact absurd rfl h
  | ain => rfl
  | cmd => exact if_neg fun hd => h (pathOfTxn_cmd hd)

theorem sends_of_not_video (h : pathOfTxn t ≠ .video) (v w : VideoState) (a : AudioState) :
    sends t v a = sends t w a := by
  obtain ⟨port, b⟩ := t
  cases port with
  | vin => exact absurd rfl h
  | ain => rfl
  | cmd =>
    simp only [sends]
    match hd : decodeCmd b with
    | .error e => rfl
    | .ok i => exact requestSends_of_not_video (pathOfTxn_cmd hd ▸ h) v w

/-! ### A transaction that is not of the audio path -/

theorem audioEffect_of_not_audio (h : pathOfTxn t ≠ .audio) (a : AudioState) : audioEffect t a = a := by
  obtain ⟨port, b⟩ := t
  cases port with
  | vin => rfl
  | ain => exact absurd rfl h
  | cmd => exact if_neg fun hd => h (pathOfTxn_cmd hd)

theorem pcmEffect_of_not_audio (h : pathOfTxn t ≠ .audio) (pcm : List Half) : pcmEffect t pcm = pcm := by
  obtain ⟨port, b⟩ := t
  cases port with
  | ain => exact absurd rfl h
  | _ => rfl

theorem sends_of_not_audio (h : pathOfTxn t ≠ .audio) (v : VideoState) (a b : AudioState) :
    sends t v a = sends t v b := by
  obtain ⟨port, dg⟩ := t
  cases port with
  | ain => exact absurd rfl h
  | _ => rfl

/-! ### Two independent transactions -/

theorem Independent.symm (h : Independent x y) : Independent y x := by
  rcases h with hne | hx
  · exact .inl hne.symm
  · by_cases hy : pathOfTxn y = .neither
    · exact .inr hy
    · exact .inl (hx ▸ hy)

/-- Of two independent transactions at most one is of a path that has state. -/
theorem Independent.not_both (h : Independent x y) {p : Path} (hp : p ≠ .neither) :
    pathOfTxn x ≠ p ∨ pathOfTxn y ≠ p := by
  by_cases hx : pathOfTxn x = p
  · refine .inr fun hy => ?_
    rcases h with hne | hn
    · exact hne (hx.trans hy.symm)
    · exact hp (hx.symm.trans hn)
  · exact .inl hx

/-- Two functions of which one is the identity commute. -/
theorem comm_of_id {α : Type} {f g : α → α} (h : (∀ a, f a = a) ∨ ∀ a, g a = a) (a : α) : f (g a) = g (f a) := by
  rcases h with h | h <;> simp only [h]

theorem videoEffect_comm (h : Independent x y) (v : VideoState) :
    videoEffect y (videoEffect x v) = videoEffect x (videoEffect y v) :=
  comm_of_id ((h.symm.not_both (by decide)).imp videoEffect_of_not_video videoEffect_of_not_video) v

theorem audioEffect_comm (h : Independent x y) (a : AudioState) :
    audioEffect y (audioEffect x a) = audioEffect x (audioEffect y a) :=
  comm_of_id ((h.symm.not_both (by decide)).imp audioEffect_of_not_audio audioEffect_of_not_audio) a

theorem pcmEffect_comm (h : Independent x y) (pcm : List Half) :
    pcmEffect y (pcmEffect x pcm) = pcmEffect x (pcmEffect y pcm) :=
  comm_of_id ((h.symm.not_both (by decide)).imp pcmEffect_of_not_audio pcmEffect_of_not_audio) pcm

/-- What a transaction sends is the same after one that is independent of it: a part of the state that the other one writes
is not read. -/
theorem sends_after_independent (h : Independent x y) (v : VideoState) (a : AudioState) :
    sends x (videoEffect y v) (audioEffect y a) = sends x v a := by
  calc sends x (videoEffect y v) (audioEffect y a)
      = sends x v (audioEffect y a) := by
        rcases h.not_both (p := .video) (by decide) with hx | hy
        · exact sends_of_not_video hx _ _ _
        · rw [videoEffect_of_not_video hy]
    _ = sends x v a := by
        rcases h.not_both (p := .audio) (by decide) with hx | hy
        · exact sends_of_not_audio hx _ _ _
        · rw [audioEffect_of_not_audio hy]

/-- The state a transaction ends in, in closed form. -/
theorem eq_of_transact {s s' : State} (h : transact t s = .next s') (hs : s.stages = []) :
    s' = { s with
      video := videoEffect t s.video
      audio := audioEffect t s.audio
      pcm := pcmEffect t s.pcm
      out := s.out ++ sends t s.video s.audio } :=
  Host.Outcome.next.inj (h.symm.trans (transact_eq t s hs))

/-- Settles O57: by the closed form of a transaction, its effects on the state commute with the other one's, and each
sends the same in either order. -/
theorem independentTransactionsCommute : Obligations.IndependentTransactionsCommute := by
  intro s s₁ s₂ u₁ u₂ x y hs h hx hxy hy hyx
  obtain rfl := eq_of_transact hx hs
  obtain rfl := eq_of_transact hy hs
  obtain rfl := eq_of_transact hxy hs
  obtain rfl := eq_of_transact hyx hs
  refine ⟨videoEffect_comm h _, audioEffect_comm h _, rfl, rfl, pcmEffect_comm h _,
    sends x s.video s.audio, sends y s.video s.audio, rfl, ?_, rfl, ?_⟩
  · rw [sends_after_independent h.symm]
  · rw [sends_after_independent h]

end Sys2Proof.Machine
end

section
/-! The packet header parser: what each check answers, and what a VIN or AIN datagram does to the state
(40_packet_codec.md R150, R151, R160). -/

namespace Sys2Proof.Machine

variable {dg : List Byte}

/-! ### The checks of DECODE_VIDEO_HEADER, in the order of R151 -/

theorem decodeVideoHeader_of_length_ne (hlen : dg.length ≠ 780) : decodeVideoHeader dg = .error .len := by
  simp [decodeVideoHeader, hlen]

theorem decodeVideoHeader_of_ppl_ne (hlen : dg.length = 780) (hppl : u16le dg 6 ≠ 384#16) :
    decodeVideoHeader dg = .error .ppl := by
  simp [decodeVideoHeader, hlen, hppl]

theorem decodeVideoHeader_of_lpp_ne (hlen : dg.length = 780) (hppl : u16le dg 6 = 384#16) (hlpp : byteAt dg 8 ≠ 4#8) :
    decodeVideoHeader dg = .error .lpp := by
  simp [decodeVideoHeader, hlen, hppl, hlpp]

theorem decodeVideoHeader_of_bpp_ne (hlen : dg.length = 780) (hppl : u16le dg 6 = 384#16) (hlpp : byteAt dg 8 = 4#8)
    (hbpp : byteAt dg 9 ≠ 4#8) : decodeVideoHeader dg = .error .bpp := by
  simp [decodeVideoHeader, hlen, hppl, hlpp, hbpp]

/-- A datagram that passes every check gives the fields at their offsets, with the bytes from offset 12 as payload. -/
theorem decodeVideoHeader_of_checks (hlen : dg.length = 780) (hppl : u16le dg 6 = 384#16) (hlpp : byteAt dg 8 = 4#8)
    (hbpp : byteAt dg 9 = 4#8) :
    decodeVideoHeader dg = .ok (headerFields dg ⟨dg.drop 12, by simp [hlen]⟩) :=
  (decodeVideoHeader_ok_iff dg _).2 ⟨by simp [videoWellFormed, hlen, hppl, hlpp, hbpp], rfl, rfl⟩

/-- The start line is the line field without its last-packet flag, by the mask of R150. -/
theorem startLineOf_toNat_eq_mask (line : Half) : (startLineOf line).toNat = (line &&& 0x7FFF#16).toNat := by
  rw [startLineOf_toNat, BitVec.toNat_and]
  exact (Nat.and_two_pow_sub_one_eq_mod line.toNat 15).symm

/-! ### What a datagram does to the state -/

theorem exec_videoDatagram_of_error {r : DiscardReason} (hd : decodeVideoHeader dg = .error r) (s : State) :
    exec (.videoDatagram dg) s = .next (discardVideo r s) := by
  simp only [exec, execVideoDatagram, hd]

theorem exec_videoDatagram_of_ok {h : VideoHeader} (hd : decodeVideoHeader dg = .ok h) (s : State) :
    exec (.videoDatagram dg) s = .next (s.schedule [.addPacket h.frame h.startLine h.lpp h.payload h.isLast]) := by
  simp only [exec, execVideoDatagram, hd]

theorem exec_audioDatagram_of_error {r : DiscardReason} (hd : decodeAudioHeader dg = .error r) (s : State) :
    exec (.audioDatagram dg) s = .next (discardAudio r s) := by
  simp only [exec, execAudioDatagram, hd]

theorem exec_audioDatagram_of_ok {p : Bytes 768} (hd : decodeAudioHeader dg = .ok p) (s : State) :
    exec (.audioDatagram dg) s = .next (s.schedule [.extractPcm p]) := by
  simp only [exec, execAudioDatagram, hd]

/-! ### The obligations -/

/-- Settles O6: one lemma per check in the order of R151, and the closed form of an accepted header. -/
theorem videoHeaderIsDecoded : Obligations.VideoHeaderIsDecoded := by
  intro dg s
  refine ⟨decodeVideoHeader_of_length_ne, decodeVideoHeader_of_ppl_ne, decodeVideoHeader_of_lpp_ne,
    decodeVideoHeader_of_bpp_ne, fun r hd => ?_, fun hlen hppl hlpp hbpp => ?_⟩
  · exact ⟨vinResponse (some r) s.video, exec_videoDatagram_of_error hd s⟩
  · have hd := decodeVideoHeader_of_checks hlen hppl hlpp hbpp
    exact ⟨_, hd, rfl, rfl, rfl, startLineOf_toNat_eq_mask _, hppl, hlpp, hbpp, rfl, exec_videoDatagram_of_ok hd s⟩

/-- Settles O11: both sides of the length check, the payload being the bytes from offset 2 whatever the header. -/
theorem audioHeaderIsDecoded : Obligations.AudioHeaderIsDecoded := by
  intro dg s
  refine ⟨fun hlen => ?_, fun hlen => ?_⟩
  · have hd := (decodeAudioHeader_error_iff dg .len).2 ⟨hlen, rfl⟩
    exact ⟨hd, ainResponse (some .len), exec_audioDatagram_of_error hd s⟩
  · have hd := (decodeAudioHeader_ok_iff dg ⟨dg.drop 2, by simp [hlen]⟩).2 ⟨hlen, rfl⟩
    exact ⟨_, hd, rfl, exec_audioDatagram_of_ok hd s⟩

end Sys2Proof.Machine
end

section
/-! ADD_PACKET register by register: what a stored packet leaves in the assembler (41_frame_assembler.md R181 to R185), that
storing it again changes nothing (R186), and that a tracked frame stays until a frame switch or RESET_VIDEO (R190). -/

namespace Sys2Proof.Machine

variable {capacity : Nat} {v w : VideoState} {frame : Half} {line : BitVec 15} {lpp : Byte} {payload : Bytes 768}
  {isLast : Bool}

/-! ### A frame switch -/

theorem isFrameSwitch_eq_false_iff : isFrameSwitch v frame = false ↔ v.trkValid = true ∧ frame = v.trkFrame := by
  simp [isFrameSwitch]

/-- A choice by the frame switch, with the frame that is kept first, as R182 reads it. -/
theorem ite_isFrameSwitch {α : Type} (switched kept : α) :
    (if isFrameSwitch v frame then switched else kept) =
      if v.trkValid = true ∧ frame = v.trkFrame then kept else switched := by
  by_cases same : v.trkValid = true ∧ frame = v.trkFrame
  · rw [if_pos same, isFrameSwitch_eq_false_iff.2 same]
    rfl
  · rw [if_neg same, Bool.eq_true_of_not_eq_false (mt isFrameSwitch_eq_false_iff.1 same)]
    rfl

/-! ### What a stored packet leaves -/

/-- `w` is `v` with the packet stored: every register as ADD_PACKET writes it (41_frame_assembler.md R185). -/
structure PacketStored (v : VideoState) (frame : Half) (line : BitVec 15) (lpp : Byte) (payload : Bytes 768)
    (isLast : Bool) (w : VideoState) : Prop where
  trkValid : w.trkValid = true
  trkFrame : w.trkFrame = frame
  slotValid : w.slotValid = markValid (if isFrameSwitch v frame then [] else v.slotValid) (packetIndex line lpp)
  slotLine : w.slotLine = sparseWrite 0#15 v.slotLine (packetIndex line lpp) [line]
  slotData : w.slotData = Memory.writeBlock v.slotData (slotAddr (packetIndex line lpp) 0) payload.bytes
  expCount : w.expCount = if isLast then BitVec.ofNat 16 (packetIndex line lpp + 1)
    else if isFrameSwitch v frame then 0#16 else v.expCount
  height : w.height = if isLast then BitVec.ofNat 16 (line.toNat + lpp.toNat)
    else if isFrameSwitch v frame then 0#16 else v.height

/-- The registers determine the state. -/
theorem PacketStored.unique {u : VideoState} (hw : PacketStored v frame line lpp payload isLast w)
    (hu : PacketStored v frame line lpp payload isLast u) : w = u := by
  cases w; cases u
  obtain ⟨hv, hf, hs, hl, hd, he, hh⟩ := hw
  obtain ⟨hv', hf', hs', hl', hd', he', hh'⟩ := hu
  simp only [VideoState.mk.injEq]
  exact ⟨hv.trans hv'.symm, hf.trans hf'.symm, hs.trans hs'.symm, hl.trans hl'.symm, hd.trans hd'.symm, he.trans he'.symm,
    hh.trans hh'.symm⟩

/-- ADD_PACKET answers a state exactly when the packet has a slot, and then the state with the packet stored. -/
theorem addPacketTo_ok_iff : addPacketTo capacity v frame line lpp payload isLast = .ok w ↔
    packetIndex line lpp < capacity ∧ PacketStored v frame line lpp payload isLast w := by
  rcases addPacketTo_cases capacity v frame line lpp payload isLast with
    ⟨hidx, e⟩ | ⟨u, hidx, e, hv, hf, hs, hl, hd, he, hh⟩
  · simp [e, Nat.not_lt.2 hidx]
  · have stored : PacketStored v frame line lpp payload isLast u := ⟨hv, hf, hs, hl, hd, he, hh⟩
    rw [e, Except.ok.injEq]
    exact ⟨fun h => h ▸ ⟨hidx, stored⟩, fun h => stored.unique h.2⟩

theorem addPacketTo_of_capacity_le (h : capacity ≤ packetIndex line lpp) :
    addPacketTo capacity v frame line lpp payload isLast = .error .capacity := if_pos h

namespace PacketStored

theorem slotValidAt_iff (h : PacketStored v frame line lpp payload isLast w) (i : Nat) : slotValidAt w i = true ↔
    i = packetIndex line lpp ∨ (v.trkValid = true ∧ frame = v.trkFrame ∧ slotValidAt v i = true) := by
  rw [Machine.slotValidAt_iff, h.slotValid, ite_isFrameSwitch, mem_markValid]
  split
  · next kept => simp [kept]
  · next switched => simp [← and_assoc, switched]

theorem slotLineAt_eq (h : PacketStored v frame line lpp payload isLast w) (i : Nat) :
    slotLineAt w i = if i = packetIndex line lpp then line else slotLineAt v i := by
  rw [slotLineAt, h.slotLine, slotLineAt_write, slotLineAt]

theorem slotByte_eq (h : PacketStored v frame line lpp payload isLast w) (i : Nat) {off : Nat} (ho : off < 768) :
    slotByte w i off = if i = packetIndex line lpp then byteAt payload.bytes off else slotByte v i off := by
  rw [slotByte, h.slotData, slotByte_write _ _ _ _ _ ho, slotByte]

/-- The expected count does not wrap: a start line has 15 bits (R181). -/
theorem expCount_toNat (h : PacketStored v frame line lpp payload isLast w) :
    w.expCount.toNat = if isLast then packetIndex line lpp + 1
      else if v.trkValid = true ∧ frame = v.trkFrame then v.expCount.toNat else 0 := by
  have noWrap : packetIndex line lpp + 1 < 2 ^ 16 := by
    have index_le : packetIndex line lpp ≤ line.toNat := Nat.div_le_self _ _
    omega
  rw [h.expCount, ite_isFrameSwitch, apply_ite BitVec.toNat, apply_ite BitVec.toNat, BitVec.toNat_ofNat,
    Nat.mod_eq_of_lt noWrap]
  rfl

/-- The height does not wrap: a start line has 15 bits and the lines of a packet 8 (R181). -/
theorem height_toNat (h : PacketStored v frame line lpp payload isLast w) :
    w.height.toNat = if isLast then line.toNat + lpp.toNat
      else if v.trkValid = true ∧ frame = v.trkFrame then v.height.toNat else 0 := by
  have noWrap : line.toNat + lpp.toNat < 2 ^ 16 := by omega
  rw [h.height, ite_isFrameSwitch, apply_ite BitVec.toNat, apply_ite BitVec.toNat, BitVec.toNat_ofNat,
    Nat.mod_eq_of_lt noWrap]
  rfl

/-- Afterwards a packet of the same frame is no frame switch. -/
theorem not_isFrameSwitch (h : PacketStored v frame line lpp payload isLast w) : isFrameSwitch w frame = false :=
  isFrameSwitch_eq_false_iff.2 ⟨h.trkValid, h.trkFrame.symm⟩

/-- Storing the packet again changes nothing: each write is idempotent, and there is no frame switch (R186). -/
theorem again (h : PacketStored v frame line lpp payload isLast w) : PacketStored w frame line lpp payload isLast w where
  trkValid := h.trkValid
  trkFrame := h.trkFrame
  slotValid := by rw [h.not_isFrameSwitch, h.slotValid]; exact (markValid_idem _ _).symm
  slotLine := by rw [h.slotLine]; exact (sparseWrite_idem _ _ _).symm
  slotData := by rw [h.slotData]; exact (sparseWrite_idem _ _ _).symm
  expCount := by rw [h.not_isFrameSwitch, h.expCount]; cases isLast <;> rfl
  height := by rw [h.not_isFrameSwitch, h.height]; cases isLast <;> rfl

/-- A packet of the tracked frame for a slot that is valid leaves the valid slots as they are (R186). -/
theorem slotValid_of_duplicate (h : PacketStored v v.trkFrame line lpp payload isLast w)
    (rising : v.slotValid.Pairwise (· < ·)) (tracked : v.trkValid = true)
    (valid : slotValidAt v (packetIndex line lpp) = true) : w.slotValid = v.slotValid := by
  have kept : isFrameSwitch v v.trkFrame = false := isFrameSwitch_eq_false_iff.2 ⟨tracked, rfl⟩
  rw [h.slotValid, kept]
  exact markValid_of_mem _ _ rising ((Machine.slotValidAt_iff v _).1 valid)

end PacketStored

/-- Settles O13: the packet has a slot or not, and a stored packet register by register. -/
theorem addPacketStoresThePacket : Obligations.AddPacketStoresThePacket := by
  intro capacity v frame line payload isLast
  refine ⟨fun beyond => addPacketTo_of_capacity_le beyond, fun below => ?_⟩
  rcases addPacketTo_cases capacity v frame line 4#8 payload isLast with ⟨beyond, -⟩ | ⟨w, -, e, -⟩
  · exact absurd below (Nat.not_lt.2 beyond)
  · obtain ⟨-, stored⟩ := addPacketTo_ok_iff.1 e
    exact ⟨w, e, stored.trkValid, stored.trkFrame, stored.slotValidAt_iff, stored.slotLineAt_eq,
      fun i _ => stored.slotByte_eq i, stored.expCount_toNat, stored.height_toNat⟩

/-- Settles O16: a duplicate marks a slot that is marked already and overwrites its line and bytes; a packet just stored is
stored again without effect. -/
theorem duplicatesAreLastWriteWins : Obligations.DuplicatesAreLastWriteWins := by
  refine ⟨fun capacity v w line payload isLast rising tracked valid e => ?_,
    fun capacity v w frame line lpp payload isLast e => ?_⟩
  · obtain ⟨-, stored⟩ := addPacketTo_ok_iff.1 e
    refine ⟨congrArg List.length (stored.slotValid_of_duplicate rising tracked valid), ?_, fun off ho => ?_⟩
    · rw [stored.slotLineAt_eq, if_pos rfl]
    · rw [stored.slotByte_eq _ ho, if_pos rfl]
  · obtain ⟨below, stored⟩ := addPacketTo_ok_iff.1 e
    exact addPacketTo_ok_iff.2 ⟨below, stored.again⟩

/-! ### The tracked frame stays -/

/-- `w` tracks the frame that `v` tracks and has every packet of it that `v` has (R190). -/
def KeepsFrame (v w : VideoState) : Prop :=
  w.trkValid = true ∧ w.trkFrame = v.trkFrame ∧ ∀ i, slotValidAt v i = true → slotValidAt w i = true

theorem KeepsFrame.refl (tracked : v.trkValid = true) : KeepsFrame v v := ⟨tracked, rfl, fun _ h => h⟩

theorem PacketStored.keepsFrame (h : PacketStored v v.trkFrame line lpp payload isLast w) (tracked : v.trkValid = true) :
    KeepsFrame v w :=
  ⟨h.trkValid, h.trkFrame, fun i hi => (h.slotValidAt_iff i).2 (.inr ⟨tracked, rfl, hi⟩)⟩

/-- RESET_VIDEO is the one request of the single byte 0x05 (30_encoding.md R120). -/
theorem eq_of_decodeCmd_resetVideo {b : List Byte} (h : decodeCmd b = .ok .resetVideo) : b = [5#8] := by
  cases b with
  | nil => cases h
  | cons op rest =>
    simp only [decodeCmd] at h
    split at h
    case h_5 hop =>
      obtain ⟨hlen, -⟩ := ofLength_eq_ok h
      obtain rfl : rest = [] := by simpa using hlen
      obtain rfl : op = 5#8 := BitVec.eq_of_toNat_eq hop
      rfl
    case h_8 => cases h
    all_goals cases (ofLength_eq_ok h).2

/-- An accepted datagram of the tracked frame keeps the frame, whether ADD_PACKET stores it or turns it away. -/
theorem videoEffect_keepsFrame_of_same_frame {dg : List Byte} {h : VideoHeader} (hd : decodeVideoHeader dg = .ok h)
    (tracked : v.trkValid = true) (same : h.frame = v.trkFrame) : KeepsFrame v (videoEffect ⟨.vin, dg⟩ v) := by
  simp only [videoEffect, hd, same]
  split
  · exact .refl tracked
  · next e => exact (addPacketTo_ok_iff.1 e).2.keepsFrame tracked

/-- The two exits of a tracked frame: every transaction keeps it but RESET_VIDEO and an accepted video datagram of another
frame number. -/
theorem videoEffect_keepsFrame_or (x : Txn) (tracked : v.trkValid = true) :
    KeepsFrame v (videoEffect x v) ∨ x = ⟨.cmd, [5#8]⟩ ∨
      ∃ dg h, x = ⟨.vin, dg⟩ ∧ decodeVideoHeader dg = .ok h ∧ h.frame ≠ v.trkFrame := by
  obtain ⟨port, b⟩ := x
  cases port with
  | vin =>
    match hd : decodeVideoHeader b with
    | .error r =>
      refine .inl ?_
      simp only [videoEffect, hd]
      exact .refl tracked
    | .ok h =>
      by_cases same : h.frame = v.trkFrame
      · exact .inl (videoEffect_keepsFrame_of_same_frame hd tracked same)
      · exact .inr (.inr ⟨b, h, rfl, hd, same⟩)
  | ain => exact .inl (.refl tracked)
  | cmd =>
    by_cases hd : decodeCmd b = .ok .resetVideo
    · exact .inr (.inl (by rw [eq_of_decodeCmd_resetVideo hd]))
    · refine .inl ?_
      simp only [videoEffect, if_neg hd]
      exact .refl tracked

/-- Settles O19: a step with nothing delivered changes nothing, and the transaction a step takes keeps the frame or is one
of the two exits. -/
theorem trackedFrameStaysUntilASwitchOrReset : Obligations.TrackedFrameStaysUntilASwitchOrReset := by
  refine ⟨fun s t hs tracked e => ?_, step_idle⟩
  match ha : s.arrivals with
  | [] =>
    rw [step_idle s hs ha] at e
    obtain rfl := Host.Outcome.next.inj e
    exact .inl (KeepsFrame.refl tracked)
  | x :: rest =>
    rw [step_take s x rest hs ha] at e
    obtain rfl := eq_of_transact e hs
    rcases videoEffect_keepsFrame_or x tracked with kept | rfl | ⟨dg, h, rfl, hd, other⟩
    · exact .inl kept
    · exact .inr (.inl ⟨rest, rfl⟩)
    · exact .inr (.inr ⟨dg, rest, h, rfl, hd, other⟩)

end Sys2Proof.Machine
end

section
/-! DECODE_BYTE: the nibbles of a pixel byte by arithmetic (20_memory.md R71), its CMD form, and the error for a request of
another length (42_pixel_decoder.md R232, 30_encoding.md R121). -/

namespace Sys2Proof.Machine

@[simp] theorem lowNibble_toNat (b : Byte) : (lowNibble b).toNat = b.toNat % 16 := by
  simp [lowNibble]

@[simp] theorem highNibble_toNat (b : Byte) : (highNibble b).toNat = b.toNat / 16 := by
  have quotient_lt : b.toNat / 16 < 16 := by omega
  simp [highNibble, Nat.shiftRight_eq_div_pow, Nat.mod_eq_of_lt quotient_lt]

theorem ofLength_of_length_ne {n : Nat} {b : List Byte} (hlen : b.length ≠ n) (i : Instr) :
    ofLength n b i = .error .length :=
  if_neg hlen

/-- Op code 7 is DECODE_BYTE's, whose request is 2 bytes long. -/
theorem decodeCmd_decodeByte_of_length_ne {rest : List Byte} (hlen : rest.length ≠ 1) :
    decodeCmd (7#8 :: rest) = .error .length :=
  ofLength_of_length_ne (by simpa using hlen) _

/-- Settles O28: the nibbles are the remainder and the quotient by 16, and the decoder's length error is answered and
changes nothing. -/
theorem decodeByteLooksUpBothNibbles : Obligations.DecodeByteLooksUpBothNibbles := by
  refine ⟨fun b s => ?_, fun rest s hlen => ?_⟩
  · exact ⟨lowNibble b, highNibble b, lowNibble_toNat b, highNibble_toNat b, rfl, rfl⟩
  · exact transact_error ⟨.cmd, 7#8 :: rest⟩ s .length (decodeCmd_decodeByte_of_length_ne hlen)

end Sys2Proof.Machine
end

section
/-! EXTRACT_PCM: a 16-bit field read as a signed sample, and the sample pairs of an audio datagram at their offsets
(20_memory.md R72, 43_audio.md R250). -/

namespace Sys2Proof.Machine

variable {dg : List Byte}

/-- Bit 7 of the byte at the higher offset is the sign. -/
theorem u16le_toInt (b : List Byte) (i : Nat) :
    (u16le b i).toInt = ((byteAt b i).toNat + 256 * (byteAt b (i + 1)).toNat : Int) -
      (if 128 ≤ (byteAt b (i + 1)).toNat then 65536 else 0) := by
  have low_lt := (byteAt b i).isLt
  rw [BitVec.toInt_eq_toNat_cond, u16le_toNat]
  split_ifs <;> omega

/-- The sample pairs of an audio datagram, after its two header bytes. -/
def datagramPairs (dg : List Byte) : List (Half × Half) := stereoPairs (leWords (dg.drop 2))

theorem filterStages_eq {payload : Bytes 768} (h : payload.bytes = dg.drop 2) :
    filterStages payload = (datagramPairs dg).map fun p => .dcFilter p.1 p.2 := by
  rw [filterStages, h, datagramPairs]

theorem datagramPairs_length (hlen : dg.length = 770) : (datagramPairs dg).length = 192 := by
  simp [datagramPairs, stereoPairs_length, leWords_length, hlen]

theorem datagramPairs_getElem? (hlen : dg.length = 770) {p : Nat} (hp : p < 192) :
    (datagramPairs dg)[p]? = some (u16le dg (2 + 4 * p), u16le dg (4 + 4 * p)) := by
  have inside : p < (stereoPairs (leWords (dg.drop 2))).length := (datagramPairs_length hlen).symm ▸ hp
  have left_offset : 2 + 2 * (2 * p) = 2 + 4 * p := by omega
  have right_offset : 2 + 2 * (2 * p + 1) = 4 + 4 * p := by omega
  rw [datagramPairs, List.getElem?_eq_getElem inside, stereoPairs_getElem _ p inside]
  simp only [leWords_getElem, u16le_drop, left_offset, right_offset]

/-- Settles O29: the stages are the datagram's pairs in order, each sample a 16-bit field with its sign. -/
theorem extractedSamples : Obligations.ExtractedSamples := by
  intro dg payload s accepted
  obtain ⟨hlen, hbytes⟩ := (decodeAudioHeader_ok_iff dg payload).1 accepted
  refine ⟨filterStages payload, rfl, ?_, fun p hp => ⟨u16le dg (2 + 4 * p), u16le dg (4 + 4 * p), ?_, ?_, ?_⟩⟩
  · rw [filterStages_eq hbytes, List.length_map, datagramPairs_length hlen]
  · rw [filterStages_eq hbytes, List.getElem?_map, datagramPairs_getElem? hlen hp]
    rfl
  · rw [u16le_toInt, Nat.add_right_comm]
  · rw [u16le_toInt, Nat.add_right_comm]

end Sys2Proof.Machine
end

section
/-! DC_FILTER on one sample pair: the channels it leaves, the block with room and the block it fills, and the output sample
(43_audio.md R260 to R263, R267). -/

namespace Sys2Proof.Machine

variable {s t : State} {xL xR : Half}

/-! ### What the instruction leaves -/

/-- A pair that does not fill the block adds its two output samples. -/
theorem exec_dcFilter_of_room (room : s.pcm.length ≠ 382) :
    exec (.dcFilter xL xR) s = .next ((s.withAudio ⟨dcStep s.audio.left xL, dcStep s.audio.right xR⟩).withPcm
      (s.pcm ++ [sampleOf (dcStep s.audio.left xL).dcOut, sampleOf (dcStep s.audio.right xR).dcOut])) := by
  simp [exec, execDcFilter, finishBlock, room]

/-- The pair that fills the block sends the AIN response, then the block. -/
theorem exec_dcFilter_of_last (last : s.pcm.length = 382) :
    exec (.dcFilter xL xR) s = .next ((((s.withAudio ⟨dcStep s.audio.left xL, dcStep s.audio.right xR⟩).emit
      .ainResponse (ainResponse none)).emit .aout (pcmBytes
        (s.pcm ++ [sampleOf (dcStep s.audio.left xL).dcOut, sampleOf (dcStep s.audio.right xR).dcOut]))).withPcm []) := by
  simp [exec, execDcFilter, finishBlock, last, State.emit, State.withPcm]

/-- With room or without, each channel makes one step of its own. -/
theorem audio_of_exec_dcFilter (h : exec (.dcFilter xL xR) s = .next t) :
    t.audio = ⟨dcStep s.audio.left xL, dcStep s.audio.right xR⟩ := by
  by_cases last : s.pcm.length = 382
  · cases h.symm.trans (exec_dcFilter_of_last last)
    rfl
  · cases h.symm.trans (exec_dcFilter_of_room last)
    rfl

theorem pcm_of_exec_dcFilter (h : exec (.dcFilter xL xR) s = .next t) (room : s.pcm.length ≠ 382) :
    t.pcm = s.pcm ++ [sampleOf (dcStep s.audio.left xL).dcOut, sampleOf (dcStep s.audio.right xR).dcOut] := by
  cases h.symm.trans (exec_dcFilter_of_room room)
  rfl

theorem out_of_exec_dcFilter (h : exec (.dcFilter xL xR) s = .next t) (last : s.pcm.length = 382) :
    t.out = s.out ++ [⟨.ainResponse, ainResponse none⟩, ⟨.aout, pcmBytes
      (s.pcm ++ [sampleOf (dcStep s.audio.left xL).dcOut, sampleOf (dcStep s.audio.right xR).dcOut])⟩] := by
  cases h.symm.trans (exec_dcFilter_of_last last)
  simp

/-! ### Samples -/

/-- The difference of two samples, which binary64 holds exactly. -/
theorem sample_difference_le (x y : Half) : (x.toInt - y.toInt).natAbs ≤ 65535 := by
  have hx := toInt_bounds x
  have hy := toInt_bounds y
  omega

theorem clampSample_toInt (v : Int) : (clampSample v).toInt = max (-32768) (min 32767 v) := by
  rw [clampSample, BitVec.toInt_ofInt_eq_self (by decide) (by split_ifs <;> omega) (by split_ifs <;> omega)]
  split_ifs <;> omega

theorem sampleOf_toInt {y : F64} (finite : fFinite y = true) :
    (sampleOf y).toInt = max (-32768) (min 32767 (rneInt y)) := by
  rw [sampleOf, if_pos finite, clampSample_toInt]

/-- Settles O30: what the instruction leaves is one step of each channel, and a step keeps the bound, which makes the
outputs finite. -/
theorem dcFilterStep : Obligations.DcFilterStep := by
  intro s xL xR
  obtain ⟨t, -, -, next, -⟩ := exec_next (.dcFilter xL xR) s
  have audio := audio_of_exec_dcFilter next
  refine ⟨t, (dcStep s.audio.left xL).dcOut, (dcStep s.audio.right xR).dcOut, next, rfl, rfl,
    by rw [audio]; rfl, by rw [audio], by rw [audio]; rfl, by rw [audio], sample_difference_le _ _,
    sample_difference_le _ _, pcm_of_exec_dcFilter next, fun last => ⟨_, out_of_exec_dcFilter next last⟩, ?_⟩
  rintro ⟨left, right⟩
  obtain ⟨finiteL, -⟩ := dcStep_bounded _ xL left
  obtain ⟨finiteR, -⟩ := dcStep_bounded _ xR right
  exact ⟨finiteL, finiteR, sampleOf_toInt finiteL, sampleOf_toInt finiteR⟩

end Sys2Proof.Machine
end

section
/-! Blocks of sample pairs: each channel is filtered by itself (43_audio.md R267), and the filter state goes from one block
to the next (R264). -/

namespace Sys2Proof.Machine

/-! ### One channel over a block -/

/-- The output samples of one channel over its input samples in order. -/
def channelSamples (ch : DcChannel) : List Half → List Half
  | [] => []
  | x :: rest => sampleOf (dcStep ch x).dcOut :: channelSamples (dcStep ch x) rest

/-- A block leaves in each channel what that channel's own samples leave. -/
theorem filterPairs_audio (a : AudioState) (p : List (Half × Half)) :
    (filterPairs a p).1 = ⟨(p.map (·.1)).foldl dcStep a.left, (p.map (·.2)).foldl dcStep a.right⟩ := by
  induction p generalizing a with
  | nil => rfl
  | cons x p ih => exact ih _

/-- The outputs of the left channel stand at the even places of a block, those of the right channel at the odd ones. -/
theorem filterPairs_samples (a : AudioState) (p : List (Half × Half)) (k : Nat) :
    (filterPairs a p).2[2 * k]? = (channelSamples a.left (p.map (·.1)))[k]? ∧
      (filterPairs a p).2[2 * k + 1]? = (channelSamples a.right (p.map (·.2)))[k]? := by
  induction p generalizing a k with
  | nil => exact ⟨rfl, rfl⟩
  | cons x p ih =>
    obtain ⟨xL, xR⟩ := x
    simp only [filterPairs, List.map_cons, channelSamples]
    cases k with
    | zero => simp
    | succ k => simpa only [Nat.mul_succ, List.getElem?_cons_succ] using ih ⟨dcStep a.left xL, dcStep a.right xR⟩ k

/-- Settles O38: for one pair by the step of each channel, for a block by what each channel makes of its own samples. -/
theorem channelsAreIndependent : Obligations.ChannelsAreIndependent := by
  refine ⟨fun s u t w xL xR yL yR ht hw => ?_, fun a b p q => ⟨fun state samples => ?_, fun state samples => ?_⟩⟩
  · rw [audio_of_exec_dcFilter ht, audio_of_exec_dcFilter hw]
    exact ⟨fun state sample => by rw [state, sample], fun state sample => by rw [state, sample]⟩
  · refine ⟨?_, fun k => ?_⟩
    · simp only [filterPairs_audio, state, samples]
    · rw [(filterPairs_samples a p k).1, (filterPairs_samples b q k).1, state, samples]
  · refine ⟨?_, fun k => ?_⟩
    · simp only [filterPairs_audio, state, samples]
    · rw [(filterPairs_samples a p k).2, (filterPairs_samples b q k).2, state, samples]

/-! ### The transactions of AIN -/

variable {dg : List Byte} {s : State}

/-- An accepted datagram: its pairs are filtered from the state before it, and the response and the block leave. -/
theorem transact_ain_accepted (hs : s.stages = []) (hlen : dg.length = 770) :
    transact ⟨.ain, dg⟩ s = .next { s with
      audio := (filterPairs s.audio (datagramPairs dg)).1
      pcm := []
      out := s.out ++ [⟨.ainResponse, [0#8, 0#8]⟩, ⟨.aout, pcmBytes (filterPairs s.audio (datagramPairs dg)).2⟩] } := by
  have accepted := (decodeAudioHeader_ok_iff dg ⟨dg.drop 2, by simp [hlen]⟩).2 ⟨hlen, rfl⟩
  rw [transact_ok ⟨.ain, dg⟩ s (.audioDatagram dg) rfl, perform_audio_accepted dg s _ accepted hs]
  rfl

theorem transact_ain_discarded (hs : s.stages = []) (hlen : dg.length ≠ 770) :
    transact ⟨.ain, dg⟩ s = .next (discardAudio .len s) := by
  have discarded := (decodeAudioHeader_error_iff dg .len).2 ⟨hlen, rfl⟩
  rw [transact_ok ⟨.ain, dg⟩ s (.audioDatagram dg) rfl, perform_audio_discarded dg s _ discarded hs]

/-- Settles O40: the second block starts from the state the first one left, which is filtering both as one sequence; a
discard only sends its response, whatever the filter holds. -/
theorem filterStateCrossesBlocks : Obligations.FilterStateCrossesBlocks := by
  refine ⟨fun s t u d e hs hd he ht hu => ?_, fun s dg hs hlen => ?_⟩
  · obtain rfl := Host.Outcome.next.inj (ht.symm.trans (transact_ain_accepted hs hd))
    obtain rfl := Host.Outcome.next.inj (hu.symm.trans (transact_ain_accepted hs he))
    refine ⟨_, _, ?_, ?_, filterPairs_append s.audio (datagramPairs d) (datagramPairs e), ?_⟩
    · rw [filterPairs_length, datagramPairs_length hd]
    · rw [filterPairs_length, datagramPairs_length he]
    · simp only [pcmBytes, List.append_assoc, List.cons_append, List.nil_append]
  · exact ⟨discardAudio .len s, fun a => transact_ain_discarded (s := s.withAudio a) hs hlen⟩

end Sys2Proof.Machine
end

section
/-! The control protocol encoder: its requests from their bytes to the commands that leave on COUT (44_control.md R295,
R300), and that what a request sends depends on nothing but the request (R290). -/

namespace Sys2Proof.Machine

variable {b : List Byte} {i : Instr} {id : Byte} {s : State}

/-! ### Reading an encoder request -/

theorem le16_append_bytes (hi lo : Byte) : le16 (hi ++ lo) = [lo, hi] := by
  have low : (hi ++ lo : BitVec (8 + 8)).extractLsb' 0 8 = lo := BitVec.extractLsb'_append_eq_right
  have high : (hi ++ lo : BitVec (8 + 8)).extractLsb' 8 8 = hi := BitVec.extractLsb'_append_eq_left
  exact congrArg₂ (fun x y => [x, y]) low high

theorem ofLength_error_or_ok (n : Nat) (b : List Byte) (i : Instr) :
    ofLength n b i = .error .length ∨ ofLength n b i = .ok i := by
  by_cases hlen : b.length = n
  · exact .inr (if_pos hlen)
  · exact .inl (if_neg hlen)

theorem decodeCmd_start_of_length_ne {rest : List Byte} (hlen : rest.length ≠ 9) :
    decodeCmd (3#8 :: rest) = .error .length :=
  ofLength_of_length_ne (by simpa using hlen) _

theorem decodeCmd_stop_of_length_ne {rest : List Byte} (hlen : rest.length ≠ 1) :
    decodeCmd (4#8 :: rest) = .error .length :=
  ofLength_of_length_ne (by simpa using hlen) _

/-- Op codes 3 and 4 are the encoder's: such a request is refused for its length, or is ENCODE_START or ENCODE_STOP. -/
theorem decodeCmd_encoder_cases (hop : byteAt b 0 = 3#8 ∨ byteAt b 0 = 4#8) :
    decodeCmd b = .error .length ∨ (∃ id ep duration, decodeCmd b = .ok (.encodeStart id ep duration)) ∨
      ∃ id, decodeCmd b = .ok (.encodeStop id) := by
  cases b with
  | nil => exact absurd hop (by decide)
  | cons op rest =>
    obtain rfl | rfl : op = 3#8 ∨ op = 4#8 := hop
    · exact (ofLength_error_or_ok 10 (3#8 :: rest) _).imp_right fun ok => .inl ⟨_, _, _, ok⟩
    · exact (ofLength_error_or_ok 2 (4#8 :: rest) _).imp_right fun ok => .inr ⟨_, ok⟩

/-! ### What it sends -/

theorem stream_accepted_iff : (id = 0#8 ∨ id = 1#8) ↔ id.toNat ≤ 1 := by
  bv_omega

theorem requestSends_start_of_accepted (hid : id.toNat ≤ 1) (ep : Endpoint) (durLo durHi : Byte) (v : VideoState) :
    requestSends (.encodeStart id ep (durHi ++ durLo)) v =
      [⟨.cmdResponse, [0#8] ++ le16 (BitVec.ofNat 16 (6 + (endpointText ep).length))⟩,
       ⟨.cout, [0x20#8 + id, 0xFF#8] ++ le16 (BitVec.ofNat 16 (2 + (endpointText ep).length)) ++ [durLo, durHi] ++
          endpointText ep⟩] := by
  have params : startParams ep (durHi ++ durLo) = [durLo, durHi] ++ endpointText ep := by
    rw [startParams, le16_append_bytes]
  have command_length : 4 + (startParams ep (durHi ++ durLo)).length = 6 + (endpointText ep).length := by
    rw [startParams_length]
    omega
  rw [requestSends, if_pos (stream_accepted_iff.2 hid), command_length, ctlCommand, startParams_length, params]
  rfl

theorem requestSends_stop_of_accepted (hid : id.toNat ≤ 1) (v : VideoState) :
    requestSends (.encodeStop id) v =
      [⟨.cmdResponse, [0#8, 4#8, 0#8]⟩, ⟨.cout, [0x30#8 + id, 0xFF#8, 0x00#8, 0x00#8]⟩] :=
  if_pos (stream_accepted_iff.2 hid)

theorem requestSends_start_of_refused (hid : 1 < id.toNat) (ep : Endpoint) (duration : Half) (v : VideoState) :
    requestSends (.encodeStart id ep duration) v = [⟨.cmdResponse, [0x82#8]⟩] :=
  if_neg (mt stream_accepted_iff.1 (Nat.not_le_of_lt hid))

theorem requestSends_stop_of_refused (hid : 1 < id.toNat) (v : VideoState) :
    requestSends (.encodeStop id) v = [⟨.cmdResponse, [0x82#8]⟩] :=
  if_neg (mt stream_accepted_iff.1 (Nat.not_le_of_lt hid))

/-- A request that is on neither path only sends, and sends the same whatever the assembler holds. -/
theorem transact_of_neither (hs : s.stages = []) (hd : decodeCmd b = .ok i) (hpath : pathOf i = .neither)
    (v : VideoState) : transact ⟨.cmd, b⟩ s = .next { s with out := s.out ++ requestSends i v } := by
  have not_video : pathOf i ≠ .video := by simp [hpath]
  have not_resetVideo : i ≠ .resetVideo := by rintro rfl; cases hpath
  have not_resetAudio : i ≠ .resetAudio := by rintro rfl; cases hpath
  rw [transact_ok ⟨.cmd, b⟩ s i hd, perform_request i s hs (decodeCmd_isRequest hd), if_neg not_resetVideo,
    if_neg not_resetAudio, requestSends_of_not_video not_video s.video v]

/-- Settles O45: the bytes are read as ENCODE_START, which sends the command of an accepted stream. -/
theorem startRequestSendsTheStartCommand : Obligations.StartRequestSendsTheStartCommand := by
  intro s id a b c d portLo portHi durLo durHi hs
  have hd : decodeCmd [3#8, id, a, b, c, d, portLo, portHi, durLo, durHi] =
      .ok (.encodeStart id ⟨a, b, c, d, portHi ++ portLo⟩ (durHi ++ durLo)) := rfl
  have sent := transact_of_neither hs hd rfl s.video
  obtain ⟨shortest, longest⟩ := endpointText_length ⟨a, b, c, d, portHi ++ portLo⟩
  refine ⟨fun hid => ⟨by omega, by omega, ?_⟩, fun hid => ?_, fun rest hlen => ?_⟩
  · rw [sent, requestSends_start_of_accepted hid]
  · rw [sent, requestSends_start_of_refused hid]
  · exact transact_error ⟨.cmd, 3#8 :: rest⟩ s .length (decodeCmd_start_of_length_ne hlen)

/-- Settles O46: the bytes are read as ENCODE_STOP, which sends the command of an accepted stream. -/
theorem stopRequestSendsTheStopCommand : Obligations.StopRequestSendsTheStopCommand := by
  intro s id hs
  have hd : decodeCmd [4#8, id] = .ok (.encodeStop id) := rfl
  have sent := transact_of_neither hs hd rfl s.video
  refine ⟨fun hid => ?_, fun hid => ?_, fun rest hlen => ?_⟩
  · rw [sent, requestSends_stop_of_accepted hid]
  · rw [sent, requestSends_stop_of_refused hid]
  · exact transact_error ⟨.cmd, 4#8 :: rest⟩ s .length (decodeCmd_stop_of_length_ne hlen)

/-! ### The encoder is pure -/

/-- One response, then at most one transfer on COUT. -/
def IsEncoderAnswer (sent : List Transfer) : Prop :=
  ∃ (response : List Byte) (command : List Transfer), (command = [] ∨ ∃ bytes, command = [⟨.cout, bytes⟩]) ∧
    sent = [⟨.cmdResponse, response⟩] ++ command

theorem isEncoderAnswer_response (response : List Byte) : IsEncoderAnswer [⟨.cmdResponse, response⟩] :=
  ⟨response, [], .inl rfl, rfl⟩

theorem isEncoderAnswer_command (response bytes : List Byte) :
    IsEncoderAnswer [⟨.cmdResponse, response⟩, ⟨.cout, bytes⟩] :=
  ⟨response, [⟨.cout, bytes⟩], .inr ⟨bytes, rfl⟩, rfl⟩

theorem requestSends_start_isEncoderAnswer (id : Byte) (ep : Endpoint) (duration : Half) (v : VideoState) :
    IsEncoderAnswer (requestSends (.encodeStart id ep duration) v) := by
  rw [requestSends]
  split
  · exact isEncoderAnswer_command _ _
  · exact isEncoderAnswer_response _

theorem requestSends_stop_isEncoderAnswer (id : Byte) (v : VideoState) :
    IsEncoderAnswer (requestSends (.encodeStop id) v) := by
  rw [requestSends]
  split
  · exact isEncoderAnswer_command _ _
  · exact isEncoderAnswer_response _

/-- The answer to an encoder request is fixed by the request alone. -/
theorem transact_encoder_sends (hop : byteAt b 0 = 3#8 ∨ byteAt b 0 = 4#8) :
    ∃ sent, IsEncoderAnswer sent ∧
      ∀ s : State, s.stages = [] → transact ⟨.cmd, b⟩ s = .next { s with out := s.out ++ sent } := by
  obtain refused | ⟨id, ep, duration, start⟩ | ⟨id, stop⟩ := decodeCmd_encoder_cases hop
  · exact ⟨_, isEncoderAnswer_response [0x81#8], fun s _ => transact_error ⟨.cmd, b⟩ s .length refused⟩
  · exact ⟨_, requestSends_start_isEncoderAnswer id ep duration State.reset.video,
      fun s hs => transact_of_neither hs start rfl _⟩
  · exact ⟨_, requestSends_stop_isEncoderAnswer id State.reset.video, fun s hs => transact_of_neither hs stop rfl _⟩

/-- Settles O49: the one answer of a request, written as its response and its command. -/
theorem encoderIsPure : Obligations.EncoderIsPure := by
  intro b hop
  obtain ⟨_, ⟨response, command, at_most_one, rfl⟩, sends_them⟩ := transact_encoder_sends hop
  refine ⟨response, command, at_most_one, fun s hs => ?_⟩
  rw [sends_them s hs, List.append_assoc]

end Sys2Proof.Machine
end

section
/-! What turns a transaction away and what every one ends with: a response in each case, a discard that leaves nothing else
behind, and the answer of an incomplete frame (60_exceptions.md R321, R324, R328). -/

namespace Sys2Proof.Machine

variable {s : State} {r : DiscardReason}

/-! ### ASSEMBLE without a complete frame -/

theorem exec_assemble_of_incomplete (incomplete : isComplete s.video = false) :
    exec .assemble s = .next (cmdNone s) := by
  simp only [exec, execAssemble, incomplete, Bool.false_eq_true, if_false]

/-- Settles O24: without a complete frame ASSEMBLE only answers NONE, which appends one response. -/
theorem assembleAnswersNone : Obligations.AssembleAnswersNone :=
  fun _ incomplete => exec_assemble_of_incomplete incomplete

/-! ### Discards -/

theorem discardVideo_eq (r : DiscardReason) (s : State) : discardVideo r s = { s with
    out := s.out ++ [⟨.vinResponse, [1#8, discardCode r, asmCode (asmState s.video)]⟩] } := rfl

theorem discardAudio_eq (r : DiscardReason) (s : State) : discardAudio r s = { s with
    out := s.out ++ [⟨.ainResponse, [1#8, discardCode r]⟩] } := rfl

theorem transact_vin_of_error {dg : List Byte} (hs : s.stages = []) (hd : decodeVideoHeader dg = .error r) :
    transact ⟨.vin, dg⟩ s = .next (discardVideo r s) := by
  rw [transact_ok ⟨.vin, dg⟩ s (.videoDatagram dg) rfl, perform_video_discarded dg s r hd hs]

theorem exec_addPacket_of_error {frame : Half} {line : BitVec 15} {lpp : Byte} {payload : Bytes 768} {isLast : Bool}
    (beyond : addPacketTo Config.maxPackets s.video frame line lpp payload isLast = .error r) :
    exec (.addPacket frame line lpp payload isLast) s = .next (discardVideo r s) := by
  simp only [exec, execAddPacket, beyond]

/-- Settles O53: each of the three checks ends in a discard, which only appends its response. -/
theorem discardedDatagramsLeaveNoTrace : Obligations.DiscardedDatagramsLeaveNoTrace := by
  refine ⟨fun s dg r hs hd => ?_, fun s dg r hs hd => ?_, fun s frame line lpp payload isLast r beyond => ?_⟩
  · rw [transact_vin_of_error hs hd, discardVideo_eq]
  · obtain ⟨hlen, rfl⟩ := (decodeAudioHeader_error_iff dg r).1 hd
    rw [transact_ain_discarded hs hlen, discardAudio_eq]
  · rw [exec_addPacket_of_error beyond, discardVideo_eq]

/-! ### Every transaction ends with a response -/

/-- What a request sends begins with a response on the request's own channel. -/
theorem requestSends_eq_response_cons {i : Instr} (request : isRequest i = true) (v : VideoState) :
    ∃ response outputs, requestSends i v = ⟨.cmdResponse, response⟩ :: outputs := by
  cases i with
  | queryStatus | resetVideo | resetAudio | decodeByte => exact ⟨_, _, rfl⟩
  | assemble | encodeStart | encodeStop =>
    rw [requestSends]
    split <;> exact ⟨_, _, rfl⟩
  | _ => cases request

/-- What a transaction sends begins with a response on its own port's channel (30_encoding.md R100). -/
theorem sends_eq_response_cons (t : Txn) (v : VideoState) (a : AudioState) :
    ∃ response outputs, sends t v a = ⟨responsePort t.port, response⟩ :: outputs := by
  obtain ⟨port, bytes⟩ := t
  cases port with
  | vin => exact ⟨_, _, rfl⟩
  | ain =>
    simp only [sends]
    split <;> exact ⟨_, _, rfl⟩
  | cmd =>
    simp only [sends]
    split
    · exact ⟨_, _, rfl⟩
    · next i hd => exact requestSends_eq_response_cons (decodeCmd_isRequest hd) v

theorem isResponse_responsePort (port : InPort) (bytes : List Byte) : isResponse ⟨responsePort port, bytes⟩ = true := by
  cases port <;> rfl

/-- A step goes through and leaves no operation to run, whether it idles, takes a transaction or goes on with stages. -/
theorem step_completes (s : State) : ∃ t, step s = .next t ∧ t.stages = [] := by
  rcases step_cases s with ⟨hs, -, e⟩ | ⟨x, rest, i, -, -, -, e⟩ | ⟨x, rest, err, hs, -, -, e⟩ | ⟨-, e⟩
  · exact ⟨s, e, hs⟩
  · obtain ⟨t, -, done, ht, -⟩ := perform_completes i (s.withArrivals rest)
    exact ⟨t, e.trans done, ht⟩
  · exact ⟨_, e, hs⟩
  · obtain ⟨t, -, done, ht, -⟩ := finishStages_completes s
    exact ⟨t, e.trans done, ht⟩

/-- Settles O51: every step runs to its end, and what the transaction it takes sends begins with a response. -/
theorem everyTransactionEndsWithAResponse : Obligations.EveryTransactionEndsWithAResponse := by
  refine ⟨step_completes, fun s txn rest hs ha => ?_⟩
  obtain ⟨response, outputs, responds⟩ := sends_eq_response_cons txn s.video s.audio
  refine ⟨_, sends txn s.video s.audio, ⟨responsePort txn.port, response⟩,
    (step_take s txn rest hs ha).trans (transact_eq txn (s.withArrivals rest) hs), hs, rfl, rfl, ?_,
    isResponse_responsePort _ _⟩
  rw [responds]
  exact List.mem_cons_self

end Sys2Proof.Machine
end

section
/-! What an instruction leaves alone: the operations that write no core state, and those of the audio path (10_state.md
section 4, 41_frame_assembler.md section 1). -/

namespace Sys2Proof.Machine

variable {i : Instr} {s t : State}

/-- An instruction takes no transaction and withdraws nothing it has sent. -/
theorem arrivals_out_of_exec (h : exec i s = .next t) : t.arrivals = s.arrivals ∧ ∃ sent, t.out = s.out ++ sent := by
  obtain ⟨u, -, sent, next, -, -, arrivals, out⟩ := exec_next i s
  obtain rfl := Host.Outcome.next.inj (next.symm.trans h)
  exact ⟨arrivals, sent, out⟩

@[simp] theorem answerEncoder_video (command : Option Instr) (n : Nat) (s : State) :
    (answerEncoder command n s).video = s.video := by
  cases command <;> rfl

@[simp] theorem answerEncoder_audio (command : Option Instr) (n : Nat) (s : State) :
    (answerEncoder command n s).audio = s.audio := by
  cases command <;> rfl

@[simp] theorem answerEncoder_pcm (command : Option Instr) (n : Nat) (s : State) :
    (answerEncoder command n s).pcm = s.pcm := by
  cases command <;> rfl

/-- An operation that writes no core state leaves the assembler and the filter; only EXTRACT_PCM starts a new block. -/
theorem core_state_of_exec (noWrite : writesNoState i = true) (h : exec i s = .next t) :
    t.video = s.video ∧ t.audio = s.audio ∧ ((∀ payload, i ≠ .extractPcm payload) → t.pcm = s.pcm) := by
  cases i with
  | addPacket | dcFilter | resetVideo | resetAudio => cases noWrite
  | videoDatagram dg =>
    simp only [exec, execVideoDatagram] at h
    split at h <;> cases h <;> exact ⟨rfl, rfl, fun _ => rfl⟩
  | audioDatagram dg =>
    simp only [exec, execAudioDatagram] at h
    split at h <;> cases h <;> exact ⟨rfl, rfl, fun _ => rfl⟩
  | assemble =>
    simp only [exec, execAssemble] at h
    split at h <;> cases h <;> exact ⟨rfl, rfl, fun _ => rfl⟩
  | extractPcm payload =>
    cases h
    exact ⟨rfl, rfl, fun other => absurd rfl (other payload)⟩
  | encodeStart | encodeStop =>
    cases h
    exact ⟨answerEncoder_video _ _ s, answerEncoder_audio _ _ s, fun _ => answerEncoder_pcm _ _ s⟩
  | queryStatus | decodeByte | ctlStartVideo | ctlStartAudio | ctlStopVideo | ctlStopAudio =>
    cases h
    exact ⟨rfl, rfl, fun _ => rfl⟩

/-- Settles O54: such an operation writes neither part of the core state, takes no transaction and only adds to what is
sent. -/
theorem otherOperationsWriteNoState : Obligations.OtherOperationsWriteNoState := by
  intro i s t noWrite h
  obtain ⟨video, audio, pcm⟩ := core_state_of_exec noWrite h
  obtain ⟨arrivals, sent⟩ := arrivals_out_of_exec h
  exact ⟨video, audio, arrivals, fun a => by rw [video], pcm, sent⟩

theorem video_stages_of_exec_dcFilter {xL xR : Half} (h : exec (.dcFilter xL xR) s = .next t) :
    t.video = s.video ∧ t.stages = s.stages := by
  by_cases last : s.pcm.length = 382
  · cases h.symm.trans (exec_dcFilter_of_last last)
    exact ⟨rfl, rfl⟩
  · cases h.symm.trans (exec_dcFilter_of_room last)
    exact ⟨rfl, rfl⟩

/-- Settles O55: DC_FILTER whether or not it fills the block, and RESET_AUDIO, write no field of the video path. -/
theorem audioOperationsLeaveTheVideoState : Obligations.AudioOperationsLeaveTheVideoState := by
  intro i s t hi h
  obtain ⟨arrivals, sent⟩ := arrivals_out_of_exec h
  rcases hi with rfl | ⟨xL, xR, rfl⟩
  · cases h
    exact ⟨rfl, rfl, rfl, fun _ => rfl, fun _ => rfl, sent⟩
  · obtain ⟨video, stages⟩ := video_stages_of_exec_dcFilter h
    exact ⟨video, arrivals, stages, fun a => by rw [video], nofun, sent⟩

end Sys2Proof.Machine
end

section
/-! The invariant of the core: power-on reset meets it, and every step keeps it, whatever waits (10_state.md R34 to R40,
43_audio.md R265). -/

namespace Sys2Proof.Machine

variable {i : Instr} {s t : State}

/-! ### The filter -/

/-- An instruction leaves the filter alone, resets it, or makes one step of each channel. -/
theorem audio_of_exec_cases (h : exec i s = .next t) :
    t.audio = s.audio ∨ t.audio = AudioState.reset ∨
      ∃ xL xR, t.audio = ⟨dcStep s.audio.left xL, dcStep s.audio.right xR⟩ := by
  by_cases noWrite : writesNoState i = true
  · obtain ⟨-, same, -⟩ := core_state_of_exec noWrite h
    exact .inl same
  · cases i with
    | addPacket frame line lpp payload isLast =>
      simp only [exec, execAddPacket] at h
      split at h <;> cases h <;> exact .inl rfl
    | dcFilter xL xR => exact .inr (.inr ⟨xL, xR, audio_of_exec_dcFilter h⟩)
    | resetVideo => cases h; exact .inl rfl
    | resetAudio => cases h; exact .inr (.inl rfl)
    | _ => exact absurd rfl noWrite

theorem resetAudio_bounded : FilterBounded AudioState.reset := by
  have channel : ChannelBounded DcChannel.reset := by
    refine ⟨by decide, by decide, ?_⟩
    rw [show DcChannel.reset.dcOut = 0#64 from rfl, fValue_zero]
    simp [DcChannel.reset]
  exact ⟨channel, channel⟩

theorem exec_keeps_bounded (bounded : FilterBounded s.audio) (h : exec i s = .next t) : FilterBounded t.audio := by
  rcases audio_of_exec_cases h with same | reset | ⟨xL, xR, stepped⟩
  · rwa [same]
  · rw [reset]
    exact resetAudio_bounded
  · obtain ⟨left, right⟩ := bounded
    rw [stepped]
    exact ⟨dcStep_bounded _ xL left, dcStep_bounded _ xR right⟩

theorem runStages_keeps_bounded {fuel : Nat} (bounded : FilterBounded s.audio) (h : runStages fuel s = .next t) :
    FilterBounded t.audio := by
  induction fuel generalizing s with
  | zero => cases h; exact bounded
  | succ fuel ih =>
    match hs : s.stages with
    | [] =>
      cases h.symm.trans (runStages_of_nil (fuel + 1) s hs)
      exact bounded
    | i :: rest =>
      obtain ⟨u, -, -, next, -⟩ := exec_next i (s.withStages rest)
      rw [runStages_cons fuel s i rest hs, next, andThen_next] at h
      have bounded' := exec_keeps_bounded (s := s.withStages rest) bounded next
      exact ih bounded' h

theorem perform_keeps_bounded (bounded : FilterBounded s.audio) (h : perform i s = .next t) : FilterBounded t.audio := by
  obtain ⟨u, -, -, next, -⟩ := exec_next i s
  rw [perform, next, andThen_next] at h
  exact runStages_keeps_bounded (exec_keeps_bounded bounded next) h

/-- A step is a run of instructions, each of which keeps the bound. -/
theorem step_keeps_bounded (bounded : FilterBounded s.audio) (h : step s = .next t) : FilterBounded t.audio := by
  rcases step_cases s with ⟨-, -, e⟩ | ⟨x, rest, i, -, -, -, e⟩ | ⟨x, rest, err, -, -, -, e⟩ | ⟨-, e⟩
  · cases h.symm.trans e
    exact bounded
  · exact perform_keeps_bounded (s := s.withArrivals rest) bounded (e.symm.trans h)
  · cases h.symm.trans e
    exact bounded
  · exact runStages_keeps_bounded bounded (e.symm.trans h)

/-- The bound of R265: a last input is at most 32768 in magnitude. -/
theorem ChannelBounded.magnitude_lt {ch : DcChannel} (bounded : ChannelBounded ch) : fMag ch.dcOut < 65537 * fOne := by
  obtain ⟨-, -, near⟩ := bounded
  have input := sample_scaled ch.dcIn
  have one_pos := fOne_pos
  rw [← fValue_natAbs]
  omega

/-- Settles O36: the bound every step keeps gives R265's bound, finiteness and no -0.0 in each channel. -/
theorem filterStaysBounded : Obligations.FilterStaysBounded := by
  intro s t bounded h
  obtain ⟨left, right⟩ := step_keeps_bounded bounded h
  have ⟨finiteL, notNegZeroL, _⟩ := left
  have ⟨finiteR, notNegZeroR, _⟩ := right
  exact ⟨⟨left, right⟩, finiteL, left.magnitude_lt, notNegZeroL, finiteR, right.magnitude_lt, notNegZeroR⟩

/-! ### The core -/

/-- A transaction keeps the assembler's invariant: of an accepted datagram only 4 lines per packet reach ADD_PACKET. -/
theorem videoEffect_inv (x : Txn) {v : VideoState} (inv : AssemblerInv v) : AssemblerInv (videoEffect x v) := by
  obtain ⟨port, bytes⟩ := x
  cases port with
  | vin =>
    simp only [videoEffect]
    split
    · exact inv
    · next header accepted =>
      obtain ⟨-, lpp, -⟩ := header_of_ok accepted
      split
      · exact inv
      · next w stored =>
        rw [lpp] at stored
        exact addPacketTo_inv v w _ _ _ _ inv stored
  | ain => exact inv
  | cmd =>
    simp only [videoEffect]
    split
    · exact toReset_inv v inv
    · exact inv

theorem pcmEffect_nil (x : Txn) : pcmEffect x [] = [] := by
  obtain ⟨port, bytes⟩ := x
  cases port with
  | ain => simp only [pcmEffect]; split <;> rfl
  | _ => rfl

/-- Settles O2: every part of the invariant at the power-on values. -/
theorem resetMeetsTheInvariant : Obligations.ResetMeetsTheInvariant := by
  obtain ⟨canonical, consistent, inPlace⟩ := reset_inv
  exact ⟨⟨rfl, rfl⟩, canonical, consistent, inPlace, resetAudio_bounded⟩

/-- Settles O3: a step idles or is one transaction, whose effect on the assembler keeps its invariant, and it keeps the
filter's bound as every step does. -/
theorem everyStepKeepsTheInvariant : Obligations.EveryStepKeepsTheInvariant := by
  intro s t inv h
  obtain ⟨⟨hs, hp⟩, canonical, consistent, inPlace, bounded⟩ := inv
  have stays_bounded := step_keeps_bounded bounded h
  match ha : s.arrivals with
  | [] =>
    cases h.symm.trans (step_idle s hs ha)
    exact ⟨⟨hs, hp⟩, canonical, consistent, inPlace, bounded⟩
  | x :: rest =>
    rw [step_take s x rest hs ha] at h
    obtain rfl := eq_of_transact h hs
    obtain ⟨canonical', consistent', inPlace'⟩ := videoEffect_inv x (v := s.video) ⟨canonical, consistent, inPlace⟩
    refine ⟨⟨hs, ?_⟩, canonical', consistent', inPlace', stays_bounded⟩
    simp only [State.withArrivals_pcm, hp, pcmEffect_nil]

end Sys2Proof.Machine
end

section
/-! The packet header codec, both ways: the bytes of a field, acceptance by the row's word, the round trip of the header,
and the fields that nothing reads (20_memory.md section 1, 30_encoding.md sections 2 and 6). -/

namespace Sys2Proof.Machine

variable {a b dg : List Byte} {h : VideoHeader}

/-! ### The bytes of a field -/

theorem append_byte_toNat {n : Nat} (hi : BitVec n) (lo : Byte) : (hi ++ lo).toNat = 256 * hi.toNat + lo.toNat := by
  rw [BitVec.toNat_append, ← Nat.shiftLeft_add_eq_or_of_lt lo.isLt, Nat.shiftLeft_eq, Nat.mul_comm]

theorem le16_eq_ofNat (v : Half) : le16 v = [BitVec.ofNat 8 (v.toNat % 256), BitVec.ofNat 8 (v.toNat / 256)] := by
  have low : v.extractLsb' 0 8 = BitVec.ofNat 8 (v.toNat % 256) := BitVec.eq_of_toNat_eq (by simp)
  have high : v.extractLsb' 8 8 = BitVec.ofNat 8 (v.toNat / 256) :=
    BitVec.eq_of_toNat_eq (by simp [Nat.shiftRight_eq_div_pow])
  rw [le16, low, high]

theorem lastFlag_u16le (b : List Byte) (i : Nat) : lastFlag (u16le b i) = (byteAt b (i + 1)).getLsbD 7 := by
  have bit : lastFlag (u16le b i) = (byteAt b (i + 1) ++ byteAt b i : BitVec (8 + 8)).getLsbD 15 := rfl
  rw [bit, BitVec.getLsbD_append]
  rfl

theorem isLast_of_ok (accepted : decodeVideoHeader dg = .ok h) : h.isLast = (byteAt dg 5).getLsbD 7 := by
  obtain ⟨-, -, fields⟩ := (decodeVideoHeader_ok_iff dg h).1 accepted
  rw [fields]
  exact lastFlag_u16le dg 4

/-- Settles O12: the field as a sum of its bytes, the bytes as remainder and quotient, and bit 15 of the line field. -/
theorem fieldsAreLittleEndian : Obligations.FieldsAreLittleEndian :=
  ⟨u16le_toNat, le16_eq_ofNat, fun _ _ => isLast_of_ok⟩

/-! ### Acceptance -/

theorem decodeVideoHeader_accepts_iff : (∃ h, decodeVideoHeader dg = .ok h) ↔ videoWellFormed dg = true := by
  constructor
  · rintro ⟨h, accepted⟩
    exact ((decodeVideoHeader_ok_iff dg h).1 accepted).1
  · intro wf
    have hlen : dg.length = 780 := by
      simp only [videoWellFormed, Bool.and_eq_true, beq_iff_eq] at wf
      obtain ⟨⟨⟨hlen, -⟩, -⟩, -⟩ := wf
      exact hlen
    exact ⟨_, (decodeVideoHeader_ok_iff dg (headerFields dg ⟨dg.drop 12, by simp [hlen]⟩)).2 ⟨wf, rfl, rfl⟩⟩

/-- The row's word is the three checked fields, one after the other. -/
theorem row_word_iff (b6 b7 b8 b9 : Byte) :
    b9 ++ b8 ++ b7 ++ b6 = 0x04040180#32 ↔ b7 ++ b6 = 384#16 ∧ b8 = 4#8 ∧ b9 = 4#8 := by
  have h6 := b6.isLt
  have h7 := b7.isLt
  have h8 := b8.isLt
  simp only [← BitVec.toNat_inj, append_byte_toNat, BitVec.toNat_ofNat]
  omega

/-- Settles O8: the checks of a well-formed datagram are its length and the row's word. -/
theorem acceptedExactlyByTheRowsWord : Obligations.AcceptedExactlyByTheRowsWord := by
  intro dg
  rw [decodeVideoHeader_accepts_iff, row_word_iff]
  simp only [videoWellFormed, Bool.and_eq_true, beq_iff_eq, and_assoc]
  rfl

/-! ### The round trip -/

@[simp] theorem lineField_lastFlag_startLineOf (line : Half) : lineField (lastFlag line) (startLineOf line) = line := by
  have bits : lineField (lastFlag line) (startLineOf line) =
      (BitVec.ofBool (line.getLsbD 15) ++ line.setWidth 15 : BitVec (1 + 15)) := rfl
  rw [bits]
  apply BitVec.eq_of_getLsbD_eq
  intro i hi
  rw [BitVec.getLsbD_append]
  by_cases low : i < 15
  · simp [low]
  · obtain rfl : i = 15 := by omega
    simp

theorem drop_eq_byteAt_cons {i : Nat} (inside : i < b.length) : b.drop i = byteAt b i :: b.drop (i + 1) := by
  rw [List.drop_eq_getElem_cons inside, byteAt, List.getD_eq_getElem b 0#8 inside]

/-- From any offset on, a byte array is the field there and the rest. -/
theorem drop_eq_le16_append {i : Nat} (inside : i + 1 < b.length) : b.drop i = le16 (u16le b i) ++ b.drop (i + 2) := by
  rw [u16le, le16_append_bytes, drop_eq_byteAt_cons (by omega), drop_eq_byteAt_cons inside]
  rfl

/-- A datagram long enough to have every header field is those fields laid end to end. -/
theorem eq_encodeVideoHeader (hlen : 12 ≤ dg.length) (payload : Bytes 768) (hp : payload.bytes = dg.drop 12) :
    encodeVideoHeader (headerFields dg payload) (u16le dg 10) = dg := by
  calc encodeVideoHeader (headerFields dg payload) (u16le dg 10)
      = le16 (u16le dg 0) ++ (le16 (u16le dg 2) ++ (le16 (u16le dg 4) ++ (le16 (u16le dg 6) ++
          (byteAt dg 8 :: byteAt dg 9 :: (le16 (u16le dg 10) ++ dg.drop 12))))) := by
        simp [encodeVideoHeader, headerFields, hp]
    _ = dg.drop 0 := by
        rw [← drop_eq_le16_append (by omega), ← drop_eq_byteAt_cons (by omega), ← drop_eq_byteAt_cons (by omega),
          ← drop_eq_le16_append (by omega), ← drop_eq_le16_append (by omega), ← drop_eq_le16_append (by omega),
          ← drop_eq_le16_append (by omega)]
    _ = dg := dg.drop_zero

/-- Settles O10: a datagram is its fields laid end to end, and the encoder's bytes have the fields at their offsets. -/
theorem videoHeaderRoundTrip : Obligations.VideoHeaderRoundTrip := by
  refine ⟨fun dg h accepted => ?_, fun h reserved ppl lpp bpp => ?_⟩
  · obtain ⟨wf, payload, fields⟩ := (decodeVideoHeader_ok_iff dg h).1 accepted
    simp only [videoWellFormed, Bool.and_eq_true, beq_iff_eq] at wf
    rw [fields]
    exact eq_encodeVideoHeader (by omega) h.payload payload
  · exact ⟨decode_encodeVideoHeader h reserved ppl lpp bpp, encodeVideoHeader_length h reserved⟩

/-! ### The ignored fields -/

/-- Datagrams that agree from offset 2 to 9 and from offset 12 on decode alike, but for the sequence number. -/
theorem decodeVideoHeader_congr (hlen : a.length = b.length) (fields : ∀ i, 2 ≤ i → i < 10 → byteAt a i = byteAt b i)
    (payload : a.drop 12 = b.drop 12) :
    decodeVideoHeader b = (decodeVideoHeader a).map fun h => { h with seq := u16le b 0 } := by
  have halves : ∀ i, 2 ≤ i → i + 1 < 10 → u16le a i = u16le b i := fun i low high => by
    rw [u16le, u16le, fields i low (by omega), fields (i + 1) (by omega) high]
  have line : u16le a 4 = u16le b 4 := halves 4 (by omega) (by omega)
  have frame : u16le a 2 = u16le b 2 := halves 2 (by omega) (by omega)
  have ppl : u16le a 6 = u16le b 6 := halves 6 (by omega) (by omega)
  have lpp : byteAt a 8 = byteAt b 8 := fields 8 (by omega) (by omega)
  have bpp : byteAt a 9 = byteAt b 9 := fields 9 (by omega) (by omega)
  simp only [decodeVideoHeader, hlen, line, frame, ppl, lpp, bpp, payload]
  split_ifs <;> rfl

theorem transact_vin_eq (dg : List Byte) (s : State) :
    transact ⟨.vin, dg⟩ s = andThen (execVideoDatagram dg s) finishStages := rfl

theorem transact_ain_eq (dg : List Byte) (s : State) :
    transact ⟨.ain, dg⟩ s = andThen (execAudioDatagram dg s) finishStages := rfl

/-- Settles O9: the sequence number is not handed on, and neither the reserved bytes nor the audio header are decoded. -/
theorem ignoredFieldsHaveNoEffect : Obligations.IgnoredFieldsHaveNoEffect := by
  refine ⟨fun a b s hlen fields payload => ?_, fun a b s hlen payload => ?_⟩
  · rw [transact_vin_eq, transact_vin_eq, execVideoDatagram, execVideoDatagram,
      decodeVideoHeader_congr hlen fields payload]
    cases decodeVideoHeader a <;> rfl
  · have decoded : decodeAudioHeader a = decodeAudioHeader b := by simp only [decodeAudioHeader, hlen, payload]
    rw [transact_ain_eq, transact_ain_eq, execAudioDatagram, execAudioDatagram, decoded]

end Sys2Proof.Machine
end

section
/-! The encoding of every instruction is read back (30_encoding.md sections 3 and 5), and words of the spec decode. -/

namespace Sys2Proof.Machine

/-- Settles O5: each word by the decoder's own branches, the header by its checks. -/
theorem encodedWordsDecode : Obligations.EncodedWordsDecode := by
  refine ⟨by decide, by decide, by decide, by decide, ?_⟩
  rw [decodeVideoHeader_of_checks (by simp only [List.length_append, List.length_replicate, List.length_cons,
    List.length_nil]) rfl rfl rfl]
  rfl

/-! ### The stages of a transaction -/

theorem readBack_addPacket (frame : Half) (line : BitVec 15) (payload : Bytes 768) (isLast : Bool) :
    ReadBack (.addPacket frame line 4#8 payload isLast) :=
  ⟨_, rfl, exec_videoDatagram_of_ok (decode_encodeVideoHeader _ _ rfl rfl rfl)⟩

theorem readBack_extractPcm (payload : Bytes 768) : ReadBack (.extractPcm payload) :=
  ⟨_, rfl, exec_audioDatagram_of_ok ((decodeAudioHeader_ok_iff _ _).2 ⟨by simp [payload.length_eq], rfl⟩)⟩

/-- The block that encodes a sample pair: the pair's own samples first. -/
def pairPayload (xL xR : Half) : Bytes 768 :=
  ⟨le16 xL ++ le16 xR ++ List.replicate 764 0#8, by simp only [List.length_append, le16_length, List.length_replicate]⟩

theorem filterStages_pairPayload (xL xR : Half) : ∃ rest, filterStages (pairPayload xL xR) = .dcFilter xL xR :: rest := by
  refine ⟨(stereoPairs (leWords (List.replicate 764 0#8))).map fun p => .dcFilter p.1 p.2, ?_⟩
  have words : leWords (pairPayload xL xR).bytes = xL :: xR :: leWords (List.replicate 764 0#8) :=
    congrArg₂ (fun l r => l :: r :: leWords (List.replicate 764 0#8)) (append_halves xL) (append_halves xR)
  rw [filterStages, words]
  rfl

theorem readBack_dcFilter (xL xR : Half) : ReadBack (.dcFilter xL xR) := by
  obtain ⟨rest, stages⟩ := filterStages_pairPayload xL xR
  refine ⟨_, pairPayload xL xR, rest, rfl, ?_, fun s => ?_⟩
  · refine exec_audioDatagram_of_ok (dg := [0#8, 0#8] ++ (pairPayload xL xR).bytes) ?_
    exact (decodeAudioHeader_ok_iff _ _).2 ⟨by rw [List.length_append, (pairPayload xL xR).length_eq]; rfl, rfl⟩
  · simp only [exec, execExtractPcm, stages]
    rfl

/-! ### The control commands -/

theorem readBack_ctlStartVideo {params : List Byte} (wf : (parseStartParams params).isSome = true) :
    ReadBack (.ctlStartVideo params) :=
  congrArg Except.toOption (decodeCtl_ctlCommand 0x20#8 params (params_small wf))

theorem readBack_ctlStartAudio {params : List Byte} (wf : (parseStartParams params).isSome = true) :
    ReadBack (.ctlStartAudio params) :=
  congrArg Except.toOption (decodeCtl_ctlCommand 0x21#8 params (params_small wf))

/-- Settles O59: a datagram is its own encoding, a stage is handed on by the operations before it, a request and a control
command are read off their bytes. -/
theorem encodedInstructionsAreReadBack : Obligations.EncodedInstructionsAreReadBack := by
  intro i wf
  cases i with
  | videoDatagram dg => rfl
  | audioDatagram dg => rfl
  | addPacket frame line lpp payload isLast =>
    obtain rfl : lpp = 4#8 := by simpa [Instr.wellFormed] using wf
    exact readBack_addPacket frame line payload isLast
  | extractPcm payload => exact readBack_extractPcm payload
  | dcFilter xL xR => exact readBack_dcFilter xL xR
  | encodeStart id ep duration => exact congrArg Except.toOption (decodeCmd_start id ep duration)
  | ctlStartVideo params => exact readBack_ctlStartVideo wf
  | ctlStartAudio params => exact readBack_ctlStartAudio wf
  | queryStatus | assemble | encodeStop | resetVideo | resetAudio | decodeByte | ctlStopVideo | ctlStopAudio => rfl

end Sys2Proof.Machine
end

section
/-! The frame reassembler (41_frame_assembler.md): its state as the registers give it, what ADD_PACKET answers and leaves,
a frame switch, a frame that reverts, and the records that report it. -/

namespace Sys2Proof.Machine

variable {capacity : Nat} {v w : VideoState} {frame : Half} {line : BitVec 15} {lpp : Byte} {payload : Bytes 768}
  {isLast : Bool}

/-! ### The assembler's state -/

theorem isComplete_of_untracked (untracked : v.trkValid = false) : isComplete v = false := by
  simp [isComplete, untracked]

theorem asmState_empty_iff : asmState v = .empty ↔ v.trkValid = false := by
  simp only [asmState]
  split_ifs <;> simp_all

theorem asmState_complete_iff : asmState v = .complete ↔ isComplete v = true := by
  simp only [asmState]
  split_ifs with untracked complete
  · simp [isComplete_of_untracked untracked]
  · simp [complete]
  · simp [complete]

theorem asmState_accumulating_iff : asmState v = .accumulating ↔ v.trkValid = true ∧ isComplete v = false := by
  simp only [asmState]
  split_ifs <;> simp_all

/-- Settles O21: one branch of the state's definition for each of its values. -/
theorem assemblerStateIsDerived : Obligations.AssemblerStateIsDerived :=
  fun _ => ⟨asmState_empty_iff, asmState_complete_iff, asmState_accumulating_iff, rfl, rfl, rfl⟩

/-! ### What ADD_PACKET answers and leaves -/

theorem exec_addPacket_of_ok {s : State}
    (stored : addPacketTo Config.maxPackets s.video frame line lpp payload isLast = .ok w) :
    exec (.addPacket frame line lpp payload isLast) s = .next (acceptVideo (s.withVideo w)) := by
  simp only [exec, execAddPacket, stored]

/-- Settles O14: with the default capacity every packet has a slot, and the answer is read after the write. -/
theorem addPacketCompletes : Obligations.AddPacketCompletes := by
  intro s frame line payload isLast
  obtain ⟨w, stored⟩ := addPacketTo_default s.video frame line payload isLast
  exact ⟨w, stored, exec_addPacket_of_ok stored⟩

theorem PacketStored.read_outside (h : PacketStored v frame line lpp payload isLast w) {a : Nat}
    (outside : a < slotAddr (packetIndex line lpp) 0 ∨ slotAddr (packetIndex line lpp) 0 + 768 ≤ a) :
    Memory.read w.slotData a = Memory.read v.slotData a := by
  rw [h.slotData, Memory.read_writeBlock_outside]
  rwa [payload.length_eq]

/-- A packet that is neither last nor a frame switch leaves the expected count and the height. -/
theorem PacketStored.geometry_kept (h : PacketStored v frame line lpp payload false w)
    (same : isFrameSwitch v frame = false) : w.expCount = v.expCount ∧ w.height = v.height := by
  simp [h.expCount, h.height, same]

/-- Settles O15: a packet that is turned away only gets its response; one that is stored writes its slot, and the response
follows. -/
theorem addPacketFrame : Obligations.AddPacketFrame := by
  intro s t frame line lpp payload isLast h
  match e : addPacketTo Config.maxPackets s.video frame line lpp payload isLast with
  | .error r =>
    cases h.symm.trans (exec_addPacket_of_error e)
    exact ⟨fun _ _ => rfl, fun _ _ => rfl, fun _ _ => ⟨rfl, rfl⟩, rfl, rfl, rfl, rfl, _, rfl⟩
  | .ok w =>
    obtain ⟨-, stored⟩ := addPacketTo_ok_iff.1 e
    cases h.symm.trans (exec_addPacket_of_ok e)
    refine ⟨fun _ => stored.read_outside, fun i other => ?_, fun notLast same => ?_, rfl, rfl, rfl, rfl, _, rfl⟩
    · exact (stored.slotLineAt_eq i).trans (if_neg other)
    · subst notLast
      exact stored.geometry_kept same

/-! ### A datagram delivered twice -/

/-- A VIN transaction has done all it does to the assembler when it is delivered again (R186). -/
theorem videoEffect_vin_idem (dg : List Byte) (v : VideoState) :
    videoEffect ⟨.vin, dg⟩ (videoEffect ⟨.vin, dg⟩ v) = videoEffect ⟨.vin, dg⟩ v := by
  simp only [videoEffect]
  match decodeVideoHeader dg with
  | .error r => rfl
  | .ok h =>
    dsimp only
    match e : addPacketTo Config.maxPackets v h.frame h.startLine h.lpp h.payload h.isLast with
    | .error r => simp only [e]
    | .ok w =>
      obtain ⟨below, stored⟩ := addPacketTo_ok_iff.1 e
      simp only [addPacketTo_ok_iff.2 ⟨below, stored.again⟩]

/-- Settles O17: the assembler by the effect being idempotent; the filter is not on the path of VIN. -/
theorem deliveredTwiceIsDeliveredOnce : Obligations.DeliveredTwiceIsDeliveredOnce := by
  intro s t u dg hs ht hu
  obtain rfl := eq_of_transact ht hs
  obtain rfl := eq_of_transact hu hs
  exact ⟨videoEffect_vin_idem dg s.video, rfl, hs⟩

/-! ### A frame switch -/

theorem isFrameSwitch_eq_true_iff : isFrameSwitch v frame = true ↔ v.trkValid = false ∨ frame ≠ v.trkFrame := by
  simp [isFrameSwitch]

/-- After a frame switch the packet's slot is the one valid slot. -/
theorem PacketStored.slotValid_of_switch (h : PacketStored v frame line lpp payload isLast w)
    (switch : isFrameSwitch v frame = true) : w.slotValid = [packetIndex line lpp] := by
  rw [h.slotValid, if_pos switch]
  rfl

/-- A packet that starts a frame and is not last leaves no expected count and no height. -/
theorem PacketStored.geometry_of_switch (h : PacketStored v frame line lpp payload false w)
    (switch : isFrameSwitch v frame = true) : w.expCount = 0#16 ∧ w.height = 0#16 := by
  simp [h.expCount, h.height, switch]

theorem PacketStored.isComplete_iff_of_last (h : PacketStored v frame line lpp payload true w) :
    isComplete w = true ↔ packetIndex line lpp + 1 ≤ packetCount w := by
  rw [isComplete_iff, h.trkValid, h.expCount_toNat]
  simp

theorem not_complete_of_no_expCount (none : v.expCount = 0#16) : isComplete v = false := by
  simp [isComplete, none]

/-- Settles O18: the switch clears the slots before the store, so the count is 1 and a last packet completes the frame
exactly in slot 0. -/
theorem frameSwitchDiscardsTheOldFrame : Obligations.FrameSwitchDiscardsTheOldFrame := by
  intro capacity v w frame line payload isLast newFrame e
  obtain ⟨-, stored⟩ := addPacketTo_ok_iff.1 e
  have switch := isFrameSwitch_eq_true_iff.2 newFrame
  have valid := stored.slotValid_of_switch switch
  have count : packetCount w = 1 := congrArg List.length valid
  refine ⟨count, fun i => ?_, stored.trkFrame, ?_, ?_⟩
  · rw [slotValidAt_iff, valid, List.mem_singleton, packetIndex_eq]
  · rintro rfl
    obtain ⟨expCount, height⟩ := stored.geometry_of_switch switch
    exact ⟨expCount, height, asmState_accumulating_iff.2 ⟨stored.trkValid, not_complete_of_no_expCount expCount⟩⟩
  · rintro rfl
    rw [asmState_complete_iff, stored.isComplete_iff_of_last, count, packetIndex_eq]
    omega

/-! ### A frame that reverts -/

/-- Marking a slot adds at most one to the count, whether or not it was valid. -/
theorem markValid_length_le (valid : List Nat) (i : Nat) : (markValid valid i).length ≤ valid.length + 1 := by
  have above_le : valid.countP (fun k => decide (i < k)) ≤ valid.countP fun k => !decide (k < i) :=
    List.countP_mono_left fun k _ above => by simp at above ⊢; omega
  have parts := List.length_eq_countP_add_countP (fun k => decide (k < i)) (l := valid)
  simp only [markValid, List.length_append, List.length_singleton, ← List.countP_eq_length_filter]
  simp only [decide_not, Bool.decide_eq_true] at parts
  omega

/-- Settles O22: the expected count is one above the packet's index, and storing it adds at most one to the count. -/
theorem completeCanRevert : Obligations.CompleteCanRevert := by
  intro capacity v w line payload tracked few e
  obtain ⟨-, stored⟩ := addPacketTo_ok_iff.1 e
  have kept : isFrameSwitch v v.trkFrame = false := isFrameSwitch_eq_false_iff.2 ⟨tracked, rfl⟩
  have count : packetCount w ≤ packetCount v + 1 := by
    simpa [packetCount, stored.slotValid, kept] using markValid_length_le v.slotValid (packetIndex line 4#8)
  refine asmState_accumulating_iff.2 ⟨stored.trkValid, Bool.eq_false_iff.2 fun complete => ?_⟩
  have enough := stored.isComplete_iff_of_last.1 complete
  rw [packetIndex_eq] at enough
  omega

/-! ### The records -/

theorem flagsByte_eq (v : VideoState) : flagsByte v =
    BitVec.ofNat 8 ((if v.trkValid then 1 else 0) + (if isComplete v then 2 else 0)) := by
  rw [flagsByte]
  cases v.trkValid <;> cases isComplete v <;> rfl

theorem formatField_eq (v : VideoState) :
    formatField v = if v.height = 0#16 then 3#8 else fmtTag v.height.toNat := by
  have none_iff : v.height = 0#16 ↔ ¬ 0 < v.height.toNat := by rw [← BitVec.toNat_inj]; simp
  simp only [formatField, none_iff, ite_not]

/-- Settles O23: the record's bytes, with the flags and the format field as the obligation writes them. -/
theorem queryStatusReportsTheRecord : Obligations.QueryStatusReportsTheRecord := by
  intro s
  rw [← flagsByte_eq, ← formatField_eq]
  rfl

/-- Settles O26: RESET_VIDEO writes each register's power-on value and no byte of the slots. -/
theorem resetVideoRestoresThePowerOnValues : Obligations.ResetVideoRestoresThePowerOnValues :=
  fun s => ⟨s.video.toReset, rfl, rfl, rfl, rfl, rfl, fun _ => rfl, fun _ => rfl, rfl, fun _ => rfl⟩

theorem stdBHeight_range : 4 ≤ Config.stdBHeight ∧ Config.stdBHeight ≤ 32771 ∧ Config.stdBHeight ≠ 272 := by
  have choice_lt : Config.stdBHeightChoice % 32767 < 32767 := Nat.mod_lt _ (by decide)
  by_cases below : Config.stdBHeightChoice % 32767 + 4 < 272
  · have height : Config.stdBHeight = Config.stdBHeightChoice % 32767 + 4 := if_pos below
    omega
  · have height : Config.stdBHeight = Config.stdBHeightChoice % 32767 + 5 := if_neg below
    omega

theorem fmtTag_ne_three (h : Nat) : fmtTag h ≠ 3#8 := by
  rw [fmtTag]
  split_ifs <;> decide

/-- Settles O27: the range of the second height, which keeps the tags apart, and that no height has the tag 3. -/
theorem formatTagNamesTheHeights : Obligations.FormatTagNamesTheHeights := by
  obtain ⟨lower, upper, ne⟩ := stdBHeight_range
  refine ⟨lower, upper, ne, rfl, ?_, fun h notA notB => ?_, fun v => ?_⟩
  · exact (if_neg ne).trans (if_pos rfl)
  · exact (if_neg notA).trans (if_neg notB)
  · rw [formatField_eq]
    split_ifs with none
    · simp [none]
    · simp [none, fmtTag_ne_three]

end Sys2Proof.Machine
end

section
/-! What an invalid slot holds is never observed (70_reset_and_hazards.md R362): two assembler states that share everything
else report the same, draw the same frame, and share everything else after every transaction. -/

namespace Sys2Proof.Machine

variable {v w v' w' : VideoState} {frame : Half} {line : BitVec 15} {lpp : Byte} {payload : Bytes 768} {isLast : Bool}

namespace SameValidSlots

/-! ### What is reported -/

theorem packetCount_eq (h : SameValidSlots v w) : packetCount v = packetCount w := by
  obtain ⟨-, -, valid, -⟩ := h
  rw [packetCount, valid, packetCount]

theorem isComplete_eq (h : SameValidSlots v w) : isComplete v = isComplete w := by
  have count := h.packetCount_eq
  obtain ⟨tracked, -, -, expCount, -⟩ := h
  simp only [isComplete, tracked, expCount, count]

theorem asmState_eq (h : SameValidSlots v w) : asmState v = asmState w := by
  have complete := h.isComplete_eq
  obtain ⟨tracked, -⟩ := h
  simp only [asmState, tracked, complete]

theorem vinResponse_eq (h : SameValidSlots v w) (r : Option DiscardReason) : vinResponse r v = vinResponse r w := by
  simp only [vinResponse, h.asmState_eq]

theorem frameHeader_eq (h : SameValidSlots v w) : frameHeader v = frameHeader w := by
  obtain ⟨-, -, -, -, height, -⟩ := h
  simp only [frameHeader, height]

theorem statusRecord_eq (h : SameValidSlots v w) : statusRecord v = statusRecord w := by
  have state := h.asmState_eq
  have complete := h.isComplete_eq
  have count := h.packetCount_eq
  obtain ⟨tracked, trkFrame, -, expCount, height, -⟩ := h
  simp only [statusRecord, flagsByte, formatField, state, complete, count, tracked, trkFrame, expCount, height]

/-! ### The frame -/

/-- A valid slot's sub-lines are read from bytes that both states share. -/
theorem subLine_eq (h : SameValidSlots v w) (hv : Memory.wf v.slotData) (hw : Memory.wf w.slotData) {i j : Nat}
    (valid : i ∈ v.slotValid) (hj : j < 4) : subLine v i j = subLine w i j := by
  obtain ⟨-, -, -, -, -, slots⟩ := h
  obtain ⟨-, bytes⟩ := slots i valid
  refine List.ext_getElem? fun k => ?_
  by_cases inside : k < 192
  · rw [subLine_getElem? v i j k hv inside, subLine_getElem? w i j k hw inside, bytes _ (by omega)]
  · rw [List.getElem?_eq_none (by simpa using inside), List.getElem?_eq_none (by simpa using inside)]

theorem drawSlot_eq (h : SameValidSlots v w) (hv : Memory.wf v.slotData) (hw : Memory.wf w.slotData) {i : Nat}
    (valid : i ∈ v.slotValid) (rows : List (List Rgb)) : drawSlot v rows i = drawSlot w rows i := by
  have subLine_eq (j : Nat) := h.subLine_eq hv hw valid (j := j)
  obtain ⟨-, -, -, -, -, slots⟩ := h
  obtain ⟨line, -⟩ := slots i valid
  refine List.foldl_ext _ _ _ fun rows j hj => ?_
  rw [drawSubLine, drawSubLine, line, subLine_eq j (List.mem_range.1 hj)]

theorem frameRows_eq (h : SameValidSlots v w) (hv : Memory.wf v.slotData) (hw : Memory.wf w.slotData) :
    frameRows v = frameRows w := by
  have draw := List.foldl_ext (drawSlot v) (drawSlot w) (List.replicate v.height.toNat blankRow)
    fun rows _ valid => h.drawSlot_eq hv hw valid rows
  obtain ⟨-, -, valid, -, height, -⟩ := h
  rw [frameRows, draw, valid, height, frameRows]

/-! ### After a transaction -/

theorem isFrameSwitch_eq (h : SameValidSlots v w) (frame : Half) : isFrameSwitch v frame = isFrameSwitch w frame := by
  obtain ⟨tracked, trkFrame, -⟩ := h
  simp only [isFrameSwitch, tracked, trkFrame]

/-- A packet writes every register from what the states share, and its whole slot. -/
theorem after_stored (h : SameValidSlots v w) (hv : PacketStored v frame line lpp payload isLast v')
    (hw : PacketStored w frame line lpp payload isLast w') : SameValidSlots v' w' := by
  have switch := h.isFrameSwitch_eq frame
  obtain ⟨-, -, valid, expCount, height, slots⟩ := h
  refine ⟨by rw [hv.trkValid, hw.trkValid], by rw [hv.trkFrame, hw.trkFrame],
    by rw [hv.slotValid, hw.slotValid, switch, valid], by rw [hv.expCount, hw.expCount, switch, expCount],
    by rw [hv.height, hw.height, switch, height], fun i hi => ?_⟩
  have new_or_old := (hv.slotValidAt_iff i).1 ((slotValidAt_iff v' i).2 hi)
  refine ⟨?_, fun off ho => ?_⟩
  · rw [hv.slotLineAt_eq, hw.slotLineAt_eq]
    split_ifs with new
    · rfl
    · obtain ⟨-, -, old⟩ := new_or_old.resolve_left new
      exact (slots i ((slotValidAt_iff v i).1 old)).1
  · rw [hv.slotByte_eq i ho, hw.slotByte_eq i ho]
    split_ifs with new
    · rfl
    · obtain ⟨-, -, old⟩ := new_or_old.resolve_left new
      exact (slots i ((slotValidAt_iff v i).1 old)).2 off ho

theorem after_toReset (v w : VideoState) : SameValidSlots v.toReset w.toReset :=
  ⟨rfl, rfl, rfl, rfl, rfl, by simp⟩

/-- ADD_PACKET turns the packet away from both states or stores it in both. -/
theorem after_addPacketTo (h : SameValidSlots v w) (capacity : Nat) (frame : Half) (line : BitVec 15) (lpp : Byte)
    (payload : Bytes 768) (isLast : Bool) :
    (∃ r, addPacketTo capacity v frame line lpp payload isLast = .error r ∧
      addPacketTo capacity w frame line lpp payload isLast = .error r) ∨
    ∃ v' w', addPacketTo capacity v frame line lpp payload isLast = .ok v' ∧
      addPacketTo capacity w frame line lpp payload isLast = .ok w' ∧ SameValidSlots v' w' := by
  rcases addPacketTo_cases capacity v frame line lpp payload isLast with ⟨beyond, e⟩ | ⟨v', below, e, -⟩
  · exact .inl ⟨_, e, addPacketTo_of_capacity_le beyond⟩
  · rcases addPacketTo_cases capacity w frame line lpp payload isLast with ⟨beyond, -⟩ | ⟨w', -, e', -⟩
    · omega
    · exact .inr ⟨v', w', e, e', h.after_stored (addPacketTo_ok_iff.1 e).2 (addPacketTo_ok_iff.1 e').2⟩

theorem after_videoEffect (h : SameValidSlots v w) (x : Txn) :
    SameValidSlots (videoEffect x v) (videoEffect x w) := by
  obtain ⟨port, bytes⟩ := x
  cases port with
  | vin =>
    simp only [videoEffect]
    match decodeVideoHeader bytes with
    | .error r => exact h
    | .ok hd =>
      rcases h.after_addPacketTo Config.maxPackets hd.frame hd.startLine hd.lpp hd.payload hd.isLast with
        ⟨r, ev, ew⟩ | ⟨v', w', ev, ew, same⟩
      · simpa only [ev, ew] using h
      · simpa only [ev, ew] using same
  | ain => exact h
  | cmd =>
    simp only [videoEffect]
    split_ifs
    · exact after_toReset v w
    · exact h

theorem videoAnswer_eq (h : SameValidSlots v w) (dg : List Byte) : videoAnswer dg v = videoAnswer dg w := by
  simp only [videoAnswer]
  match decodeVideoHeader dg with
  | .error r => exact h.vinResponse_eq (some r)
  | .ok hd =>
    rcases h.after_addPacketTo Config.maxPackets hd.frame hd.startLine hd.lpp hd.payload hd.isLast with
      ⟨r, ev, ew⟩ | ⟨v', w', ev, ew, same⟩
    · simpa only [ev, ew] using h.vinResponse_eq (some r)
    · simpa only [ev, ew] using same.vinResponse_eq none

theorem requestSends_eq (h : SameValidSlots v w) (hv : Memory.wf v.slotData) (hw : Memory.wf w.slotData) (i : Instr) :
    requestSends i v = requestSends i w := by
  cases i with
  | queryStatus => simp only [requestSends, h.statusRecord_eq]
  | assemble => simp only [requestSends, h.isComplete_eq, h.frameHeader_eq, h.frameRows_eq hv hw]
  | _ => rfl

theorem sends_eq (h : SameValidSlots v w) (hv : Memory.wf v.slotData) (hw : Memory.wf w.slotData) (x : Txn)
    (a : AudioState) : sends x v a = sends x w a := by
  obtain ⟨port, bytes⟩ := x
  cases port with
  | vin => simp only [sends, h.videoAnswer_eq]
  | ain => rfl
  | cmd =>
    simp only [sends]
    match decodeCmd bytes with
    | .error e => rfl
    | .ok i => exact h.requestSends_eq hv hw i

end SameValidSlots

/-- Settles O58: a step idles or is one transaction, which sends the same from both states and keeps what they share. -/
theorem invalidSlotsAreNeverObserved : Obligations.InvalidSlotsAreNeverObserved := by
  intro s t u w hs canonical canonical' same ht hu
  match ha : s.arrivals with
  | [] =>
    cases ht.symm.trans (step_idle s hs ha)
    cases hu.symm.trans (step_idle (s.withVideo w) hs ha)
    exact ⟨rfl, rfl, rfl, rfl, rfl, same⟩
  | x :: rest =>
    rw [step_take s x rest hs ha] at ht
    rw [step_take (s.withVideo w) x rest hs ha] at hu
    obtain rfl := eq_of_transact ht hs
    obtain rfl := eq_of_transact hu hs
    obtain ⟨-, -, -, wf⟩ := canonical
    obtain ⟨-, -, -, wf'⟩ := canonical'
    exact ⟨congrArg (s.out ++ ·) (same.sends_eq wf wf' x s.audio).symm, rfl, rfl, rfl, rfl, same.after_videoEffect x⟩

end Sys2Proof.Machine
end

section
/-! Binary64 (00_scope.md R12, log 14): sums and products are nearest numbers, ties to even; the output sample is the
nearest integer; and what the filter makes of a first sample and of silence (43_audio.md R260 to R266). -/

namespace Sys2Proof.Machine

variable {a b y z : F64}

/-! ### A nearest number -/

/-- No finite number times `scale` is nearer to `x` than `y` times `scale`, and one as near but different makes the
significand of `y` even. -/
def IsNearest (y : F64) (x : Int) (scale : Nat) : Prop :=
  ∀ z : F64, fFinite z = true →
    (fValue y * scale - x).natAbs ≤ (fValue z * scale - x).natAbs ∧
    ((fValue y * scale - x).natAbs = (fValue z * scale - x).natAbs → fValue z ≠ fValue y → y.getLsbD 0 = false)

theorem fPack_even {neg : Bool} {p : Nat} (hp : p < 2 ^ 63) (even : p % 2 = 0) : (fPack neg p).getLsbD 0 = false := by
  rw [BitVec.getLsbD, fPack_toNat neg p hp, Nat.testBit_eq_decide_div_mod_eq]
  simp only [pow_zero, Nat.div_one, decide_eq_false_iff_not]
  omega

/-- A number times a scale is its scaled magnitude with its sign. -/
theorem fValue_mul_scale (z : F64) (k : Nat) :
    fValue z * (2 ^ k : Nat) =
      if fSign z then -((patMag (patOf z) * 2 ^ k : Nat) : Int) else ((patMag (patOf z) * 2 ^ k : Nat) : Int) := by
  rw [fValue, fMag_eq]
  split_ifs <;> push_cast <;> ring

/-- The distance of two signed values of different signs is the sum of their magnitudes. -/
theorem natAbs_opposite {sign neg : Bool} (differ : sign ≠ neg) (m n : Nat) :
    ((if sign then -(m : Int) else m) - (if neg then -(n : Int) else n)).natAbs = m + n := by
  rw [Bool.eq_not_of_ne differ]
  cases neg <;> simp only [Bool.not_false, Bool.not_true, if_true, Bool.false_eq_true, if_false] <;> omega

/-- The rounded magnitude with a sign is nearest to the value it rounds: numbers of that sign are no nearer by the
rounding of magnitudes, and those of the other sign are no nearer than zero. -/
theorem fPack_roundMag_nearest (neg : Bool) {n k : Nat} (small : n ≤ maxMag * 2 ^ k) :
    IsNearest (fPack neg (roundMag n k)) (if neg then -(n : Int) else n) (2 ^ k) := by
  intro z _
  have hp := roundMag_lt n k
  have even := fPack_even (neg := neg) hp
  obtain ⟨near, tie⟩ := wideMag_nearest n k (patOf z)
  obtain ⟨near_zero, tie_zero⟩ := wideMag_nearest n k 0
  have scaled_inj : fValue z * (2 ^ k : Nat) ≠ fValue (fPack neg (roundMag n k)) * (2 ^ k : Nat) ↔
      fValue z ≠ fValue (fPack neg (roundMag n k)) := by
    rw [Ne, mul_left_inj' (by positivity)]
  rw [← scaled_inj, fValue_mul_scale, fValue_mul_scale z, fSign_fPack neg _ hp, patOf_fPack neg _ hp]
  rw [roundMag_lt_infMag n k small] at even ⊢
  rw [show patMag 0 * 2 ^ k = 0 by simp [patMag]] at near_zero tie_zero
  generalize patMag (wideMag n k) * 2 ^ k = rounded at *
  generalize patMag (patOf z) * 2 ^ k = other at *
  by_cases same : fSign z = neg
  · rw [same, natAbs_signed, natAbs_signed]
    refine ⟨near, fun equal ne => even (tie equal fun h => ne (by rw [h]))⟩
  · rw [natAbs_signed, natAbs_opposite same]
    simp only [Nat.cast_zero, zero_sub, Int.natAbs_neg, Int.natAbs_natCast] at near_zero tie_zero
    generalize ((rounded : Int) - n).natAbs = error at *
    refine ⟨by omega, fun equal ne => even (tie_zero (by omega) fun h => ne ?_)⟩
    obtain rfl : other = 0 := by omega
    rw [← h]
    simp

/-- A number that equals `x` forces every nearest one to equal it. -/
theorem IsNearest.exact {x : Int} (nearest : IsNearest y x 1) (finite : fFinite z = true) (value : fValue z = x) :
    fValue y = x := by
  obtain ⟨near, -⟩ := nearest z finite
  rw [value] at near
  simp only [Nat.cast_one, mul_one] at near
  omega

/-! ### Sums and products -/

theorem fLargest_eq : fLargest = maxMag := by
  have pattern : patOf 0x7FEFFFFFFFFFFFFF#64 = 0x7FEFFFFFFFFFFFFF := by decide
  have significand : 2 ^ 52 + 0x7FEFFFFFFFFFFFFF % 2 ^ 52 = 2 ^ 53 - 1 := by decide
  have exponent : 0x7FEFFFFFFFFFFFFF / 2 ^ 52 - 1 = 2045 := by decide
  rw [fLargest, fMag_eq, pattern, patMag, if_neg (by decide), significand, exponent, maxMag]

/-- A finite sum is the exact sum's magnitude, rounded, with the sign of the exact sum. -/
theorem fAdd_eq_fPack (ha : fFinite a = true) (hb : fFinite b = true) :
    ∃ neg : Bool, fAdd a b = fPack neg (roundMag (fValue a + fValue b).natAbs 0) ∧
      (if neg then -((fValue a + fValue b).natAbs : Int) else (fValue a + fValue b).natAbs) = fValue a + fValue b ∧
      (fValue a + fValue b ≠ 0 → neg = decide (fValue a + fValue b < 0)) ∧
      (fValue a + fValue b = 0 → neg = (fSign a && fSign b)) := by
  rw [fAdd_of_finite ha hb]
  generalize fValue a + fValue b = sum
  by_cases zero : sum = 0
  · subst zero
    exact ⟨fSign a && fSign b, by simp, by simp, fun h => absurd rfl h, fun _ => rfl⟩
  · exact ⟨decide (sum < 0), if_neg zero, signed_self sum, fun _ => rfl, fun h => absurd h zero⟩

theorem fAdd_nearest (ha : fFinite a = true) (hb : fFinite b = true) (small : (fValue a + fValue b).natAbs ≤ maxMag) :
    IsNearest (fAdd a b) (fValue a + fValue b) 1 := by
  obtain ⟨neg, sum, signed, -⟩ := fAdd_eq_fPack ha hb
  have nearest := fPack_roundMag_nearest neg (n := (fValue a + fValue b).natAbs) (k := 0) (by simpa using small)
  rwa [← sum, signed, pow_zero] at nearest

theorem fAdd_sign (ha : fFinite a = true) (hb : fFinite b = true) :
    (fValue a + fValue b ≠ 0 → fSign (fAdd a b) = decide (fValue a + fValue b < 0)) ∧
    (fValue a + fValue b = 0 → fSign (fAdd a b) = (fSign a && fSign b)) := by
  obtain ⟨neg, sum, -, sign, zeroSign⟩ := fAdd_eq_fPack ha hb
  rw [sum, fSign_fPack neg _ (roundMag_lt _ _)]
  exact ⟨sign, zeroSign⟩

theorem fMul_nearest (ha : fFinite a = true) (hb : fFinite b = true) (small : fMag a * fMag b ≤ maxMag * fOne) :
    IsNearest (fMul a b) (fValue a * fValue b) fOne := by
  rw [fOne_eq] at small ⊢
  rw [fMul_of_finite ha hb, fValue_mul]
  exact fPack_roundMag_nearest _ small

theorem fMul_sign (ha : fFinite a = true) (hb : fFinite b = true) : fSign (fMul a b) = (fSign a != fSign b) := by
  rw [fMul_of_finite ha hb, fSign_fPack _ _ (roundMag_lt _ _)]

/-- Settles O33: the sum is a nearest number to the exact sum, in the format's range. -/
theorem additionRoundsToNearest : Obligations.AdditionRoundsToNearest := by
  intro a b ha hb small
  rw [fLargest_eq] at small
  refine ⟨(fAdd_value ha hb small).1, fun z finite => ?_, fAdd_sign ha hb⟩
  simpa using fAdd_nearest ha hb small z finite

/-- Settles O34: the product is a nearest number to the exact product, in the format's range. -/
theorem multiplicationRoundsToNearest : Obligations.MultiplicationRoundsToNearest := by
  intro a b ha hb small
  rw [fLargest_eq] at small
  exact ⟨(fMul_value ha hb small).1, fMul_nearest ha hb small, fMul_sign ha hb⟩

/-! ### The output sample -/

/-- Two different multiples of the unit are at least the unit apart. -/
theorem unit_le_distance {m n : Int} (ne : m ≠ n) (u : Nat) : u ≤ (m * u - n * u).natAbs := by
  rw [← Int.sub_mul, Int.natAbs_mul, Int.natAbs_natCast]
  exact Nat.le_mul_of_pos_left u (by omega)

/-- Settles O35: the integer is within half a unit, so no other is nearer, and one as near lies half a unit away. -/
theorem outputSampleIsTheNearestInteger : Obligations.OutputSampleIsTheNearestInteger := by
  intro y finite
  obtain ⟨close, tie⟩ := rneInt_value y
  refine ⟨rneInt y, fun m => ?_, ?_⟩
  · by_cases same : m = rneInt y
    · exact ⟨by rw [same], fun _ ne => absurd same ne⟩
    · have apart := unit_le_distance same fOne
      exact ⟨by omega, fun equal _ => tie (by omega)⟩
  · rw [sampleOf_toInt finite]
    split_ifs <;> omega

/-! ### A first sample -/

theorem rneInt_of_value {x : Int} (value : fValue y = x * fOne) : rneInt y = x := by
  obtain ⟨close, -⟩ := rneInt_value y
  have one_pos := fOne_pos
  by_contra ne
  have apart := unit_le_distance ne fOne
  rw [value] at close
  omega

theorem fMul_zero_right (ha : fFinite a = true) : fFinite (fMul a 0#64) = true ∧ fValue (fMul a 0#64) = 0 := by
  have product : fMul a 0#64 = fPack (fSign a != fSign 0#64) 0 := by
    rw [fMul_of_finite ha (by decide), fMag_zero, Nat.mul_zero, roundMag_zero]
  have positive : 0 < infMag := by rw [infMag_eq]; decide
  rw [product, fValue_fPack _ 0 (by decide)]
  exact ⟨fFinite_fPack _ 0 positive, by simp [patMag]⟩

/-- Settles O32: the sum of the sample and a zero is exact, and so is its integer. -/
theorem firstSamplePassesThrough : Obligations.FirstSamplePassesThrough := by
  intro x
  have range := toInt_bounds x
  have output : (dcStep DcChannel.reset x).dcOut = fAdd (fOfInt x.toInt) (fMul Config.alpha 0#64) := by
    simp [dcStep, DcChannel.reset]
  obtain ⟨sampleFinite, sampleValue, -⟩ := fOfInt_value x.toInt (by omega)
  obtain ⟨zeroFinite, zeroValue⟩ := fMul_zero_right alpha_finite
  have sum : fValue (fOfInt x.toInt) + fValue (fMul Config.alpha 0#64) = x.toInt * fOne := by
    rw [sampleValue, zeroValue, add_zero]
  have small : (fValue (fOfInt x.toInt) + fValue (fMul Config.alpha 0#64)).natAbs ≤ maxMag := by
    rw [sum, Int.natAbs_mul, Int.natAbs_natCast]
    exact mul_fOne_le_maxMag _ (by omega)
  have finite := (fAdd_value sampleFinite zeroFinite small).1
  have value := (fAdd_nearest sampleFinite zeroFinite small).exact sampleFinite (by rw [zeroValue, add_zero])
  rw [sum, ← output] at value
  rw [← output] at finite
  refine ⟨finite, value, BitVec.eq_of_toInt_eq ?_⟩
  rw [sampleOf_toInt finite, rneInt_of_value value]
  omega

/-! ### Silence -/

theorem fMag_le_maxMag (finite : fFinite y = true) : fMag y ≤ maxMag := by
  rw [fFinite_iff, infMag_eq] at finite
  rw [fMag_eq, patMag, maxMag]
  split
  · have subnormal_le : ∀ k, patOf y % 2 ^ 52 ≤ (2 ^ 53 - 1) * 2 ^ k := fun k =>
      le_trans (by omega) (Nat.le_mul_of_pos_right (2 ^ 53 - 1) (Nat.two_pow_pos k))
    exact subnormal_le 2045
  · have power_le : ∀ k, patOf y / 2 ^ 52 - 1 ≤ k → 2 ^ (patOf y / 2 ^ 52 - 1) ≤ 2 ^ k := fun _ le =>
      Nat.pow_le_pow_right (by decide) le
    exact Nat.mul_le_mul (by omega) (power_le 2045 (by omega))

/-- The distance from `n` units to the product of `m` units and a factor A / 2^53, without the unit. -/
theorem scaled_distance {u a A : Nat} (factor : a * 2 ^ 53 = A * u) (n m : Nat) :
    2 ^ 53 * (((n * u : Nat) : Int) - ((a * m : Nat) : Int)).natAbs = (2 ^ 53 * (n : Int) - A * m).natAbs * u := by
  have factor' : (a : Int) * 2 ^ 53 = A * u := by exact_mod_cast factor
  have scaled : 2 ^ 53 * (((n * u : Nat) : Int) - ((a * m : Nat) : Int)) = (2 ^ 53 * (n : Int) - A * m) * u := by
    push_cast
    linear_combination (-m : Int) * factor'
  have magnitudes := congrArg Int.natAbs scaled
  rwa [Int.natAbs_mul, Int.natAbs_mul, Int.natAbs_natCast] at magnitudes

/-- The rounded product with ALPHA is no farther from the exact one than any magnitude of the format. -/
theorem alpha_product_nearest (m p : Nat) :
    (2 ^ 53 * (patMag (wideMag (fMag Config.alpha * m) 1074) : Int) - (8962163258467287 : Nat) * m).natAbs ≤
      (2 ^ 53 * (patMag p : Int) - (8962163258467287 : Nat) * m).natAbs := by
  have near := (wideMag_nearest (fMag Config.alpha * m) 1074 p).1
  rw [← fOne_eq] at near
  refine Nat.le_of_mul_le_mul_right (c := fOne) ?_ fOne_pos
  rw [← scaled_distance alpha_value, ← scaled_distance alpha_value]
  omega

/-- From 99 units on, the product with ALPHA is no larger than its operand and no smaller than 99 units: 99 units are
nearer to ALPHA times 99 than 98 are. -/
theorem fMag_fMul_alpha (finite : fFinite y = true) (large : 99 ≤ fMag y) :
    99 ≤ fMag (fMul Config.alpha y) ∧ fMag (fMul Config.alpha y) ≤ fMag y := by
  have small : fMag Config.alpha * fMag y ≤ maxMag * 2 ^ 1074 := by
    rw [← fOne_eq, Nat.mul_comm maxMag]
    exact Nat.mul_le_mul (le_of_scaled alpha_value (by decide)) (fMag_le_maxMag finite)
  have toOperand := alpha_product_nearest (fMag y) (patOf y)
  have to99 := alpha_product_nearest (fMag y) 99
  rw [← fMag_eq] at toOperand
  rw [show patMag 99 = 99 from rfl] at to99
  rw [fMul_of_finite alpha_finite finite, fMag_fPack _ _ (roundMag_lt _ _), roundMag_lt_infMag _ _ small]
  generalize patMag (wideMag (fMag Config.alpha * fMag y) 1074) = product at *
  omega

/-- A sum with +0.0 keeps the other operand's magnitude, and its sign if it is not zero. -/
theorem fAdd_zero_left (hb : fFinite b = true) (nonzero : fMag b ≠ 0) :
    fFinite (fAdd (fOfInt 0) b) = true ∧ fMag (fAdd (fOfInt 0) b) = fMag b ∧ fSign (fAdd (fOfInt 0) b) = fSign b := by
  obtain ⟨zeroFinite, zeroValue, -⟩ := fOfInt_value 0 (by decide)
  have sum : fValue (fOfInt 0) + fValue b = fValue b := by rw [zeroValue]; ring
  have small : (fValue (fOfInt 0) + fValue b).natAbs ≤ maxMag := by
    rw [sum, fValue_natAbs]
    exact fMag_le_maxMag hb
  have value := (fAdd_nearest zeroFinite hb small).exact hb sum.symm
  have sign := (fAdd_sign zeroFinite hb).1
  rw [sum] at value sign
  refine ⟨(fAdd_value zeroFinite hb small).1, by rw [← fValue_natAbs, value, fValue_natAbs], ?_⟩
  have nonzero' : fValue b ≠ 0 := by rwa [← Int.natAbs_ne_zero, fValue_natAbs]
  rw [sign nonzero', fValue]
  cases fSign b
  · simp
  · simpa using Nat.pos_of_ne_zero nonzero

theorem dcStep_silent (x : Half) (y : F64) :
    dcStep ⟨x, y⟩ x = ⟨x, fAdd (fOfInt 0) (fMul Config.alpha y)⟩ := by
  simp only [dcStep, Int.sub_self]

/-- Settles O37: in silence a step is the product with ALPHA; the two smallest values that stay are computed. -/
theorem silentInputNeverReachesZero : Obligations.SilentInputNeverReachesZero := by
  refine ⟨fun x y finite large => ?_, fun x => ?_⟩
  · have small : fMag Config.alpha * fMag y ≤ maxMag * fOne := by
      rw [Nat.mul_comm maxMag]
      exact Nat.mul_le_mul (le_of_scaled alpha_value (by decide)) (fMag_le_maxMag finite)
    obtain ⟨lower, upper⟩ := fMag_fMul_alpha finite large
    obtain ⟨outFinite, mag, sign⟩ := fAdd_zero_left (fMul_value alpha_finite finite small).1 (by omega)
    rw [dcStep_silent, mag, sign, fMul_sign alpha_finite finite, alpha_sign]
    exact ⟨lower, upper, by simp, outFinite⟩
  · rw [dcStep_silent, dcStep_silent]
    have fixed : fAdd (fOfInt 0) (fMul Config.alpha 99#64) = 99#64 := by decide +kernel
    have fixed_neg : fAdd (fOfInt 0) (fMul Config.alpha 0x8000000000000063#64) = 0x8000000000000063#64 := by
      decide +kernel
    rw [fixed, fixed_neg]
    exact ⟨rfl, rfl⟩

end Sys2Proof.Machine
end

section
/-! ASSEMBLE of a complete frame, pixel by pixel (41_frame_assembler.md R200 to R203, 20_memory.md R79). -/

namespace Sys2Proof.Machine

variable {v : VideoState} {s : State} {r c i : Nat}

theorem exec_assemble_of_complete (complete : isComplete s.video = true) :
    exec .assemble s = .next
      ((cmdOk (frameHeader s.video) s).emit .fout (frameHeader s.video ++ pixelBytes (frameRows s.video))) := by
  simp only [exec, execAssemble, complete, if_true]

theorem byteAt_of_getElem? {b : List Byte} {k : Nat} {x : Byte} (h : b[k]? = some x) : byteAt b k = x := by
  rw [byteAt, List.getD_eq_getElem?_getD, h, Option.getD_some]

/-- The bytes of a pixel are those of the colour that its row has in its column. -/
theorem byteAt_pixelBytes {row : List Rgb} {p : Rgb} (hrow : (frameRows v)[r]? = some row) (hpixel : row[c]? = some p)
    (hc : c < 384) {k : Nat} (hk : k < 3) :
    byteAt (pixelBytes (frameRows v)) (3 * (384 * r + c) + k) = byteAt (rgbBytes p) k := by
  have inside : (rgbBytes p)[k]? = some (byteAt (rgbBytes p) k) := by
    rw [byteAt, List.getD_eq_getElem (rgbBytes p) 0#8 hk, List.getElem?_eq_getElem hk]
  refine byteAt_of_getElem? ?_
  rw [pixelBytes_getElem? _ (frameRows_width v) r c k hc hk, hrow, Option.bind_some, hpixel, Option.bind_some, inside]

theorem blankPixel_bytes : ∀ k < 3, byteAt (rgbBytes blankPixel) k = 0#8 := by decide

/-- A slot's colour in a row it covers, by the sub-line and the nibble (R201, R234). -/
theorem decodeRow_subLine_getElem? (hv : Memory.wf v.slotData) (hc : c < 384) :
    (decodeRow (subLine v i (r - (slotLineAt v i).toNat)))[c]? = some (slotPixel v i r c) := by
  rw [decodeRow_getElem?, subLine_getElem? v i _ _ hv (by omega)]
  rfl

/-- Settles O25: a row that no valid slot covers is blank, any other is the highest covering slot's. -/
theorem assembleDrawsEveryPixel : Obligations.AssembleDrawsEveryPixel := by
  intro s complete canonical
  obtain ⟨rising, -, -, wf⟩ := canonical
  refine ⟨pixelBytes (frameRows s.video), ?_, ?_,
    fun r hr c hc => ⟨fun blank k hk => ?_, fun i valid covered top => ?_⟩⟩
  · rw [exec_assemble_of_complete complete]
    simp [cmdOk, State.emit, frameHeader]
  · rw [pixelBytes_length _ (frameRows_width s.video), frameRows_length]
  · have row := (frameRows_getElem? s.video r hr).1 fun i valid => blank i ((slotValidAt_iff _ i).2 valid)
    have pixel : blankRow[c]? = some blankPixel := by
      rw [blankRow, List.getElem?_replicate, if_pos hc]
    rw [byteAt_pixelBytes row pixel hc hk, blankPixel_bytes k hk]
  · have row := (frameRows_getElem? s.video r hr).2 i ((slotValidAt_iff _ i).1 valid) rising covered
      fun j valid' => top j ((slotValidAt_iff _ j).2 valid')
    have bytes (k : Nat) := byteAt_pixelBytes row (decodeRow_subLine_getElem? wf hc) hc (k := k)
    exact ⟨bytes 0 (by decide), bytes 1 (by decide), bytes 2 (by decide)⟩

end Sys2Proof.Machine
end

section
/-! The audio path as a whole: DC_FILTER's next state, RESET_AUDIO, and an AIN transaction sample by sample (43_audio.md
R260 to R270, 40_packet_codec.md R161). -/

namespace Sys2Proof.Machine

variable {dg : List Byte} {p : Nat}

/-- Settles O31: the block with room and the block that the pair fills. -/
theorem dcFilterCompletes : Obligations.DcFilterCompletes := by
  refine fun s xL xR => ⟨exec_dcFilter_of_room, fun last => ?_⟩
  rw [exec_dcFilter_of_last last]
  simp [State.emit, State.withPcm, State.withAudio, ainResponse, pcmBytes]

/-- Settles O41: RESET_AUDIO writes the filter's reset values and answers OK. -/
theorem resetAudioRestoresThePowerOnValues : Obligations.ResetAudioRestoresThePowerOnValues :=
  fun _ => rfl

/-! ### A block, sample by sample -/

/-- The filter after the first `p` pairs of a datagram. -/
def audioAfter (a : AudioState) (dg : List Byte) (p : Nat) : AudioState :=
  (filterPairs a ((datagramPairs dg).take p)).1

theorem datagramPairs_split (hlen : dg.length = 770) (hp : p < 192) :
    datagramPairs dg = (datagramPairs dg).take p ++
      (u16le dg (2 + 4 * p), u16le dg (4 + 4 * p)) :: (datagramPairs dg).drop (p + 1) := by
  have inside : p < (datagramPairs dg).length := (datagramPairs_length hlen).symm ▸ hp
  have pair := datagramPairs_getElem? hlen hp
  rw [List.getElem?_eq_getElem inside, Option.some.injEq] at pair
  rw [← pair, ← List.drop_eq_getElem_cons inside, List.take_append_drop]

theorem audioAfter_succ (a : AudioState) (hlen : dg.length = 770) (hp : p < 192) :
    audioAfter a dg (p + 1) = ⟨dcStep (audioAfter a dg p).left (u16le dg (2 + 4 * p)),
      dcStep (audioAfter a dg p).right (u16le dg (4 + 4 * p))⟩ := by
  have next : (datagramPairs dg).take (p + 1) =
      (datagramPairs dg).take p ++ [(u16le dg (2 + 4 * p), u16le dg (4 + 4 * p))] := by
    rw [List.take_add_one, datagramPairs_getElem? hlen hp]
    rfl
  rw [audioAfter, next, filterPairs_append]
  rfl

theorem audioAfter_last (a : AudioState) (hlen : dg.length = 770) :
    audioAfter a dg 192 = (filterPairs a (datagramPairs dg)).1 := by
  rw [audioAfter, List.take_of_length_le (datagramPairs_length hlen).le]

/-- The two outputs of pair `p` are the samples of the filter after it. -/
theorem filterPairs_outputs (a : AudioState) (hlen : dg.length = 770) (hp : p < 192) :
    (filterPairs a (datagramPairs dg)).2[2 * p]? = some (sampleOf (audioAfter a dg (p + 1)).left.dcOut) ∧
    (filterPairs a (datagramPairs dg)).2[2 * p + 1]? = some (sampleOf (audioAfter a dg (p + 1)).right.dcOut) := by
  have before : (filterPairs a ((datagramPairs dg).take p)).2.length = 2 * p := by
    rw [filterPairs_length, List.length_take_of_le (by rw [datagramPairs_length hlen]; omega)]
  rw [datagramPairs_split hlen hp, filterPairs_append, audioAfter_succ a hlen hp, List.getElem?_append_right before.le,
    List.getElem?_append_right (by omega), before]
  simp [filterPairs, audioAfter]

theorem pcmBytes_length (samples : List Half) : (pcmBytes samples).length = 2 * samples.length :=
  flatMap_length _ _ 2 fun _ _ => rfl

theorem leWords_pcmBytes (samples : List Half) : leWords (pcmBytes samples) = samples := by
  induction samples with
  | nil => rfl
  | cons x samples ih =>
    have words : leWords (pcmBytes (x :: samples)) =
        (x.extractLsb' 8 8 ++ x.extractLsb' 0 8) :: leWords (pcmBytes samples) := rfl
    rw [words, append_halves, ih]

/-- Sample `k` of a block is the 16-bit value at offset 2k. -/
theorem u16le_pcmBytes {samples : List Half} {k : Nat} {x : Half} (h : samples[k]? = some x) :
    u16le (pcmBytes samples) (2 * k) = x := by
  rw [← leWords_pcmBytes samples] at h
  obtain ⟨inside, value⟩ := List.getElem?_eq_some_iff.1 h
  rw [← leWords_getElem _ k inside, value]

/-- Settles O39: the closed form of an accepted datagram, with the filter's states after each pair. -/
theorem audioTransactionFiltersTheBlock : Obligations.AudioTransactionFiltersTheBlock := by
  intro s dg hs hlen
  refine ⟨audioAfter s.audio dg, pcmBytes (filterPairs s.audio (datagramPairs dg)).2, ?_, rfl,
    fun p hp => audioAfter_succ s.audio hlen hp, ?_, fun p hp => ?_⟩
  · rw [transact_ain_accepted hs hlen, audioAfter_last s.audio hlen]
  · rw [pcmBytes_length, filterPairs_length, datagramPairs_length hlen]
  · obtain ⟨left, right⟩ := filterPairs_outputs s.audio hlen hp
    have left_offset : 4 * p = 2 * (2 * p) := by omega
    have right_offset : 4 * p + 2 = 2 * (2 * p + 1) := by omega
    rw [right_offset, left_offset]
    exact ⟨u16le_pcmBytes left, u16le_pcmBytes right⟩

end Sys2Proof.Machine
end

section
/-! The text of an endpoint (44_control.md R291): its numbers are decimal, and different endpoints have different
texts. -/

namespace Sys2Proof.Machine

/-- Reading digits off the front of a text is what their decimal value means. -/
theorem readNumber_eq_foldl (acc : Nat) (digits : List Byte) (h : ∀ d ∈ digits, isDigit d) :
    (readNumber acc digits).1 = digits.foldl (fun acc d => 10 * acc + (d.toNat - 0x30)) acc := by
  induction digits generalizing acc with
  | nil => rfl
  | cons d digits ih =>
    rw [readNumber_digit acc d digits (h d (by simp)), ih _ fun c hc => h c (by simp [hc])]
    rfl

theorem digitsValue_dec {n : Nat} (h : n < 100000) : digitsValue (dec n) = n := by
  rw [digitsValue, ← readNumber_eq_foldl 0 (dec n) (dec_isDigit n), readNumber_dec n h]

theorem isDigit_iff (d : Byte) : isDigit d ↔ 0x30 ≤ d.toNat ∧ d.toNat ≤ 0x39 := Iff.rfl

theorem dec_head {n : Nat} (pos : 0 < n) (h : n < 100000) : (dec n).head? ≠ some 0x30#8 := by
  obtain ⟨d, rest, digits, nonzero⟩ := decDigits_head 5 n pos h
  rw [dec, digits]
  simpa using nonzero

theorem dec_length (n : Nat) : (dec n).length ≤ 5 ∧ 1 ≤ (dec n).length := decDigits_length 4 n

/-- Settles O47: the digits are read back as the number, and the first is not '0' unless the number is 0. -/
theorem numbersAreWrittenInDecimal : Obligations.NumbersAreWrittenInDecimal := by
  refine ⟨rfl, fun n hn => ?_⟩
  obtain ⟨longest, shortest⟩ := dec_length n
  exact ⟨digitsValue_dec (by omega), fun d hd => (isDigit_iff d).1 (dec_isDigit n d hd),
    fun pos => dec_head pos (by omega), List.length_pos_iff.1 shortest, longest⟩

theorem endpointText_injective : Function.Injective endpointText := fun e f same =>
  Option.some.inj ((parseEndpoint_endpointText e).symm.trans (same ▸ parseEndpoint_endpointText f))

/-- Settles O48: the text reads back as the endpoint, and its numbers have 1 to 3 and 1 to 5 digits. -/
theorem endpointTextsDiffer : Obligations.EndpointTextsDiffer :=
  fun e _ => ⟨fun same => endpointText_injective same, endpointText_length e⟩

end Sys2Proof.Machine
end

section
/-! Command requests that are refused, the encoders as instructions, and what can leave on COUT (30_encoding.md R112,
R113, R121, 44_control.md R292, R295, R300). -/

namespace Sys2Proof.Machine

variable {b rest : List Byte} {op : Byte} {i : Instr} {id : Byte} {s : State}

/-! ### Refused requests -/

/-- An op code outside 1 to 7 is refused before the length is looked at. -/
theorem decodeCmd_of_reserved (reserved : op.toNat = 0 ∨ 7 < op.toNat) : decodeCmd (op :: rest) = .error .op := by
  simp only [decodeCmd]
  split
  case h_8 => rfl
  all_goals omega

/-- The length that each op code's request must have (30_encoding.md R120). -/
theorem decodeCmd_of_length_ne (hop : 1 ≤ op.toNat ∧ op.toNat ≤ 7)
    (hlen : (op :: rest).length ≠ requestLength op.toNat) : decodeCmd (op :: rest) = .error .length := by
  obtain known | known | known | known | known | known | known : op.toNat = 1 ∨ op.toNat = 2 ∨ op.toNat = 3 ∨
    op.toNat = 4 ∨ op.toNat = 5 ∨ op.toNat = 6 ∨ op.toNat = 7 := by omega
  all_goals
    rw [known] at hlen
    simp only [decodeCmd, known]
    exact ofLength_of_length_ne hlen _

theorem transact_cmd_of_error {e : CmdError} (hd : decodeCmd b = .error e) (s : State) :
    transact ⟨.cmd, b⟩ s = .next { s with out := s.out ++ [⟨.cmdResponse, [cmdErrorCode e]⟩] } :=
  transact_error ⟨.cmd, b⟩ s e hd

theorem transact_of_length_ne (hop : 1 ≤ op.toNat ∧ op.toNat ≤ 7)
    (hlen : (op :: rest).length ≠ requestLength op.toNat) (s : State) :
    transact ⟨.cmd, op :: rest⟩ s = .next { s with out := s.out ++ [⟨.cmdResponse, [0x81#8]⟩] } :=
  transact_cmd_of_error (decodeCmd_of_length_ne hop hlen) s

theorem decodeCmd_start_of_length (hlen : (3#8 :: rest).length = 10) :
    ∃ ep duration, decodeCmd (3#8 :: rest) = .ok (.encodeStart (byteAt (3#8 :: rest) 1) ep duration) :=
  ⟨_, _, if_pos hlen⟩

theorem decodeCmd_stop_of_length (hlen : (4#8 :: rest).length = 2) :
    decodeCmd (4#8 :: rest) = .ok (.encodeStop (byteAt (4#8 :: rest) 1)) :=
  if_pos hlen

theorem transact_start_of_refused (hs : s.stages = []) (hlen : (3#8 :: rest).length = 10)
    (hid : 1 < (byteAt (3#8 :: rest) 1).toNat) :
    transact ⟨.cmd, 3#8 :: rest⟩ s = .next { s with out := s.out ++ [⟨.cmdResponse, [0x82#8]⟩] } := by
  obtain ⟨ep, duration, hd⟩ := decodeCmd_start_of_length hlen
  rw [transact_of_neither hs hd rfl s.video, requestSends_start_of_refused hid]

theorem transact_stop_of_refused (hs : s.stages = []) (hlen : (4#8 :: rest).length = 2)
    (hid : 1 < (byteAt (4#8 :: rest) 1).toNat) :
    transact ⟨.cmd, 4#8 :: rest⟩ s = .next { s with out := s.out ++ [⟨.cmdResponse, [0x82#8]⟩] } := by
  rw [transact_of_neither hs (decodeCmd_stop_of_length hlen) rfl s.video, requestSends_stop_of_refused hid]

/-- Settles O42: the op code first, then the length it asks for, then the stream id. -/
theorem refusedRequestsChangeNothing : Obligations.RefusedRequestsChangeNothing := by
  intro s b hs
  cases b with
  | nil =>
    exact ⟨fun _ => transact_cmd_of_error (e := .op) rfl s, fun ne => absurd rfl ne, fun ne => absurd rfl ne,
      fun ne => absurd rfl ne, fun _ hlen => absurd hlen (by decide), fun _ hlen => absurd hlen (by decide)⟩
  | cons op rest =>
    rw [show byteAt (op :: rest) 0 = op from rfl]
    refine ⟨fun reserved => ?_, fun _ hop hlen => ?_, fun _ hop hlen => ?_, fun _ hop hlen => ?_,
      fun hop hlen hid => ?_, fun hop hlen hid => ?_⟩
    · exact transact_cmd_of_error (decodeCmd_of_reserved (reserved.resolve_left (by simp))) s
    · simp only [List.mem_cons, List.not_mem_nil, or_false] at hop
      refine transact_of_length_ne (by omega) ?_ s
      rcases hop with hop | hop | hop | hop <;> (rw [hop]; exact hlen)
    · refine transact_of_length_ne (by omega) ?_ s
      rw [hop]
      exact hlen
    · simp only [List.mem_cons, List.not_mem_nil, or_false] at hop
      refine transact_of_length_ne (by omega) ?_ s
      rcases hop with hop | hop <;> (rw [hop]; exact hlen)
    · obtain rfl : op = 3#8 := BitVec.eq_of_toNat_eq hop
      exact transact_start_of_refused hs hlen hid
    · obtain rfl : op = 4#8 := BitVec.eq_of_toNat_eq hop
      exact transact_stop_of_refused hs hlen hid

/-! ### The encoders as instructions -/

theorem exec_encodeStart (id : Byte) (ep : Endpoint) (duration : Half) (s : State) :
    exec (.encodeStart id ep duration) s =
      .next (answerEncoder (startCommand id (le16 duration ++ endpointText ep)) (6 + (endpointText ep).length) s) := by
  have command_length : 4 + (startParams ep duration).length = 6 + (endpointText ep).length := by
    rw [startParams_length]
    omega
  rw [← command_length]
  rfl

theorem startCommand_of_refused (hid : 1 < id.toNat) (params : List Byte) : startCommand id params = none := by
  obtain ⟨not_zero, not_one⟩ := not_or.1 (mt stream_accepted_iff.1 (Nat.not_le_of_lt hid))
  rw [startCommand, if_neg not_zero, if_neg not_one]

theorem stopCommand_of_refused (hid : 1 < id.toNat) : stopCommand id = none := by
  obtain ⟨not_zero, not_one⟩ := not_or.1 (mt stream_accepted_iff.1 (Nat.not_le_of_lt hid))
  rw [stopCommand, if_neg not_zero, if_neg not_one]

/-- Settles O43: streams 0 and 1 have a command, which goes to the stage that sends it; no other stream has one. -/
theorem encodersComplete : Obligations.EncodersComplete := by
  intro s ep duration
  rw [exec_encodeStart, exec_encodeStart]
  refine ⟨rfl, rfl, rfl, rfl, fun id hid => ?_⟩
  rw [exec_encodeStart, startCommand_of_refused hid]
  simp only [exec, execEncodeStop, stopCommand_of_refused hid]
  exact ⟨rfl, rfl⟩

/-- Settles O44: each command's bytes are one transfer on COUT. -/
theorem controlCommandsLeaveOnCout : Obligations.ControlCommandsLeaveOnCout :=
  fun _ _ => ⟨rfl, rfl, rfl, rfl⟩

/-! ### What leaves on COUT -/

/-- The bytes are a control command of the core's, which decodes to a well-formed instruction (R112 to R114). -/
def IsControlCommand (bytes : List Byte) : Prop :=
  (byteAt bytes 0).toNat ∈ [0x20, 0x21, 0x30, 0x31] ∧ byteAt bytes 1 = 0xFF#8 ∧
    bytes.length = 4 + (u16le bytes 2).toNat ∧ ∃ i, decode (.command bytes) = some i ∧ i.wellFormed = true

/-- Framing puts the marker and the parameter length in their places. -/
theorem isControlCommand_ctlCommand {c : Byte} {params : List Byte} (kind : c.toNat ∈ [0x20, 0x21, 0x30, 0x31])
    (short : params.length < 65536) (hd : decodeCtl (ctlCommand c params) = .ok i) (wf : i.wellFormed = true) :
    IsControlCommand (ctlCommand c params) := by
  refine ⟨kind, rfl, ?_, i, by rw [decode, hd]; rfl, wf⟩
  rw [ctlCommand_length, ctlCommand_paramLength, BitVec.toNat_ofNat, Nat.mod_eq_of_lt short]

theorem isControlCommand_start (hid : id = 0#8 ∨ id = 1#8) (ep : Endpoint) (duration : Half) :
    IsControlCommand (ctlCommand (Config.startBase + id) (startParams ep duration)) := by
  have wf : (parseStartParams (startParams ep duration)).isSome = true := by rw [parseStartParams_startParams]; rfl
  have short := params_small wf
  rcases hid with rfl | rfl
  · exact isControlCommand_ctlCommand (by decide) short (decodeCtl_ctlCommand 0x20#8 _ short) wf
  · exact isControlCommand_ctlCommand (by decide) short (decodeCtl_ctlCommand 0x21#8 _ short) wf

theorem isControlCommand_stop (hid : id = 0#8 ∨ id = 1#8) :
    IsControlCommand (ctlCommand (Config.stopBase + id) []) := by
  rcases hid with rfl | rfl
  · exact isControlCommand_ctlCommand (i := .ctlStopVideo) (by decide) (by decide) rfl rfl
  · exact isControlCommand_ctlCommand (i := .ctlStopAudio) (by decide) (by decide) rfl rfl

/-- Of the requests only the encoders' send anything on COUT. -/
theorem requestSends_cout (i : Instr) (v : VideoState) :
    ∀ x ∈ requestSends i v, x.port = .cout → IsControlCommand x.bytes := by
  cases i with
  | encodeStart id ep duration =>
    rw [requestSends]
    split_ifs with hid
    · simpa using isControlCommand_start hid ep duration
    · simp
  | encodeStop id =>
    rw [requestSends]
    split_ifs with hid
    · simpa using isControlCommand_stop hid
    · simp
  | assemble =>
    rw [requestSends]
    split_ifs <;> simp
  | _ => simp [requestSends]

theorem sends_cout (t : Txn) (v : VideoState) (a : AudioState) :
    ∀ x ∈ sends t v a, x.port = .cout → IsControlCommand x.bytes := by
  obtain ⟨port, bytes⟩ := t
  cases port with
  | vin => simp [sends]
  | ain =>
    simp only [sends]
    split <;> simp
  | cmd =>
    simp only [sends]
    split
    · simp
    · next i _ => exact requestSends_cout i v

/-- Settles O50: a step sends nothing, or what one transaction sends. -/
theorem onlyControlCommandsLeaveOnCout : Obligations.OnlyControlCommandsLeaveOnCout := by
  intro s t hs h
  match ha : s.arrivals with
  | [] =>
    cases h.symm.trans (step_idle s hs ha)
    exact ⟨[], (List.append_nil _).symm, fun _ hx => absurd hx List.not_mem_nil⟩
  | x :: rest =>
    rw [step_take s x rest hs ha] at h
    obtain rfl := eq_of_transact h hs
    exact ⟨sends x s.video s.audio, rfl, sends_cout x s.video s.audio⟩

end Sys2Proof.Machine
end

section
/-! Whole transactions: power-on, a step as its instruction and stages, discards with their codes, one response each, and
the two paths (10_state.md sections 4 and 5, 30_encoding.md R100, R122). -/

namespace Sys2Proof.Machine

variable {s u : State} {i : Instr} {t : Txn}

/-- Settles O1: the fields of the reset state as they are written out. -/
theorem resetHoldsThePowerOnValues : Obligations.ResetHoldsThePowerOnValues :=
  ⟨rfl, rfl, fun _ => rfl, rfl, rfl, rfl, rfl, rfl, rfl, rfl, rfl, rfl, rfl, rfl, rfl, rfl⟩

/-! ### A step -/

theorem decode_txn_eq_some (h : decode (.txn t) = some i) : decodeTxn t = .ok i := by
  simp only [decode] at h
  match decodeTxn t, h with
  | .ok _, rfl => rfl

/-- Running the stages of a state is running the first of them, then those that it leaves. -/
theorem finishStages_cons {rest : List Instr} (hs : s.stages = i :: rest) (he : exec i (s.withStages rest) = .next u) :
    finishStages s = finishStages u := by
  obtain ⟨u', new, -, he', stages, less, -⟩ := exec_next i (s.withStages rest)
  obtain rfl := Host.Outcome.next.inj (he'.symm.trans he)
  rw [State.withStages_stages] at stages
  have load : workload s.stages = work i + workload rest := by simp [hs, workload]
  have load' : workload u'.stages = workload new + workload rest := by rw [stages, workload_append]
  obtain ⟨fuel, hfuel⟩ : ∃ n, workload s.stages = n + 1 := ⟨work i - 1 + workload rest, by omega⟩
  rw [finishStages, hfuel, runStages_cons fuel s i rest hs, he, andThen_next, finishStages]
  exact runStages_fuel u' _ _ (by omega) le_rfl

theorem perform_eq_finishStages (he : exec i s = .next u) : perform i s = finishStages u := by
  rw [perform, he, andThen_next]

/-- Settles O4: a step by the four cases of what the state holds, and the stages one by one. -/
theorem stepRunsTheDecodedInstruction : Obligations.StepRunsTheDecodedInstruction := by
  refine ⟨fun s txn rest i u hs ha hd he => ?_, fun s txn rest e hs ha hd => ?_, step_idle, step_stages,
    fun s i rest u v hs he hv => (finishStages_cons hs he).trans hv⟩
  · have performs : step s = finishStages u := by
      rw [step_take s txn rest hs ha, transact_ok txn _ i (decode_txn_eq_some hd), perform_eq_finishStages he]
    exact ⟨performs, fun done => by rw [performs, finishStages_of_nil u done]⟩
  · rw [step_take s txn rest hs ha, transact_error txn _ e hd]
    rfl

/-- Settles O7: the first failing check gives the code, and a discard only appends its response. -/
theorem videoDatagramDiscardsAreReported : Obligations.VideoDatagramDiscardsAreReported := by
  refine fun dg s => ⟨fun hlen => ?_, fun hlen hppl => ?_, fun hlen hppl hlpp => ?_, fun hlen hppl hlpp hbpp => ?_⟩
  · exact exec_videoDatagram_of_error (decodeVideoHeader_of_length_ne hlen) s
  · exact exec_videoDatagram_of_error (decodeVideoHeader_of_ppl_ne hlen hppl) s
  · exact exec_videoDatagram_of_error (decodeVideoHeader_of_lpp_ne hlen hppl hlpp) s
  · exact exec_videoDatagram_of_error (decodeVideoHeader_of_bpp_ne hlen hppl hlpp hbpp) s

/-! ### One response -/

/-- One response with bytes on the port's channel, then at most one output. -/
def IsAnswer (port : InPort) (sent : List Transfer) : Prop :=
  ∃ response outputs, sent = ⟨responsePort port, response⟩ :: outputs ∧ response ≠ [] ∧ outputs.length ≤ 1 ∧
    ∀ x ∈ outputs, isResponse x = false

theorem isAnswer_response (port : InPort) (code : Byte) (data : List Byte) :
    IsAnswer port [⟨responsePort port, code :: data⟩] :=
  ⟨code :: data, [], rfl, List.cons_ne_nil _ _, Nat.zero_le _, fun _ hx => absurd hx List.not_mem_nil⟩

theorem isAnswer_output (port : InPort) (code : Byte) (data : List Byte) {output : Transfer}
    (out : isResponse output = false) : IsAnswer port [⟨responsePort port, code :: data⟩, output] :=
  ⟨code :: data, [output], rfl, List.cons_ne_nil _ _, le_rfl, fun x hx => by rwa [List.mem_singleton.1 hx]⟩

theorem requestSends_isAnswer (request : isRequest i = true) (v : VideoState) : IsAnswer .cmd (requestSends i v) := by
  cases i with
  | queryStatus | resetVideo | resetAudio | decodeByte => exact isAnswer_response .cmd _ _
  | assemble | encodeStart | encodeStop =>
    rw [requestSends]
    split
    · exact isAnswer_output .cmd _ _ rfl
    · exact isAnswer_response .cmd _ _
  | _ => cases request

theorem videoAnswer_eq_cons (dg : List Byte) (v : VideoState) : ∃ code data, videoAnswer dg v = code :: data := by
  rw [videoAnswer]
  split
  · exact ⟨_, _, rfl⟩
  · split <;> exact ⟨_, _, rfl⟩

theorem sends_isAnswer (t : Txn) (v : VideoState) (a : AudioState) : IsAnswer t.port (sends t v a) := by
  obtain ⟨port, bytes⟩ := t
  cases port with
  | vin =>
    obtain ⟨code, data, answer⟩ := videoAnswer_eq_cons bytes v
    simp only [sends, answer]
    exact isAnswer_response .vin code data
  | ain =>
    simp only [sends]
    split
    · exact isAnswer_response .ain _ _
    · exact isAnswer_output .ain _ _ rfl
  | cmd =>
    simp only [sends]
    split
    · exact isAnswer_response .cmd _ _
    · next i hd => exact requestSends_isAnswer (decodeCmd_isRequest hd) v

/-- Settles O52: what the step's transaction sends is one answer. -/
theorem exactlyOneResponse : Obligations.ExactlyOneResponse := by
  intro s txn rest t hs ha h
  rw [step_take s txn rest hs ha] at h
  obtain rfl := eq_of_transact h hs
  obtain ⟨response, outputs, answer, nonempty, few, outputsOnly⟩ := sends_isAnswer txn s.video s.audio
  exact ⟨response, outputs, congrArg (s.out ++ ·) answer, nonempty, few, outputsOnly⟩

/-! ### The two paths -/

/-- Settles O56: in the closed form of a transaction neither its effects nor what it sends depend on the other path. -/
theorem pathsAreDisjoint : Obligations.PathsAreDisjoint := by
  refine ⟨fun s txn hs path => ?_, fun s txn hs path => ?_⟩
  · refine ⟨{ s with
      video := videoEffect txn s.video
      pcm := pcmEffect txn s.pcm
      out := s.out ++ sends txn s.video s.audio }, fun a => ?_⟩
    rw [transact_eq txn (s.withAudio a) hs, State.withAudio_audio, audioEffect_of_not_audio path,
      sends_of_not_audio path _ a s.audio]
    rfl
  · refine ⟨{ s with
      audio := audioEffect txn s.audio
      pcm := pcmEffect txn s.pcm
      out := s.out ++ sends txn s.video s.audio }, fun v => ?_⟩
    rw [transact_eq txn (s.withVideo v) hs, State.withVideo_video, videoEffect_of_not_video path,
      sends_of_not_video path v s.video]
    rfl

end Sys2Proof.Machine
end
